-- ==== Sys2Proof/Word.lean ====
section
/-! DEFINITION. The unsigned word types of the spec (00_scope.md R9, R10): every quantity of the block is unsigned. -/

namespace Sys2Proof

/-- `u8` (R10): one byte on the wire, in a register or in the host buffer. -/
abbrev Byte := BitVec 8

/-- `u16` (R10): the host operation word of R95. -/
abbrev Half := BitVec 16

/-- `u32` (R8 `WORD_WIDTH`, R10): sector numbers, counts, addresses and command arguments. -/
abbrev Word := BitVec 32

/-- A host address or a buffer length as it travels in a call (log 3). -/
abbrev Wide := BitVec 64

end Sys2Proof
end

