-- ==== Sys2Proof/Syntax.lean ====
section
/-! DEFINITION. The words of the block as syntax: one constructor per row of spec/opcode_table.json (30_encoding.md). -/

namespace Sys2Proof

/-- A host buffer passed to an operation (R60, R61): where it starts in the host's memory and how many bytes it has. -/
structure Buf where
  base : Wide
  len : Wide
deriving DecidableEq, Repr

/-- The formats of R80 in which a row of the opcode table stands. Which format a byte has is fixed by the sequencer step
that sends or awaits it (R105), not by the byte. -/
inductive Format where
  | hostOp
  | cmdFrame
  | r1
  | dataIn
  | dataOut
  | stopToken
  | dataResp
deriving DecidableEq, Repr

/-- The 27 rows of the opcode table. -/
inductive Instr where
  /-- INIT, host op word 0x0000 (R180). -/
  | init (drive : Byte)
  /-- STATUS, host op word 0x0001 (R240). -/
  | status (drive : Byte)
  /-- READ, host op word 0x0002 (R210). -/
  | read (drive : Byte) (buf : Buf) (sector count : Word)
  /-- WRITE, host op word 0x0003 (R217). -/
  | write (drive : Byte) (buf : Buf) (sector count : Word)
  /-- IOCTL_SYNC, host op word 0x0004 (R242). -/
  | ioctlSync (drive : Byte) (buf : Buf)
  /-- IOCTL_GET_SECTOR_COUNT, host op word 0x0104 (R243). -/
  | ioctlGetSectorCount (drive : Byte) (buf : Buf)
  /-- IOCTL_GET_SECTOR_SIZE, host op word 0x0204 (R246). -/
  | ioctlGetSectorSize (drive : Byte) (buf : Buf)
  /-- IOCTL_OTHER, host op word `(cmd << 8) | 0x0004` with `cmd` 3..255 (R247). -/
  | ioctlOther (cmd : Byte) (drive : Byte) (buf : Buf)
  /-- CMD0, GO_IDLE_STATE (R150). -/
  | cmd0
  /-- CMD1, SEND_OP_COND (R151). -/
  | cmd1
  /-- CMD8, SEND_IF_COND (R152). -/
  | cmd8
  /-- CMD9, SEND_CSD (R153). -/
  | cmd9
  /-- CMD12, STOP_TRANSMISSION (R154). -/
  | cmd12
  /-- CMD16, SET_BLOCKLEN (R155). -/
  | cmd16
  /-- CMD17, READ_SINGLE_BLOCK (R156). -/
  | cmd17 (address : Word)
  /-- CMD18, READ_MULTIPLE_BLOCK (R157). -/
  | cmd18 (address : Word)
  /-- CMD24, WRITE_BLOCK (R158). -/
  | cmd24 (address : Word)
  /-- CMD25, WRITE_MULTIPLE_BLOCK (R159). -/
  | cmd25 (address : Word)
  /-- CMD55, APP_CMD, the escape command (R160). -/
  | cmd55
  /-- CMD58, READ_OCR (R161). -/
  | cmd58
  /-- ACMD23, SET_WR_BLK_ERASE_COUNT (R162): the frame that follows an accepted CMD55. -/
  | acmd23 (count : Word)
  /-- ACMD41, SD_SEND_OP_COND (R163), with the HCS bit 30 of its argument set or not. -/
  | acmd41 (hcs : Bool)
  /-- TOKEN_START_BLOCK 0xFE (R92, R215, R218). -/
  | tokenStartBlock
  /-- TOKEN_START_MULTI_WRITE 0xFC (R92, R218). -/
  | tokenStartMultiWrite
  /-- TOKEN_STOP_TRAN 0xFD (R92, R222). -/
  | tokenStopTran
  /-- DATA_RESP_ACCEPTED (R93): low five bits 0b00101, with the three ignored bits. -/
  | dataRespAccepted (ignored : BitVec 3)
  /-- R1_VALID (R85): a byte with bit 7 clear, with its other seven bits. -/
  | r1Valid (flags : BitVec 7)
deriving DecidableEq, Repr

/-- The format of the row an instruction stands for (opcode_table.json, R80). -/
def Instr.format : Instr → Format
  | .init _ | .status _ | .read .. | .write .. | .ioctlSync .. | .ioctlGetSectorCount .. | .ioctlGetSectorSize ..
  | .ioctlOther .. => .hostOp
  | .cmd0 | .cmd1 | .cmd8 | .cmd9 | .cmd12 | .cmd16 | .cmd17 _ | .cmd18 _ | .cmd24 _ | .cmd25 _ | .cmd55 | .cmd58
  | .acmd23 _ | .acmd41 _ => .cmdFrame
  | .tokenStartBlock => .dataIn
  | .tokenStartMultiWrite => .dataOut
  | .tokenStopTran => .stopToken
  | .dataRespAccepted _ => .dataResp
  | .r1Valid _ => .r1

end Sys2Proof
end

