-- ==== Sys2Proof/WellFormed.lean ====
section
/-! DEFINITION. Which instructions have an encoding. The field types already bound every operand; the one check left is
that IOCTL_OTHER does not spell one of the three named ioctl commands (R95, R104, opcode_table.json). -/

namespace Sys2Proof

/-- `ioctlCmd` 0, 1 and 2 belong to the rows Sync, GetSectorCount and GetSectorSize (R95). -/
def Instr.wellFormed : Instr → Bool
  | .ioctlOther cmd _ _ => decide (3 ≤ cmd.toNat)
  | .init _ | .status _ | .read .. | .write .. | .ioctlSync .. | .ioctlGetSectorCount .. | .ioctlGetSectorSize ..
  | .cmd0 | .cmd1 | .cmd8 | .cmd9 | .cmd12 | .cmd16 | .cmd17 _ | .cmd18 _ | .cmd24 _ | .cmd25 _ | .cmd55 | .cmd58
  | .acmd23 _ | .acmd41 _ | .tokenStartBlock | .tokenStartMultiWrite | .tokenStopTran | .dataRespAccepted _
  | .r1Valid _ => true

end Sys2Proof
end

