-- ==== Sys2Proof/Decode.lean ====
section
/-! DEFINITION. The decoder, total on any bytes and rejecting by name, and after it the encoder, both written from
30_encoding.md. The bytes of a call's arguments are the model's own layout (log 2). -/

namespace Sys2Proof

/-- Why a list of bytes spells no instruction of a format. -/
inductive Reject where
  /-- Fewer bytes than the format has. -/
  | tooShort
  /-- A reserved host operation word (R104). -/
  | reservedWord
  /-- Not one of the 14 command frames of R108. -/
  | notAFrame
  /-- Not the data token awaited or sent at this place (R92). -/
  | notAToken
  /-- Not an accepted data response (R93). -/
  | notAccepted
  /-- Bit 7 is set: not a response (R85). -/
  | notAResponse
deriving DecidableEq, Repr

/-! ## Byte order of the call record (log 2) -/

/-- Four bytes, least significant first. -/
def leWord (b0 b1 b2 b3 : Byte) : Word := b3 ++ b2 ++ b1 ++ b0

/-- Eight bytes, least significant first. -/
def leWide (b0 b1 b2 b3 b4 b5 b6 b7 : Byte) : Wide := leWord b4 b5 b6 b7 ++ leWord b0 b1 b2 b3

/-- The bytes of a `u16`, least significant first (R66). -/
def leBytes2 (v : Half) : List Byte := [v.extractLsb' 0 8, v.extractLsb' 8 8]

/-- The bytes of a `u32`, least significant first (R66). -/
def leBytes4 (v : Word) : List Byte :=
  [v.extractLsb' 0 8, v.extractLsb' 8 8, v.extractLsb' 16 8, v.extractLsb' 24 8]

/-- The bytes of a host address or length, least significant first. -/
def leBytes8 (v : Wide) : List Byte := leBytes4 (v.extractLsb' 0 32) ++ leBytes4 (v.extractLsb' 32 32)

/-- The bytes of a `u32`, most significant first: the order of a command argument on the wire (R64). -/
def beBytes4 (v : Word) : List Byte :=
  [v.extractLsb' 24 8, v.extractLsb' 16 8, v.extractLsb' 8 8, v.extractLsb' 0 8]

/-- Four bytes, most significant first (R64). -/
def beWord (b3 b2 b1 b0 : Byte) : Word := b3 ++ b2 ++ b1 ++ b0

def takeWord : List Byte → Option (Word × List Byte)
  | b0 :: b1 :: b2 :: b3 :: rest => some (leWord b0 b1 b2 b3, rest)
  | _ => none

def takeWide : List Byte → Option (Wide × List Byte)
  | b0 :: b1 :: b2 :: b3 :: b4 :: b5 :: b6 :: b7 :: rest => some (leWide b0 b1 b2 b3 b4 b5 b6 b7, rest)
  | _ => none

def takeBuf (bs : List Byte) : Option (Buf × List Byte) :=
  match takeWide bs with
  | none => none
  | some (base, bs1) =>
    match takeWide bs1 with
    | none => none
    | some (len, rest) => some (⟨base, len⟩, rest)

/-! ## Command frames -/

/-- The CRC byte is a function of the command index alone (R84, R143). -/
def crcByte (idx : BitVec 6) : Byte :=
  if idx = 0#6 then 0x95#8 else if idx = 8#6 then 0x87#8 else 0x01#8

/-- The six bytes of a command frame in the order sent (R81): `0x40 | index`, the argument most significant byte first,
the CRC byte. -/
def frameBytes (idx : BitVec 6) (arg : Word) : List Byte :=
  (0x40#8 ||| idx.setWidth 8) :: (beBytes4 arg ++ [crcByte idx])

/-- ACMD41's argument with HCS set: bit 30 (R83, D14). -/
def hcsArg : Word := 0x40000000#32

/-- CMD8's voltage and check pattern (R7 `CMD8_ARG`). -/
def cmd8Arg : Word := 0x000001AA#32

/-- CMD16's argument: the block length 512 (R83, D14). -/
def cmd16Arg : Word := 0x00000200#32

/-- A frame whose argument the spec fixes. -/
def fixedArg (arg want : Word) (i : Instr) : Except Reject Instr :=
  if arg = want then .ok i else .error .notAFrame

/-- The catalogue of R108: which instruction an index and an argument spell. -/
def decodeIndex (idx : BitVec 6) (arg : Word) : Except Reject Instr :=
  match idx.toNat with
  | 0 => fixedArg arg 0 .cmd0
  | 1 => fixedArg arg 0 .cmd1
  | 8 => fixedArg arg cmd8Arg .cmd8
  | 9 => fixedArg arg 0 .cmd9
  | 12 => fixedArg arg 0 .cmd12
  | 16 => fixedArg arg cmd16Arg .cmd16
  | 17 => .ok (.cmd17 arg)
  | 18 => .ok (.cmd18 arg)
  | 23 => .ok (.acmd23 arg)
  | 24 => .ok (.cmd24 arg)
  | 25 => .ok (.cmd25 arg)
  | 41 => if arg = hcsArg then .ok (.acmd41 true) else fixedArg arg 0 (.acmd41 false)
  | 55 => fixedArg arg 0 .cmd55
  | 58 => fixedArg arg 0 .cmd58
  | _ => .error .notAFrame

/-- A frame is 0b01, the index, the argument and the CRC byte of that index (R81, R82, R84). -/
def decodeFrame : List Byte → Except Reject (Instr × List Byte)
  | b0 :: a3 :: a2 :: a1 :: a0 :: crc :: rest =>
    let idx : BitVec 6 := b0.extractLsb' 0 6
    if b0.extractLsb' 6 2 = 0b01#2 ∧ crc = crcByte idx then
      match decodeIndex idx (beWord a3 a2 a1 a0) with
      | .ok i => .ok (i, rest)
      | .error r => .error r
    else .error .notAFrame
  | _ => .error .tooShort

/-! ## Host operation words -/

/-- The arguments of INIT and STATUS: `drive` (R95). -/
def decodeDrive (mk : Byte → Instr) : List Byte → Except Reject (Instr × List Byte)
  | d :: rest => .ok (mk d, rest)
  | [] => .error .tooShort

/-- The arguments of an ioctl: `drive`, `buf` (R95). -/
def decodeDriveBuf (mk : Byte → Buf → Instr) : List Byte → Except Reject (Instr × List Byte)
  | d :: bs =>
    match takeBuf bs with
    | some (buf, rest) => .ok (mk d buf, rest)
    | none => .error .tooShort
  | [] => .error .tooShort

/-- The arguments of READ and WRITE: `drive`, `buf`, `sector`, `count` (R95). -/
def decodeTransfer (mk : Byte → Buf → Word → Word → Instr) : List Byte → Except Reject (Instr × List Byte)
  | d :: bs =>
    match takeBuf bs with
    | none => .error .tooShort
    | some (buf, bs1) =>
      match takeWord bs1 with
      | none => .error .tooShort
      | some (sector, bs2) =>
        match takeWord bs2 with
        | none => .error .tooShort
        | some (count, rest) => .ok (mk d buf sector count, rest)
  | [] => .error .tooShort

/-- The ioctl command field of R95. -/
def decodeIoctl (cmd : Byte) : List Byte → Except Reject (Instr × List Byte) :=
  if cmd = 0#8 then decodeDriveBuf .ioctlSync
  else if cmd = 1#8 then decodeDriveBuf .ioctlGetSectorCount
  else if cmd = 2#8 then decodeDriveBuf .ioctlGetSectorSize
  else decodeDriveBuf (.ioctlOther cmd)

/-- The host operation word (R95: `op` 3:0, reserved 7:4, `ioctlCmd` 15:8), its low byte first (log 2), then the call's
arguments. Reserved words are those of R104. -/
def decodeHost : List Byte → Except Reject (Instr × List Byte)
  | lo :: hi :: args =>
    if lo.extractLsb' 4 4 ≠ 0#4 then .error .reservedWord
    else
      match (lo.extractLsb' 0 4).toNat with
      | 0 => if hi = 0#8 then decodeDrive .init args else .error .reservedWord
      | 1 => if hi = 0#8 then decodeDrive .status args else .error .reservedWord
      | 2 => if hi = 0#8 then decodeTransfer .read args else .error .reservedWord
      | 3 => if hi = 0#8 then decodeTransfer .write args else .error .reservedWord
      | 4 => decodeIoctl hi args
      | _ => .error .reservedWord
  | _ => .error .tooShort

/-! ## Bytes on the wire -/

/-- The start-block token 0xFE (R92). -/
def startBlockToken : Byte := 0xFE#8
/-- The multi-block write token 0xFC (R92). -/
def startMultiToken : Byte := 0xFC#8
/-- The stop-transmission token 0xFD (R92). -/
def stopToken : Byte := 0xFD#8

/-- The token before a received block (R90). -/
def decodeDataIn : List Byte → Except Reject (Instr × List Byte)
  | t :: rest => if t = startBlockToken then .ok (.tokenStartBlock, rest) else .error .notAToken
  | [] => .error .tooShort

/-- The token before a sent block: 0xFE for CMD24, 0xFC for CMD25 (R91). -/
def decodeDataOut : List Byte → Except Reject (Instr × List Byte)
  | t :: rest =>
    if t = startBlockToken then .ok (.tokenStartBlock, rest)
    else if t = startMultiToken then .ok (.tokenStartMultiWrite, rest)
    else .error .notAToken
  | [] => .error .tooShort

/-- The stop token (R92). -/
def decodeStop : List Byte → Except Reject (Instr × List Byte)
  | t :: rest => if t = stopToken then .ok (.tokenStopTran, rest) else .error .notAToken
  | [] => .error .tooShort

/-- An accepted data response: low five bits 0b00101, bits 7:5 ignored (R93). -/
def decodeDataResp : List Byte → Except Reject (Instr × List Byte)
  | r :: rest =>
    if r.extractLsb' 0 5 = 0b00101#5 then .ok (.dataRespAccepted (r.extractLsb' 5 3), rest) else .error .notAccepted
  | [] => .error .tooShort

/-- A byte is a response when bit 7 is clear (R85). -/
def decodeR1 : List Byte → Except Reject (Instr × List Byte)
  | r :: rest => if r.extractLsb' 7 1 = 0#1 then .ok (.r1Valid (r.extractLsb' 0 7), rest) else .error .notAResponse
  | [] => .error .tooShort

/-- The decoder: bytes of a format to an instruction and the bytes after it, or a named rejection. -/
def decode : Format → List Byte → Except Reject (Instr × List Byte)
  | .hostOp => decodeHost
  | .cmdFrame => decodeFrame
  | .r1 => decodeR1
  | .dataIn => decodeDataIn
  | .dataOut => decodeDataOut
  | .stopToken => decodeStop
  | .dataResp => decodeDataResp

/-! ## The encoder -/

/-- A host operation word (R95), low byte first (log 2). -/
def hostWord (op : BitVec 4) (cmd : Byte) : List Byte := [0#4 ++ op, cmd]

/-- The bytes of a buffer descriptor (log 2). -/
def bufBytes (b : Buf) : List Byte := leBytes8 b.base ++ leBytes8 b.len

/-- The bytes of an instruction, from the same tables (R81, R84, R92, R93, R95, R108). -/
def encode : Instr → List Byte
  | .init d => hostWord 0 0 ++ [d]
  | .status d => hostWord 1 0 ++ [d]
  | .read d b sec cnt => hostWord 2 0 ++ (d :: (bufBytes b ++ (leBytes4 sec ++ leBytes4 cnt)))
  | .write d b sec cnt => hostWord 3 0 ++ (d :: (bufBytes b ++ (leBytes4 sec ++ leBytes4 cnt)))
  | .ioctlSync d b => hostWord 4 0 ++ (d :: bufBytes b)
  | .ioctlGetSectorCount d b => hostWord 4 1 ++ (d :: bufBytes b)
  | .ioctlGetSectorSize d b => hostWord 4 2 ++ (d :: bufBytes b)
  | .ioctlOther k d b => hostWord 4 k ++ (d :: bufBytes b)
  | .cmd0 => frameBytes 0 0
  | .cmd1 => frameBytes 1 0
  | .cmd8 => frameBytes 8 cmd8Arg
  | .cmd9 => frameBytes 9 0
  | .cmd12 => frameBytes 12 0
  | .cmd16 => frameBytes 16 cmd16Arg
  | .cmd17 a => frameBytes 17 a
  | .cmd18 a => frameBytes 18 a
  | .cmd24 a => frameBytes 24 a
  | .cmd25 a => frameBytes 25 a
  | .cmd55 => frameBytes 55 0
  | .cmd58 => frameBytes 58 0
  | .acmd23 c => frameBytes 23 c
  | .acmd41 hcs => frameBytes 41 (if hcs then hcsArg else 0)
  | .tokenStartBlock => [startBlockToken]
  | .tokenStartMultiWrite => [startMultiToken]
  | .tokenStopTran => [stopToken]
  | .dataRespAccepted ign => [ign ++ 0b00101#5]
  | .r1Valid flags => [0#1 ++ flags]

/-! ## The table's numbering of words -/

/-- The bytes of an instruction whose table word is `w`, as they reach the decoder: a 16-bit host word low byte first and
then zero arguments, up to the longest call (log 2, log 17); a 48-bit frame most significant byte first, as R81 and the table number it
(bits 47:40 are byte 0; log 13); a byte on the wire as itself. -/
def tableBytes (nbits w : Nat) : List Byte :=
  if nbits = 16 then leBytes2 (BitVec.ofNat 16 w) ++ List.replicate 25 0#8
  else if nbits = 48 then
    [BitVec.ofNat 8 (w / 2 ^ 40), BitVec.ofNat 8 (w / 2 ^ 32), BitVec.ofNat 8 (w / 2 ^ 24),
     BitVec.ofNat 8 (w / 2 ^ 16), BitVec.ofNat 8 (w / 2 ^ 8), BitVec.ofNat 8 w]
  else [BitVec.ofNat 8 w]

/-- The instruction a decoding holds, without the bytes after it. -/
def decoded (f : Format) (bs : List Byte) : Option Instr :=
  match decode f bs with
  | .ok (i, _) => some i
  | .error _ => none

/-- The first format, in the order given, in which the bytes spell an instruction. -/
def firstDecoded (bs : List Byte) : List Format → Option Instr
  | [] => none
  | f :: fs =>
    match decoded f bs with
    | some i => some i
    | none => firstDecoded bs fs

/-- The instruction the decoder reads from a table word. An 8-bit word has no context to fix its format (R105), so the
formats are tried with the tokens and the data response before R1 (log 13). -/
def decodeTableWord (nbits w : Nat) : Option Instr :=
  if nbits = 16 then decoded .hostOp (tableBytes nbits w)
  else if nbits = 48 then decoded .cmdFrame (tableBytes nbits w)
  else if nbits = 8 then firstDecoded (tableBytes nbits w) [.dataIn, .dataOut, .stopToken, .dataResp, .r1]
  else none

end Sys2Proof
end

