-- ==== Sys2Proof/Config.lean ====
section
/-! DEFINITION. The parameters of 00_scope.md R7 and R8 that no step changes, and the free values of the environment
(R43): opaque constants, so that nothing can be proved about the values they take. -/

namespace Sys2Proof

/-- `TOKEN_WAIT_MODE` (R8, R215): which bytes count as "still waiting" before a data-start token. -/
inductive TokenWaitMode where
  /-- Every byte other than 0xFE is waited out (the default). -/
  | notFe
  /-- Only 0xFF is waited out. -/
  | ffOnly
deriving DecidableEq, Repr

namespace Config

/-- `BLOCK_SIZE` (R7). -/
def blockSize : Nat := 512
/-- `CSD_SIZE` (R7). -/
def csdSize : Nat := 16
/-- `OCR_BYTES` (R7). -/
def ocrBytes : Nat := 4
/-- `RESP_POLLS` (R7, R146). -/
def respPolls : Nat := 10
/-- `POWERUP_BYTES` (R7, R128; fixed at exactly 10 by D10). -/
def powerUpBytes : Nat := 10
/-- `T_READY_MS` (R7, R127). -/
def readyMs : Nat := 500
/-- `T_TOKEN_MS` (R7, R215). -/
def tokenMs : Nat := 200
/-- `T_INIT_MS` (R7, R184). -/
def initMs : Nat := 1000

/-- `SLOW_CLOCK_HZ` (R8, OPEN, D31): a positive number that no rule reads. -/
opaque slowClockHz : PNat
/-- `FAST_CLOCK_HZ` (R8, OPEN, D31): a positive number that no rule reads. -/
opaque fastClockHz : PNat
/-- `TICK_MS` (R8, OPEN, D30): the tick source's resolution, which no rule reads. -/
opaque tickMs : PNat

/-- The byte the card returns on the `k`-th exchange drawn freely (R120: an unconstrained draw; log 5). -/
opaque rxByte : Nat → Byte
/-- How many queries answer `false` after the `k`-th deadline start drawn freely (R124; log 6). -/
opaque expiryBudget : Nat → Nat
/-- How far the monotonic tick source (R43) has moved at its `k`-th reading (R123; log 7). -/
opaque tickAdvance : Nat → Nat

end Config
end Sys2Proof
end

