-- ==== Sys2Proof/Machine/State.lean ====
section
/-! DEFINITION. The state of the block (10_state.md), plain data: driver state, interface outputs, sequencer, deadlines, working
registers, the host's memory, and the environment's inputs. Configuration constants stand in Config. -/

namespace Sys2Proof.Machine

/-- The card-select line (R35). -/
inductive Cs where
  | deasserted
  | asserted
deriving DecidableEq, Repr

/-- The bus clock speed (R36). -/
inductive Clk where
  | slow
  | fast
deriving DecidableEq, Repr

/-- The two deadline timers of R39: `T_OP` and `T_RDY`. -/
inductive TimerId where
  | op
  | rdy
deriving DecidableEq, Repr

/-- A started deadline: the source's `(startTick, durationMs)` pair (R39), and how many queries will still answer `false`:
the draw of R124, made at the start (log 6). -/
structure Deadline where
  startTick : Nat
  durationMs : Nat
  falseLeft : Nat
deriving DecidableEq, Repr

/-- A transport event (R24). `cs .asserted` is `CS(low)`, `cs .deasserted` is `CS(high)`. -/
inductive Event where
  | cs (level : Cs)
  | x (tx rx : Byte)
  | clk (speed : Clk)
  | tstart (t : TimerId) (ms : Nat)
  | exp (t : TimerId) (answer : Bool)
deriving DecidableEq, Repr

/-- The environment's inputs (R43): scripts of draws, each with the counter of the free values used once its script is
used up (log 5, 6), and the tick source's last reading (log 7). -/
structure Env where
  /-- Bytes the card will return, the next one first. -/
  rxIn : List Byte
  /-- How many received bytes were free values. -/
  rxDrawn : Nat
  /-- The expiry draws of the next deadline starts, the next one first. -/
  expIn : List Nat
  /-- How many expiry draws were free values. -/
  expDrawn : Nat
  /-- The tick source's last reading. -/
  tick : Nat
  /-- How many times the tick source was read. -/
  ticksRead : Nat
deriving DecidableEq, Repr

/-- The bus transport and the deadline timers (40_transport.md): what the transport procedures read and write. -/
structure Bus where
  /-- `cs` (R35). -/
  cs : Cs
  /-- `clk` (R36). -/
  clk : Clk
  /-- `T_OP` (R39); `none` is "unstarted". -/
  tOp : Option Deadline
  /-- `T_RDY` (R39); `none` is "unstarted". -/
  tRdy : Option Deadline
  /-- The events of the operation in progress or last run, the newest first (R24; log 15). -/
  log : List Event
  env : Env
deriving DecidableEq, Repr

/-- The trace (R24): the transport events in the order they happened. -/
def Bus.trace (b : Bus) : List Event := b.log.reverse

/-- `cmdSel` (R37, R189). -/
inductive CmdSel where
  | acmd41
  | cmd1
deriving DecidableEq, Repr

/-- The working registers of R37. `none` is the spec's own "holds no value". -/
structure Work where
  res : Option Byte
  ty : Option Byte
  /-- `ocr[0..3]` in arrival order (R44). -/
  ocr : Option (List Byte)
  /-- `csd[0..15]` in arrival order (R44). -/
  csd : Option (List Byte)
  cnt : Option Word
  addr : Option Word
  /-- An offset into the host buffer. -/
  ptr : Option Nat
  tok : Option Byte
  n : Option Nat
  cmdSel : Option CmdSel
deriving DecidableEq, Repr

/-- No working register holds a value (R37, R45). -/
def Work.empty : Work := ⟨none, none, none, none, none, none, none, none, none, none⟩

/-- The places of the pseudocode that call `sendCommand`, each named after its operation and command (R38, R108). -/
inductive Site where
  | initCmd0
  | initCmd8
  /-- ACMD41 with HCS, in the version-2 loop (R187). -/
  | initAcmd41
  | initCmd58
  /-- ACMD41 with argument 0, the legacy probe (R189). -/
  | initProbe
  /-- The command `cmdSel` chooses, in the legacy loop (R190). -/
  | initLoop
  | initCmd16
  | readCmd17
  | readCmd18
  | readCmd12
  | writeCmd24
  | writeAcmd23
  | writeCmd25
  | countCmd9
deriving DecidableEq, Repr

/-- Who receives a data block (R215): a single read, a multi-block read, or the CSD of GetSectorCount. -/
inductive RecvUse where
  | single
  | multi
  | csd
deriving DecidableEq, Repr

/-- Who sends a data block (R218): a single or a multi-block write. -/
inductive XmitUse where
  | single
  | multi
deriving DecidableEq, Repr

/-- The two negotiation loops of INIT (R187, R190). -/
inductive LoopKind where
  | v2
  | legacy
deriving DecidableEq, Repr

/-- The sequencer's step labels (R38; the names are the model's, log 1). -/
inductive Seq where
  /-- No operation in progress. -/
  | idle
  /-- The CMD55 exchange before an application command is next (R141). -/
  | escape (site : Site)
  /-- The frame of the site's own command is next (R142, R144). -/
  | frame (site : Site)
  /-- The response poll (R146), after the site's own frame, or after its CMD55 when `escaping`. -/
  | poll (site : Site) (escaping : Bool)
  /-- The expiry query at the head of a negotiation loop (R187, R190). -/
  | loopHead (kind : LoopKind)
  /-- Waiting for the data-start token (R215). -/
  | token (use : RecvUse)
  /-- A data packet is next (R218). -/
  | xmit (use : XmitUse)
  /-- The data-response exchange (R219). -/
  | dataResp (use : XmitUse)
  /-- The stop token is next (R222). -/
  | stop
  /-- INIT's finalisation (R192). -/
  | initEnd
  /-- The common end of READ and WRITE (R223). -/
  | ioEnd
  /-- The end of GetSectorCount, with whether its result is `Ok` (R243, R248). -/
  | countEnd (ok : Bool)
deriving DecidableEq, Repr

/-- What the host may do (R43, R70), in the order it does it. -/
inductive HostEvent where
  /-- A call, made once no other is in progress: the bytes of its operation word and arguments (R95, log 2). -/
  | call (bytes : List Byte)
  /-- A call made from a second thread or an interrupt handler, which does not wait: behind a call it is made
  while that call's operation is in progress, and is refused (R70, R267; log 11). -/
  | callNow (bytes : List Byte)
  /-- The environment action of R31. -/
  | socketUpdate (noDisk writeProtected : Bool)
  /-- The host writes its own memory between operations: it owns the buffers (R43, log 18). -/
  | store (address : Nat) (bytes : List Byte)
deriving DecidableEq, Repr

/-- The host's memory: address and byte pairs in the canonical form of `Memory.wf` (Ops.lean). -/
abbrev Memory := List Host.Cell

/-- The machine. -/
structure State where
  /-- `status` (R30, R31). -/
  status : Byte
  /-- `cardType` (R32, R33). -/
  cardType : Byte
  /-- The sequencer (R38). -/
  seq : Seq
  /-- The working registers (R37). -/
  work : Work
  /-- The buffer operand of the operation in progress (R95); `none` when it has none. -/
  buf : Option Buf
  /-- The value the last operation returned (R6); `none` while one is in progress (log 15). -/
  result : Option Byte
  /-- The host's memory, where the buffers lie (R60). -/
  mem : Memory
  /-- `cs`, `clk`, the deadlines, the trace and the environment's draws. -/
  bus : Bus
  /-- What the host will do next, in order (R43). -/
  host : List HostEvent
  /-- `TOKEN_WAIT_MODE` (R8), a parameter: no step writes it (log 8). -/
  tokenWaitMode : TokenWaitMode
deriving DecidableEq, Repr

/-- The machine stops. The block itself has no fault mechanism (R260). -/
inductive Fault where
  /-- A host-buffer access outside the buffer passed to the operation: the spec gives it no step and calls the operation
  stuck (R61, D32, U2). Raised by the receive and transmit of a block and by the two ioctl results. Safe: nothing is proved
  of such a run (log 10). -/
  | hostBufferOverrun
deriving DecidableEq, Repr

/-- The model gives no meaning. -/
inductive Refusal where
  /-- Raised by `exec` for an instruction that has no meaning yet. Safe. -/
  | notModelled (mnemonic : String)
  /-- A host operation word that spells no operation (R104, U1). Raised by `step`. Safe. -/
  | reservedWord
  /-- A call record shorter than its operation's arguments (log 2). Raised by `step`. Safe. -/
  | incompleteCall
  /-- A host operation invoked while another is in progress (R70, D33, U3). Raised by every host operation and by `step`. Safe. -/
  | overlappingCall
  /-- A frame, token or response at a sequencer step that neither sends nor awaits it (R102, R105; log 12). Raised by the
  meanings of the wire rows; no step from a reachable state raises it. Safe. -/
  | outOfStep
deriving DecidableEq, Repr

/-- The environment before anything is drawn (log 19). -/
def Env.initial : Env := ⟨[], 0, [], 0, 0, 0⟩

/-- The bus at reset (R45). -/
def Bus.reset : Bus := ⟨.deasserted, .slow, none, none, [], Env.initial⟩

/-- The reset state: R45's table, TOKEN_WAIT_MODE at its default (R8), memory with nothing listed, no host event. -/
def State.reset : State :=
  ⟨0x01#8, 0x00#8, .idle, Work.empty, none, none, [], Bus.reset, [], .notFe⟩

/-- The transport trace of the operation in progress or last run (R24). -/
def State.trace (s : State) : List Event := s.bus.trace

end Sys2Proof.Machine
end

