-- ==== Sys2Proof/Machine/Flags.lean ====
section
/-! DEFINITION. The bits of `status` and `cardType` (10_state.md R31, R32, R41), the comparisons the block makes on received
bytes (R85, R88, R89, R93), the result codes (R96), and the CRC-7 that grounds the CRC constants (R148). -/

namespace Sys2Proof.Machine

/-! ## `status` (R31) -/

def notInitializedBit : Byte := 0x01#8
def noDiskBit : Byte := 0x02#8
def writeProtectedBit : Byte := 0x04#8

/-- `status.NotInitialized` (R31). -/
def isNotInitialized (status : Byte) : Bool := decide (status &&& notInitializedBit ≠ 0#8)

/-- `status.WriteProtected` (R31). -/
def isWriteProtected (status : Byte) : Bool := decide (status &&& writeProtectedBit ≠ 0#8)

/-- `status.NoDisk` (R31): reported, read by no rule. -/
def isNoDisk (status : Byte) : Bool := decide (status &&& noDiskBit ≠ 0#8)

/-- `status | 0x01` (R192). -/
def setNotInitialized (status : Byte) : Byte := status ||| notInitializedBit

/-- `status & ~0x01` (R192). -/
def clearNotInitialized (status : Byte) : Byte := status &&& ~~~notInitializedBit

/-- A bit as a mask when it is set. -/
def maskIf (b : Bool) (mask : Byte) : Byte := if b then mask else 0#8

/-- SocketUpdate writes bits 1 and 2 and leaves the others (R31). -/
def socketStatus (status : Byte) (noDisk writeProtected : Bool) : Byte :=
  (status &&& ~~~(noDiskBit ||| writeProtectedBit)) ||| maskIf noDisk noDiskBit ||| maskIf writeProtected writeProtectedBit

/-! ## `cardType` (R32) -/

def ctMmc : Byte := 0x01#8
def ctSd1 : Byte := 0x02#8
def ctSd2 : Byte := 0x04#8
def ctBlock : Byte := 0x08#8

/-- `cardType.BLOCK`: block-addressed (R32, R212). -/
def isBlockAddressed (cardType : Byte) : Bool := decide (cardType &&& ctBlock ≠ 0#8)

/-- `cardType & (SD1 | SD2) != 0` (R221). -/
def isSd (cardType : Byte) : Bool := decide (cardType &&& (ctSd1 ||| ctSd2) ≠ 0#8)

/-! ## Received bytes -/

/-- The comparison of R182: exactly 1. -/
def isIdleResponse (r : Byte) : Bool := decide (r = 0x01#8)

/-- The comparison `<= 1` of R85. -/
def idleOrReady (r : Byte) : Bool := decide (r ≤ 0x01#8)

/-- The comparison `== 0` of R85. -/
def isReady (r : Byte) : Bool := decide (r = 0x00#8)

/-- What a response poll or a failed select answers when nothing came (R142). -/
def noResponse : Byte := 0xFF#8

/-- The echo check of R88, R186: voltage byte 0x01, check pattern 0xAA. -/
def echoValid (ocr : List Byte) : Bool := decide (ocr[2]? = some 0x01#8 ∧ ocr[3]? = some 0xAA#8)

/-- The capacity bit: OCR bit 30, mask 0x40 on `ocr[0]` (R89, C6). -/
def ocrBlock (ocr : List Byte) : Bool := decide (ocr.headD 0#8 &&& 0x40#8 ≠ 0#8)

/-- The card type CMD58's OCR establishes (R188). -/
def sd2Type (ocr : List Byte) : Byte := if ocrBlock ocr then ctSd2 ||| ctBlock else ctSd2

/-- A byte that ends the token wait with failure at once: only under `FF_ONLY`, and not 0xFF (R215). -/
def endsTokenWait (mode : TokenWaitMode) (tok : Byte) : Bool :=
  decide (mode = .ffOnly ∧ tok ≠ 0xFF#8)

/-! ## Result codes (R96) -/

def resOk : Byte := 0#8
def resGenericError : Byte := 1#8
def resWriteProtected : Byte := 2#8
def resNotReady : Byte := 3#8
def resParamError : Byte := 4#8

/-- `Ok` when the operation succeeded, else `GenericError` (R223, R242, R243). -/
def okOrGeneric (ok : Bool) : Byte := if ok then resOk else resGenericError

/-! ## CRC-7, informative (R148): no rule of the block computes it -/

/-- One bit of the CRC-7 of R148. -/
def crc7Bit (c : BitVec 7) (bit : Bool) : BitVec 7 :=
  let shifted := c <<< 1
  if Bool.xor (c.getLsbD 6) bit then shifted ^^^ 0b0001001#7 else shifted

/-- The eight bits of a byte, most significant first (R148). -/
def bitsMsbFirst (b : Byte) : List Bool :=
  [b.getLsbD 7, b.getLsbD 6, b.getLsbD 5, b.getLsbD 4, b.getLsbD 3, b.getLsbD 2, b.getLsbD 1, b.getLsbD 0]

/-- CRC-7 from an initial value of 0 (R148). -/
def crc7 (bytes : List Byte) : BitVec 7 := (bytes.flatMap bitsMsbFirst).foldl crc7Bit 0

/-- The CRC byte a CRC-7 gives: `(crc7 << 1) | 1` (R148). -/
def crc7Byte (bytes : List Byte) : Byte := crc7 bytes ++ 1#1

end Sys2Proof.Machine
end

