-- ==== Sys2Proof/Machine/Operands.lean ====
section
/-! DEFINITION. Operand forms: the command argument of a sector (R212), the host buffer of a call (R60-R62), the command each
site sends (R108), and the capacity registers (R99-R101, R244, R245). -/

namespace Sys2Proof.Machine

/-- Address conversion (R212): the sector itself on a block-addressed card, else `sector * 512` modulo 2^32. -/
def convert (cardType : Byte) (sector : Word) : Word :=
  if isBlockAddressed cardType then sector else sector * 512#32

/-- An access of `n` bytes at offset `off` lies inside the buffer (R61). -/
def inBuffer (b : Buf) (off n : Nat) : Bool := decide (off + n ≤ b.len.toNat)

/-- Where byte `off` of a buffer lies in the host's memory (R60; log 3). -/
def bufAddr (b : Buf) (off : Nat) : Nat := b.base.toNat + off

/-! ## Reading a working register

R12: no rule reads a working register before the operation has written it. The values below for a register that holds
none are therefore never used in a reachable state (log 14). -/

/-- `ty`. -/
def Work.tyVal (w : Work) : Byte := w.ty.getD 0#8
/-- `cnt`. -/
def Work.cntVal (w : Work) : Word := w.cnt.getD 0#32
/-- `addr`. -/
def Work.addrVal (w : Work) : Word := w.addr.getD 0#32
/-- `ptr`. -/
def Work.ptrVal (w : Work) : Nat := w.ptr.getD 0
/-- `n`. -/
def Work.nVal (w : Work) : Nat := w.n.getD 0
/-- `cmdSel`. -/
def Work.cmdSelVal (w : Work) : CmdSel := w.cmdSel.getD .cmd1

/-- The buffer of the operation in progress. -/
def bufOf (s : State) : Buf := s.buf.getD ⟨0#64, 0#64⟩

/-! ## The command of a site (R83, R108) -/

/-- Whether a site's command is an application command, sent after CMD55 (R105, R141). -/
def siteIsApp (site : Site) (sel : CmdSel) : Bool :=
  match site with
  | .initAcmd41 | .initProbe | .writeAcmd23 => true
  | .initLoop => decide (sel = .acmd41)
  | .initCmd0 | .initCmd8 | .initCmd58 | .initCmd16 | .readCmd17 | .readCmd18 | .readCmd12 | .writeCmd24 | .writeCmd25
  | .countCmd9 => false

/-- The command a site sends, with the argument R83 gives it. -/
def siteInstr (site : Site) (w : Work) : Instr :=
  match site with
  | .initCmd0 => .cmd0
  | .initCmd8 => .cmd8
  | .initAcmd41 => .acmd41 true
  | .initCmd58 => .cmd58
  | .initProbe => .acmd41 false
  | .initLoop =>
    match w.cmdSelVal with
    | .acmd41 => .acmd41 false
    | .cmd1 => .cmd1
  | .initCmd16 => .cmd16
  | .readCmd17 => .cmd17 w.addrVal
  | .readCmd18 => .cmd18 w.addrVal
  | .readCmd12 => .cmd12
  | .writeCmd24 => .cmd24 w.addrVal
  | .writeAcmd23 => .acmd23 w.cntVal
  | .writeCmd25 => .cmd25 w.addrVal
  | .countCmd9 => .cmd9

/-- Where the sequencer goes to send a site's command: first to the CMD55 exchange for an application command (R141). -/
def callSite (site : Site) (w : Work) : Seq :=
  if siteIsApp site w.cmdSelVal then .escape site else .frame site

/-- The token a write announces a block with (R218). -/
def xmitInstr : XmitUse → Instr
  | .single => .tokenStartBlock
  | .multi => .tokenStartMultiWrite

/-! ## Capacity registers -/

/-- Byte `i` of the CSD (R65). -/
def csdByte (csd : List Byte) (i : Nat) : Byte := csd.getD i 0#8

/-- `csd[0][7:6] == 0b01` selects the version-2 layout (R99). -/
def csdIsV2 (csd : List Byte) : Bool := decide ((csdByte csd 0).extractLsb' 6 2 = 0b01#2)

/-- Version-2 `C_SIZE2`: `csd[7][5:0] || csd[8] || csd[9]` (R100). -/
def csdSizeV2 (csd : List Byte) : BitVec 22 := (csdByte csd 7).extractLsb' 0 6 ++ csdByte csd 8 ++ csdByte csd 9

/-- Legacy `READ_BL_LEN`: `csd[5][3:0]` (R101). -/
def csdReadBlLen (csd : List Byte) : BitVec 4 := (csdByte csd 5).extractLsb' 0 4

/-- Legacy `C_SIZE`: `csd[6][1:0] || csd[7] || csd[8][7:6]` (R101). -/
def csdSizeLegacy (csd : List Byte) : BitVec 12 :=
  (csdByte csd 6).extractLsb' 0 2 ++ csdByte csd 7 ++ (csdByte csd 8).extractLsb' 6 2

/-- Legacy `C_SIZE_MULT`: `csd[9][1:0] || csd[10][7]` (R101). -/
def csdSizeMult (csd : List Byte) : BitVec 3 := (csdByte csd 9).extractLsb' 0 2 ++ (csdByte csd 10).extractLsb' 7 1

/-- The legacy exponent `READ_BL_LEN + C_SIZE_MULT + 2` (R245). -/
def csdExponent (csd : List Byte) : Nat := (csdReadBlLen csd).toNat + (csdSizeMult csd).toNat + 2

/-- `parseCsd` (R244, R245): the sector count, or `none` for FAIL. -/
def parseCsd (csd : List Byte) : Option Word :=
  if csdIsV2 csd then
    some (BitVec.ofNat 32 (((csdSizeV2 csd).toNat + 1) * 2 ^ 10))
  else if csdExponent csd < 9 then none
  else some (BitVec.ofNat 32 (((csdSizeLegacy csd).toNat + 1) * 2 ^ (csdExponent csd - 9)))

end Sys2Proof.Machine
end

