-- ==== Sys2Proof/Machine/Ops.lean ====
section
/-! DEFINITION. The named operations: the host's memory (R61), the transport primitives and composite procedures (R120-R128), the
command framer's exchanges (R140-R147), and the return of an operation (R268). -/

namespace Sys2Proof.Machine

/-! ## Host memory -/

/-- What a byte of host memory that nothing has written reads as (log 4). -/
def Memory.unlisted : Byte := 0#8

/-- One byte of the host's memory. -/
def Memory.read : Memory → Nat → Byte
  | [], _ => Memory.unlisted
  | (k, v) :: m, a => if k = a then v else Memory.read m a

/-- The memory without an address. -/
def Memory.without (m : Memory) (a : Nat) : Memory := m.filter fun c => decide (c.1 ≠ a)

/-- List a byte at an address, before the first higher address. -/
def Memory.place : Memory → Nat → Byte → Memory
  | [], a, b => [(a, b)]
  | (k, v) :: m, a, b => if a < k then (a, b) :: (k, v) :: m else (k, v) :: Memory.place m a b

/-- Write one byte, keeping addresses rising and listing nothing that reads as unlisted. -/
def Memory.write (m : Memory) (a : Nat) (b : Byte) : Memory :=
  if b = Memory.unlisted then Memory.without m a else Memory.place (Memory.without m a) a b

/-- Write consecutive bytes from an address on. -/
def Memory.writeBytes : Memory → Nat → List Byte → Memory
  | m, _, [] => m
  | m, a, b :: bs => Memory.writeBytes (Memory.write m a b) (a + 1) bs

/-- Read consecutive bytes from an address on. -/
def Memory.readBytes (m : Memory) (a : Nat) : Nat → List Byte
  | 0 => []
  | n + 1 => Memory.read m a :: Memory.readBytes m (a + 1) n

/-- The canonical form: addresses strictly rising, nothing listed that an unlisted address reads as. -/
def Memory.wf : Memory → Bool
  | [] => true
  | (k, v) :: m => decide (v ≠ Memory.unlisted) && m.all (fun c => decide (k < c.1)) && Memory.wf m

/-! ## Transport primitives (R120-R124) -/

/-- `FILL` (R94). -/
def fill : Byte := 0xFF#8

/-- Append an event to the trace (R24). -/
def emit (e : Event) (b : Bus) : Bus := { b with log := e :: b.log }

/-- The environment's next received byte: the script's, or a free value once the script is used up (R120; log 5). -/
def drawByte (v : Env) : Byte × Env :=
  match v.rxIn with
  | r :: rest => (r, { v with rxIn := rest })
  | [] => (Config.rxByte v.rxDrawn, { v with rxDrawn := v.rxDrawn + 1 })

/-- The environment's next expiry draw (R124; log 6). -/
def drawExpiry (v : Env) : Nat × Env :=
  match v.expIn with
  | k :: rest => (k, { v with expIn := rest })
  | [] => (Config.expiryBudget v.expDrawn, { v with expDrawn := v.expDrawn + 1 })

/-- A reading of the monotonic tick source (R43; log 7). -/
def readTick (v : Env) : Nat × Env :=
  let now := v.tick + Config.tickAdvance v.ticksRead
  (now, { v with tick := now, ticksRead := v.ticksRead + 1 })

/-- `Xchg(tx) -> rx` (R120): performed whatever the state of `cs`. -/
def xchg (tx : Byte) (b : Bus) : Byte × Bus :=
  let d := drawByte b.env
  (d.1, emit (.x tx d.1) { b with env := d.2 })

/-- An exchange whose received byte the block does not look at. -/
def discard (tx : Byte) (b : Bus) : Bus := (xchg tx b).2

/-- `CsAssert()` (R121). -/
def csAssert (b : Bus) : Bus := emit (.cs .asserted) { b with cs := .asserted }

/-- `CsDeassert()` (R121). -/
def csDeassert (b : Bus) : Bus := emit (.cs .deasserted) { b with cs := .deasserted }

/-- `SetClock(s)` (R122). -/
def setClock (c : Clk) (b : Bus) : Bus := emit (.clk c) { b with clk := c }

/-- The deadline of a timer. -/
def deadline (t : TimerId) (b : Bus) : Option Deadline :=
  match t with
  | .op => b.tOp
  | .rdy => b.tRdy

/-- Replace the deadline of a timer. -/
def setDeadline (t : TimerId) (d : Deadline) (b : Bus) : Bus :=
  match t with
  | .op => { b with tOp := some d }
  | .rdy => { b with tRdy := some d }

/-- `TimerStart(t, ms)` (R123): a restart discards the previous deadline. -/
def timerStart (t : TimerId) (ms : Nat) (b : Bus) : Bus :=
  let now := readTick b.env
  let k := drawExpiry now.2
  emit (.tstart t ms) (setDeadline t ⟨now.1, ms, k.1⟩ { b with env := k.2 })

/-- `Expired(t)` (R124): `true` once the drawn number of `false` answers is used up, and from then on until a restart. A
timer that was never started is queried by no rule (R39). -/
def expired (t : TimerId) (b : Bus) : Bool × Bus :=
  match deadline t b with
  | some ⟨start, ms, k + 1⟩ => (false, emit (.exp t false) (setDeadline t ⟨start, ms, k⟩ b))
  | _ => (true, emit (.exp t true) b)

/-! ## Composite transport procedures (R125-R128) -/

/-- `deselect()` (R125, R288). -/
def deselect (b : Bus) : Bus := discard fill (csDeassert b)

/-- The loop of `waitReady` (R127): exchange, and query only after a busy byte. `k` is the deadline's count of queries
that still answer `false`, which bounds the loop. -/
def readyLoop : Nat → Bus → Bool × Bus
  | 0, b =>
    let d := xchg fill b
    if d.1 = 0xFF#8 then (true, d.2) else (false, (expired .rdy d.2).2)
  | k + 1, b =>
    let d := xchg fill b
    if d.1 = 0xFF#8 then (true, d.2)
    else
      let e := expired .rdy d.2
      if e.1 then (false, e.2) else readyLoop k e.2

/-- How many queries of `T_RDY` still answer `false`. -/
def rdyLeft (b : Bus) : Nat :=
  match b.tRdy with
  | some d => d.falseLeft
  | none => 0

/-- `waitReady(500)` (R127). -/
def waitReady (b : Bus) : Bool × Bus :=
  let b1 := timerStart .rdy Config.readyMs b
  readyLoop (rdyLeft b1) b1

/-- `select()` (R126): on a timeout it deselects and answers `false`. -/
def select (b : Bus) : Bool × Bus :=
  let w := waitReady (discard fill (csAssert b))
  if w.1 then w else (false, deselect w.2)

/-- `n` dummy exchanges. -/
def discardMany : Nat → Bus → Bus
  | 0, b => b
  | n + 1, b => discardMany n (discard fill b)

/-- `powerUpClocks()` (R128). -/
def powerUpClocks (b : Bus) : Bus := discardMany Config.powerUpBytes b

/-- Transmit bytes, discarding what is received (R144, R218). -/
def sendBytes : List Byte → Bus → Bus
  | [], b => b
  | tx :: rest, b => sendBytes rest (discard tx b)

/-- Receive `n` bytes with FILL (R147, R216). -/
def receiveBytes : Nat → Bus → List Byte × Bus
  | 0, b => ([], b)
  | n + 1, b =>
    let d := xchg fill b
    let rest := receiveBytes n d.2
    (d.1 :: rest.1, rest.2)

/-- `readOCR()` (R147). -/
def readOcr (b : Bus) : List Byte × Bus := receiveBytes Config.ocrBytes b

/-- The payload and the two CRC bytes, which are discarded unchecked (R216). -/
def receivePayload (n : Nat) (b : Bus) : List Byte × Bus :=
  let p := receiveBytes n b
  (p.1, discardMany 2 p.2)

/-! ## The framer (R140-R145) -/

/-- Reselect before every command but CMD12 (R142). -/
def reselect (idx : BitVec 6) (b : Bus) : Bool × Bus :=
  if idx = 12#6 then (true, b) else select (deselect b)

/-- The six frame exchanges, and the stuff byte of CMD12 (R144, R145). -/
def sendFrame (idx : BitVec 6) (arg : Word) (b : Bus) : Bus :=
  let b1 := sendBytes (frameBytes idx arg) b
  if idx = 12#6 then discard fill b1 else b1

/-! ## Return (R260, R268) -/

/-- An operation returns: its value is given to the host, the working registers are discarded, the sequencer is IDLE
(R37, R38, R268). -/
def returnValue (v : Byte) (s : State) : State :=
  { s with seq := .idle, work := Work.empty, buf := none, result := some v }

/-- An operation begins: its trace is empty and it has returned nothing (R24; log 15). -/
def beginCall (s : State) : State :=
  { s with result := none, bus := { s.bus with log := [] } }

end Sys2Proof.Machine
end

