-- ==== Sys2Proof/Machine/Sequencer.lean ====
section
/-! DEFINITION. The sequencer's successors (R38, R193): what follows a command's response, a token wait, a data packet, a data
response; and the finalisations. Each follows the pseudocode of R180, R210, R217 and R243. -/

namespace Sys2Proof.Machine

/-- Go to a step. -/
def goto (l : Seq) (s : State) : State := { s with seq := l }

/-- Go to a site's command (R141, R142). -/
def call (site : Site) (s : State) : State := goto (callSite site s.work) s

/-- `ty <- v` (R37). -/
def setTy (v : Byte) (s : State) : State := { s with work := { s.work with ty := some v } }

/-- `readOCR()` into `ocr[0..3]` (R147). -/
def latchOcr (s : State) : State :=
  let o := readOcr s.bus
  { s with work := { s.work with ocr := some o.1 }, bus := o.2 }

/-- `ocr[0..3]` as last read. -/
def ocrOf (s : State) : List Byte := s.work.ocr.getD []

/-- Start of `rcvrDatablock` (R215): the 200 ms deadline, then the token wait. -/
def enterToken (use : RecvUse) (s : State) : State :=
  { s with seq := .token use, bus := timerStart .op Config.tokenMs s.bus }

/-! ## After a response, site by site -/

/-- After CMD0 (R182, R184). -/
def afterCmd0 (r : Byte) (s : State) : State :=
  if isIdleResponse r then call .initCmd8 { s with bus := timerStart .op Config.initMs s.bus } else goto .initEnd s

/-- After CMD8 (R185, R186). -/
def afterCmd8 (r : Byte) (s : State) : State :=
  if idleOrReady r then
    let s1 := latchOcr s
    if echoValid (ocrOf s1) then goto (.loopHead .v2) s1 else goto .initEnd s1
  else call .initProbe s

/-- After the version-2 loop's ACMD41 (R187). -/
def afterAcmd41 (r : Byte) (s : State) : State :=
  if isReady r then call .initCmd58 s else goto (.loopHead .v2) s

/-- After CMD58 (R188). -/
def afterCmd58 (r : Byte) (s : State) : State :=
  if isReady r then
    let s1 := latchOcr s
    goto .initEnd (setTy (sd2Type (ocrOf s1)) s1)
  else goto .initEnd s

/-- After the legacy probe (R189). -/
def afterProbe (r : Byte) (s : State) : State :=
  if idleOrReady r then
    goto (.loopHead .legacy) { s with work := { s.work with ty := some ctSd1, cmdSel := some .acmd41 } }
  else goto (.loopHead .legacy) { s with work := { s.work with ty := some ctMmc, cmdSel := some .cmd1 } }

/-- After the legacy loop's command (R190). -/
def afterLoop (r : Byte) (s : State) : State :=
  if isReady r then call .initCmd16 s else goto (.loopHead .legacy) s

/-- After CMD16 (R191). -/
def afterCmd16 (r : Byte) (s : State) : State :=
  if isReady r then goto .initEnd s else goto .initEnd (setTy 0#8 s)

/-- After CMD17 (R213). -/
def afterCmd17 (r : Byte) (s : State) : State :=
  if isReady r then enterToken .single s else goto .ioEnd s

/-- After CMD18 (R214). -/
def afterCmd18 (r : Byte) (s : State) : State :=
  if isReady r then enterToken .multi s else goto .ioEnd s

/-- After CMD12, whose response is ignored (R154, R214). -/
def afterCmd12 (_r : Byte) (s : State) : State := goto .ioEnd s

/-- After CMD24 (R220). -/
def afterCmd24 (r : Byte) (s : State) : State :=
  if isReady r then goto (.xmit .single) s else goto .ioEnd s

/-- After ACMD23, whose response is ignored (R162, R221). -/
def afterAcmd23 (_r : Byte) (s : State) : State := call .writeCmd25 s

/-- After CMD25 (R221). -/
def afterCmd25 (r : Byte) (s : State) : State :=
  if isReady r then goto (.xmit .multi) s else goto .ioEnd s

/-- After CMD9 (R243). -/
def afterCmd9 (r : Byte) (s : State) : State :=
  if isReady r then enterToken .csd s else goto (.countEnd false) s

/-- The caller's branch on the value `sendCommand` returned. -/
def afterResponse (site : Site) (r : Byte) (s : State) : State :=
  match site with
  | .initCmd0 => afterCmd0 r s
  | .initCmd8 => afterCmd8 r s
  | .initAcmd41 => afterAcmd41 r s
  | .initCmd58 => afterCmd58 r s
  | .initProbe => afterProbe r s
  | .initLoop => afterLoop r s
  | .initCmd16 => afterCmd16 r s
  | .readCmd17 => afterCmd17 r s
  | .readCmd18 => afterCmd18 r s
  | .readCmd12 => afterCmd12 r s
  | .writeCmd24 => afterCmd24 r s
  | .writeAcmd23 => afterAcmd23 r s
  | .writeCmd25 => afterCmd25 r s
  | .countCmd9 => afterCmd9 r s

/-- `sendCommand` answers `r` (R140): `res <- r`. After the CMD55 of an application command a value `> 1` is returned as
that command's response, and 0 or 1 lets its own frame follow (R141). -/
def respond (site : Site) (escaping : Bool) (r : Byte) (s : State) : State :=
  let s1 := { s with work := { s.work with res := some r } }
  if escaping && idleOrReady r then goto (.frame site) s1 else afterResponse site r s1

/-- A poll exchange whose byte is no response: the poll goes on, or ends with that byte after the tenth (R146). -/
def pollMissed (site : Site) (escaping : Bool) (r : Byte) (s : State) : State :=
  if s.work.nVal = 0 then respond site escaping r s
  else { s with work := { s.work with res := some r } }

/-! ## Negotiation loops (R187, R190) -/

/-- The loop's end without a ready response. -/
def loopExpired (kind : LoopKind) (s : State) : State :=
  match kind with
  | .v2 => goto .initEnd s
  | .legacy => goto .initEnd (setTy 0#8 s)

/-- One more command of the loop. -/
def loopCommand (kind : LoopKind) (s : State) : State :=
  match kind with
  | .v2 => call .initAcmd41 s
  | .legacy => call .initLoop s

/-- The head of a loop: query `T_OP`, then leave or send. -/
def loopQuery (kind : LoopKind) (s : State) : State :=
  let e := expired .op s.bus
  if e.1 then loopExpired kind { s with bus := e.2 } else loopCommand kind { s with bus := e.2 }

/-! ## Receiving (R213-R216, R243) -/

/-- A reception failed (R213, R214, R243). -/
def receiveFailed (use : RecvUse) (s : State) : State :=
  match use with
  | .single => goto .ioEnd s
  | .multi => goto (.frame .readCmd12) s
  | .csd => goto (.countEnd false) s

/-- A byte that is not the token (R215). -/
def tokenMissed (use : RecvUse) (tok : Byte) (s : State) : State :=
  if endsTokenWait s.tokenWaitMode tok then receiveFailed use s
  else
    let e := expired .op s.bus
    if e.1 then receiveFailed use { s with bus := e.2 } else { s with bus := e.2 }

/-- One block of the transfer is done: `ptr <- ptr + 512; cnt <- cnt - 1` (R210, R217). -/
def advanceBlock (s : State) : State :=
  { s with work := { s.work with ptr := some (s.work.ptrVal + Config.blockSize), cnt := some (s.work.cntVal - 1#32) } }

/-- `cnt <- 0` (R210, R217). -/
def clearCount (s : State) : State := { s with work := { s.work with cnt := some 0#32 } }

/-- A block was received (R213, R214). -/
def blockReceived (use : RecvUse) (s : State) : State :=
  match use with
  | .single => goto .ioEnd (clearCount s)
  | .multi =>
    let s1 := advanceBlock s
    if s1.work.cntVal = 0#32 then goto (.frame .readCmd12) s1 else enterToken .multi s1
  | .csd => goto (.countEnd true) s

/-- Receive a 512-byte block into `buf + ptr` (R62, R216). -/
def receiveBlock (use : RecvUse) (s : State) : State :=
  let p := receivePayload Config.blockSize s.bus
  blockReceived use
    { s with mem := s.mem.writeBytes (bufAddr (bufOf s) s.work.ptrVal) p.1, bus := p.2 }

/-- Receive the CSD into `csd[0..15]` (R243). -/
def receiveCsd (s : State) : State :=
  let p := receivePayload Config.csdSize s.bus
  { s with work := { s.work with csd := some p.1 }, bus := p.2 }

/-- `csd[0..15]` as last received. -/
def csdOf (s : State) : List Byte := s.work.csd.getD []

/-- The sector count written little-endian at `buf[0..3]` (R66, R243). -/
def storeCount (v : Word) (s : State) : State :=
  goto (.countEnd true) { s with mem := s.mem.writeBytes (bufAddr (bufOf s) 0) (leBytes4 v) }

/-- After the CSD: parse it, and write the count only when it parses (R243-R245). -/
def countReceived (s : State) : State :=
  match parseCsd (csdOf s) with
  | some v => storeCount v s
  | none => goto (.countEnd false) s

/-! ## Sending (R218-R222) -/

/-- A block was not sent or not accepted (R220, R221). -/
def blockFailed (use : XmitUse) (s : State) : State :=
  match use with
  | .single => goto .ioEnd s
  | .multi => goto .stop s

/-- A block was accepted (R220, R221). -/
def blockAccepted (use : XmitUse) (s : State) : State :=
  match use with
  | .single => goto .ioEnd (clearCount s)
  | .multi =>
    let s1 := advanceBlock s
    if s1.work.cntVal = 0#32 then goto .stop s1 else goto (.xmit .multi) s1

/-- The 512 payload bytes of the block at `buf + ptr` (R62, R218). -/
def payloadOf (s : State) : List Byte :=
  s.mem.readBytes (bufAddr (bufOf s) s.work.ptrVal) Config.blockSize

/-- Token, payload, dummy CRC 0xFF 0xFF (R218, R219); the data response is next. -/
def sendPacket (token : Byte) (use : XmitUse) (s : State) : State :=
  goto (.dataResp use) { s with bus := sendBytes (token :: (payloadOf s ++ [0xFF#8, 0xFF#8])) s.bus }

/-! ## Ends -/

/-- INIT's finalisation (R192, R194): `cardType <- ty`, deselect, then the clock and `status` bit 0. -/
def finishInit (s : State) : State :=
  let ty := s.work.tyVal
  let b := deselect s.bus
  if ty = 0#8 then
    returnValue (setNotInitialized s.status)
      { s with cardType := ty, bus := b, status := setNotInitialized s.status }
  else
    returnValue (clearNotInitialized s.status)
      { s with cardType := ty, bus := setClock .fast b, status := clearNotInitialized s.status }

/-- The common end of READ and WRITE (R223). -/
def finishIo (s : State) : State :=
  returnValue (okOrGeneric (decide (s.work.cntVal = 0#32))) { s with bus := deselect s.bus }

/-- The end of an ioctl (R248). -/
def finishIoctl (v : Byte) (s : State) : State := returnValue v { s with bus := deselect s.bus }

end Sys2Proof.Machine
end

