-- ==== Sys2Proof/Machine/Query.lean ====
section
/-! DEFINITION. STATUS and the ioctls (44_status_query.md). A host operation invoked while another is in progress is
refused (R70). -/

namespace Sys2Proof.Machine

/-- Run a host operation at IDLE; refuse it while another is in progress (R70, D33). -/
def atIdle (s : State) (op : State → Host.Outcome State Fault Refusal) : Host.Outcome State Fault Refusal :=
  match s.seq with
  | .idle => op (beginCall s)
  | _ => .refused .overlappingCall

/-- The entry checks of an ioctl (R241): the error of the first that applies. -/
def ioctlCheck (drive : Byte) (s : State) : Option Byte :=
  if drive ≠ 0#8 then some resParamError
  else if isNotInitialized s.status then some resNotReady
  else none

/-- An ioctl: its checks, then its dispatch (R241). -/
def ioctl (drive : Byte) (op : State → Host.Outcome State Fault Refusal) (s : State) : Host.Outcome State Fault Refusal :=
  atIdle s fun s =>
    match ioctlCheck drive s with
    | some err => .next (returnValue err s)
    | none => op s

/-- STATUS (R240). -/
def execStatus (drive : Byte) (s : State) : Host.Outcome State Fault Refusal :=
  atIdle s fun s => .next (returnValue (if drive = 0#8 then s.status else notInitializedBit) s)

/-- Sync's body (R242): select, which waits for ready, and the final deselect. -/
def sync (s : State) : State :=
  let r := select s.bus
  finishIoctl (okOrGeneric r.1) { s with bus := r.2 }

/-- IOCTL_SYNC (R242). -/
def execIoctlSync (drive : Byte) (_buf : Buf) (s : State) : Host.Outcome State Fault Refusal :=
  ioctl drive (fun s => .next (sync s)) s

/-- IOCTL_GET_SECTOR_COUNT (R243): CMD9 is next. -/
def execIoctlGetSectorCount (drive : Byte) (buf : Buf) (s : State) : Host.Outcome State Fault Refusal :=
  ioctl drive (fun s => .next (call .countCmd9 { s with buf := some buf })) s

/-- The sector size 512 written little-endian at `buf[0..1]` (R66, R246). -/
def storeSize (buf : Buf) (s : State) : State :=
  { s with mem := s.mem.writeBytes (bufAddr buf 0) (leBytes2 (BitVec.ofNat 16 Config.blockSize)) }

/-- IOCTL_GET_SECTOR_SIZE (R246). -/
def execIoctlGetSectorSize (drive : Byte) (buf : Buf) (s : State) : Host.Outcome State Fault Refusal :=
  ioctl drive (fun s =>
    if inBuffer buf 0 2 then .next (finishIoctl resOk (storeSize buf s)) else .fault .hostBufferOverrun) s

/-- IOCTL_OTHER (R247). -/
def execIoctlOther (_cmd : Byte) (drive : Byte) (_buf : Buf) (s : State) : Host.Outcome State Fault Refusal :=
  ioctl drive (fun s => .next (finishIoctl resParamError s)) s

end Sys2Proof.Machine
end

