-- ==== Sys2Proof/Machine/BlockIo.lean ====
section
/-! DEFINITION. READ and WRITE (43_block_io.md): the checks, the address conversion and the choice of command. -/

namespace Sys2Proof.Machine

/-- The checks of READ, in order (R211, R265). -/
def readCheck (drive : Byte) (count : Word) (s : State) : Option Byte :=
  if drive ≠ 0#8 ∨ count = 0#32 then some resParamError
  else if isNotInitialized s.status then some resNotReady
  else none

/-- The checks of WRITE, in order (R217, R265). -/
def writeCheck (drive : Byte) (count : Word) (s : State) : Option Byte :=
  match readCheck drive count s with
  | some err => some err
  | none => if isWriteProtected s.status then some resWriteProtected else none

/-- `addr <- convert(sector); cnt <- count; ptr <- 0` (R210, R217), over the buffer passed. -/
def loadTransfer (buf : Buf) (sector count : Word) (s : State) : State :=
  { s with
    buf := some buf
    work := { s.work with addr := some (convert s.cardType sector), cnt := some count, ptr := some 0 } }

/-- READ's command: CMD17 for one block, CMD18 for more (R213, R214). -/
def readSite (count : Word) : Site := if count = 1#32 then .readCmd17 else .readCmd18

/-- WRITE's first command: CMD24 for one block; for more, ACMD23 on an SD card, else CMD25 (R220, R221). -/
def writeSite (cardType : Byte) (count : Word) : Site :=
  if count = 1#32 then .writeCmd24 else if isSd cardType then .writeAcmd23 else .writeCmd25

/-- READ (R210, R211). -/
def execRead (drive : Byte) (buf : Buf) (sector count : Word) (s : State) : Host.Outcome State Fault Refusal :=
  atIdle s fun s =>
    match readCheck drive count s with
    | some err => .next (returnValue err s)
    | none => .next (call (readSite count) (loadTransfer buf sector count s))

/-- WRITE (R217). -/
def execWrite (drive : Byte) (buf : Buf) (sector count : Word) (s : State) : Host.Outcome State Fault Refusal :=
  atIdle s fun s =>
    match writeCheck drive count s with
    | some err => .next (returnValue err s)
    | none => .next (call (writeSite s.cardType count) (loadTransfer buf sector count s))

end Sys2Proof.Machine
end

