-- ==== Sys2Proof/Machine/Command.lean ====
section
/-! DEFINITION. The 14 command frames (41_command_layer.md): each performs the exchanges of `sendCommand` up to its response poll.
An application command's frame follows an accepted CMD55 exchange, which the sequencer runs first (R105, R141). -/

namespace Sys2Proof.Machine

/-- The command is sent: reselect, frame, stuff byte for CMD12, then the poll of at most ten exchanges (R142, R144-R146). A
select timeout answers 0xFF with no frame byte sent (R142). -/
def issueAt (site : Site) (escaping : Bool) (idx : BitVec 6) (arg : Word) (s : State) : State :=
  let r := reselect idx s.bus
  if r.1 then
    { s with
      seq := .poll site escaping
      work := { s.work with n := some Config.respPolls }
      bus := sendFrame idx arg r.2 }
  else respond site escaping noResponse { s with bus := r.2 }

/-- A command's own frame is sent where the sequencer has reached a command (R102; log 12). -/
def issue (idx : BitVec 6) (arg : Word) (s : State) : Host.Outcome State Fault Refusal :=
  match s.seq with
  | .frame site => .next (issueAt site false idx arg s)
  | _ => .refused .outOfStep

/-- The escape command is sent immediately before an application command and never on its own (R141, R160). -/
def issueEscape (idx : BitVec 6) (arg : Word) (s : State) : Host.Outcome State Fault Refusal :=
  match s.seq with
  | .escape site => .next (issueAt site true idx arg s)
  | _ => .refused .outOfStep

/-- CMD0 (R150). -/
def execCmd0 (s : State) : Host.Outcome State Fault Refusal := issue 0 0 s
/-- CMD1 (R151). -/
def execCmd1 (s : State) : Host.Outcome State Fault Refusal := issue 1 0 s
/-- CMD8 (R152). -/
def execCmd8 (s : State) : Host.Outcome State Fault Refusal := issue 8 cmd8Arg s
/-- CMD9 (R153). -/
def execCmd9 (s : State) : Host.Outcome State Fault Refusal := issue 9 0 s
/-- CMD12 (R154). -/
def execCmd12 (s : State) : Host.Outcome State Fault Refusal := issue 12 0 s
/-- CMD16 (R155). -/
def execCmd16 (s : State) : Host.Outcome State Fault Refusal := issue 16 cmd16Arg s
/-- CMD17 (R156). -/
def execCmd17 (address : Word) (s : State) : Host.Outcome State Fault Refusal := issue 17 address s
/-- CMD18 (R157). -/
def execCmd18 (address : Word) (s : State) : Host.Outcome State Fault Refusal := issue 18 address s
/-- CMD24 (R158). -/
def execCmd24 (address : Word) (s : State) : Host.Outcome State Fault Refusal := issue 24 address s
/-- CMD25 (R159). -/
def execCmd25 (address : Word) (s : State) : Host.Outcome State Fault Refusal := issue 25 address s
/-- CMD55 (R160). -/
def execCmd55 (s : State) : Host.Outcome State Fault Refusal := issueEscape 55 0 s
/-- CMD58 (R161). -/
def execCmd58 (s : State) : Host.Outcome State Fault Refusal := issue 58 0 s
/-- ACMD23 (R162). -/
def execAcmd23 (count : Word) (s : State) : Host.Outcome State Fault Refusal := issue 23 count s
/-- ACMD41 (R163). -/
def execAcmd41 (hcs : Bool) (s : State) : Host.Outcome State Fault Refusal :=
  issue 41 (if hcs then hcsArg else 0) s

end Sys2Proof.Machine
end

