-- ==== Sys2Proof/Machine/Init.lean ====
section
/-! DEFINITION. INIT (42_init.md): the drive check and the power-up step. The commands that follow are the sequencer's. -/

namespace Sys2Proof.Machine

/-- The power-up step (R183): slow clock, ten dummy bytes, `ty <- 0`; CMD0 is next (R182). -/
def powerUp (s : State) : State :=
  call .initCmd0 (setTy 0#8 { s with bus := powerUpClocks (setClock .slow s.bus) })

/-- INIT (R180, R181, R183, R196). -/
def execInit (drive : Byte) (s : State) : Host.Outcome State Fault Refusal :=
  atIdle s fun s =>
    if drive ≠ 0#8 then .next (returnValue notInitializedBit s) else .next (powerUp s)

end Sys2Proof.Machine
end

