-- ==== Sys2Proof/Machine/Wire.lean ====
section
/-! DEFINITION. The tokens and the received bytes (30_encoding.md R92, R93, R85; 43_block_io.md). A received byte has already been
exchanged when its meaning runs; a sent token's meaning performs its exchange. -/

namespace Sys2Proof.Machine

/-- The payload after a received 0xFE (R216): a block into the host buffer, or the CSD and its count. A block that does
not fit the buffer, or a count that does not, has no step (R61, D32; log 10). -/
def receiveData (use : RecvUse) (s : State) : Host.Outcome State Fault Refusal :=
  match use with
  | .single =>
    if inBuffer (bufOf s) s.work.ptrVal Config.blockSize then .next (receiveBlock .single s) else .fault .hostBufferOverrun
  | .multi =>
    if inBuffer (bufOf s) s.work.ptrVal Config.blockSize then .next (receiveBlock .multi s) else .fault .hostBufferOverrun
  | .csd =>
    if inBuffer (bufOf s) 0 4 then .next (countReceived (receiveCsd s))
    else if (parseCsd (csdOf (receiveCsd s))).isNone then .next (countReceived (receiveCsd s))
    else .fault .hostBufferOverrun

/-- `xmitDatablock` up to its data response (R218): the ready wait, then the packet; a timeout fails the block and sends no
token. A payload that does not lie in the buffer has no step once the card is ready (R61, D32; log 10). -/
def transmitData (token : Byte) (use : XmitUse) (s : State) : Host.Outcome State Fault Refusal :=
  let w := waitReady s.bus
  let s1 := { s with bus := w.2 }
  if inBuffer (bufOf s) s.work.ptrVal Config.blockSize then
    .next (if w.1 then sendPacket token use s1 else blockFailed use s1)
  else if w.1 then .fault .hostBufferOverrun
  else .next (blockFailed use s1)

/-- TOKEN_START_BLOCK: received before a block (R215, R216), sent before a CMD24 block (R218, R220). That it also sends its 0xFE
packet at the label of a CMD25 block, where no step runs it, is the model's choice (DESIGN CHOICE, log 12). -/
def execTokenStartBlock (s : State) : Host.Outcome State Fault Refusal :=
  match s.seq with
  | .token use => receiveData use s
  | .xmit use => transmitData startBlockToken use s
  | _ => .refused .outOfStep

/-- TOKEN_START_MULTI_WRITE: sent before each CMD25 block (R218, R221). That it also sends its 0xFC packet at the label of a CMD24
block, where no step runs it, is the model's choice (DESIGN CHOICE, log 12). -/
def execTokenStartMultiWrite (s : State) : Host.Outcome State Fault Refusal :=
  match s.seq with
  | .xmit use => transmitData startMultiToken use s
  | _ => .refused .outOfStep

/-- The stop token (R222): the ready wait, then the byte alone; a timeout sends nothing and leaves `cnt` at 1. -/
def transmitStop (s : State) : State :=
  let w := waitReady s.bus
  if w.1 then goto .ioEnd { s with bus := discard stopToken w.2 }
  else goto .ioEnd { s with bus := w.2, work := { s.work with cnt := some 1#32 } }

/-- TOKEN_STOP_TRAN (R222). -/
def execTokenStopTran (s : State) : Host.Outcome State Fault Refusal :=
  match s.seq with
  | .stop => .next (transmitStop s)
  | _ => .refused .outOfStep

/-- DATA_RESP_ACCEPTED (R93, R219-R221): the block counts; bits 7:5 are ignored. -/
def execDataRespAccepted (_ignored : BitVec 3) (s : State) : Host.Outcome State Fault Refusal :=
  match s.seq with
  | .dataResp use => .next (blockAccepted use s)
  | _ => .refused .outOfStep

/-- R1_VALID (R85, R146): the byte is the response and the poll ends. -/
def execR1Valid (flags : BitVec 7) (s : State) : Host.Outcome State Fault Refusal :=
  match s.seq with
  | .poll site escaping => .next (respond site escaping (0#1 ++ flags) s)
  | _ => .refused .outOfStep

end Sys2Proof.Machine
end

