-- ==== Sys2Proof/Machine/Dispatch.lean ====
section
/-! DEFINITION. One arm per row of the opcode table: each calls its instruction's meaning. -/

namespace Sys2Proof.Machine

def exec (i : Instr) (s : State) : Host.Outcome State Fault Refusal :=
  match i with
  | .init drive => Sys2Proof.Machine.execInit drive s
  | .status drive => Sys2Proof.Machine.execStatus drive s
  | .read drive buf sector count => Sys2Proof.Machine.execRead drive buf sector count s
  | .write drive buf sector count => Sys2Proof.Machine.execWrite drive buf sector count s
  | .ioctlSync drive buf => Sys2Proof.Machine.execIoctlSync drive buf s
  | .ioctlGetSectorCount drive buf => Sys2Proof.Machine.execIoctlGetSectorCount drive buf s
  | .ioctlGetSectorSize drive buf => Sys2Proof.Machine.execIoctlGetSectorSize drive buf s
  | .ioctlOther cmd drive buf => Sys2Proof.Machine.execIoctlOther cmd drive buf s
  | .cmd0 => Sys2Proof.Machine.execCmd0 s
  | .cmd1 => Sys2Proof.Machine.execCmd1 s
  | .cmd8 => Sys2Proof.Machine.execCmd8 s
  | .cmd9 => Sys2Proof.Machine.execCmd9 s
  | .cmd12 => Sys2Proof.Machine.execCmd12 s
  | .cmd16 => Sys2Proof.Machine.execCmd16 s
  | .cmd17 address => Sys2Proof.Machine.execCmd17 address s
  | .cmd18 address => Sys2Proof.Machine.execCmd18 address s
  | .cmd24 address => Sys2Proof.Machine.execCmd24 address s
  | .cmd25 address => Sys2Proof.Machine.execCmd25 address s
  | .cmd55 => Sys2Proof.Machine.execCmd55 s
  | .cmd58 => Sys2Proof.Machine.execCmd58 s
  | .acmd23 count => Sys2Proof.Machine.execAcmd23 count s
  | .acmd41 hcs => Sys2Proof.Machine.execAcmd41 hcs s
  | .tokenStartBlock => Sys2Proof.Machine.execTokenStartBlock s
  | .tokenStartMultiWrite => Sys2Proof.Machine.execTokenStartMultiWrite s
  | .tokenStopTran => Sys2Proof.Machine.execTokenStopTran s
  | .dataRespAccepted ignored => Sys2Proof.Machine.execDataRespAccepted ignored s
  | .r1Valid flags => Sys2Proof.Machine.execR1Valid flags s

end Sys2Proof.Machine
end

