-- ==== Sys2Proof/Machine/Fetch.lean ====
section
/-! DEFINITION. Where each step finds its word: the host's call, the frame or token of the sequencer's label, or the byte just
received; the host's other events; and the placing of a table word where the next step finds it. -/

namespace Sys2Proof.Machine

/-! ## Words the block sends -/

/-- The frame the framer assembles for a site (R81, R108). -/
def siteFrame (site : Site) (s : State) : List Byte := encode (siteInstr site s.work)

/-- The frame of the escape command (R160). -/
def escapeFrame : List Byte := encode .cmd55

/-- The token a write announces its block with (R218). -/
def xmitToken (use : XmitUse) : List Byte := encode (xmitInstr use)

/-- The stop token (R222). -/
def stopBytes : List Byte := encode .tokenStopTran

/-! ## Bytes the block receives: the state just after the exchange -/

/-- A poll exchange (R146): `n <- n - 1`. -/
def pollExchange (s : State) : Byte × State :=
  let d := xchg fill s.bus
  (d.1, { s with bus := d.2, work := { s.work with n := some (s.work.nVal - 1) } })

/-- A token-wait exchange (R215): `tok <- rx`. -/
def tokenExchange (s : State) : Byte × State :=
  let d := xchg fill s.bus
  (d.1, { s with bus := d.2, work := { s.work with tok := some d.1 } })

/-- The data-response exchange (R219). -/
def respExchange (s : State) : Byte × State :=
  let d := xchg fill s.bus
  (d.1, { s with bus := d.2 })

/-! ## Host events other than calls -/

/-- SocketUpdate (R31): bits 1 and 2 of `status`. -/
def socketUpdate (noDisk writeProtected : Bool) (s : State) : State :=
  { s with status := socketStatus s.status noDisk writeProtected }

/-- The host writes its own memory (R43; log 18). -/
def hostStore (address : Nat) (bytes : List Byte) (s : State) : State :=
  { s with mem := s.mem.writeBytes address bytes }

/-- A call is waiting that did not wait for the operation in progress (R70). -/
def overlapPending (s : State) : Bool :=
  match s.host with
  | .callNow _ :: _ => true
  | _ => false

/-- R70, R267: an operation that returned within its step with a call that did not wait behind it. That call was made while the
operation was in progress, and the step refuses it (log 11). -/
def refuseOverlap (o : Host.Outcome State Fault Refusal) : Host.Outcome State Fault Refusal :=
  match o with
  | .next t => if t.seq = .idle ∧ overlapPending t = true then .refused .overlappingCall else .next t
  | .fault f => .fault f
  | .refused r => .refused r

/-- Why a call record that does not decode is refused (R104; log 2). -/
def callRefusal : Reject → Refusal
  | .tooShort => .incompleteCall
  | .reservedWord | .notAFrame | .notAToken | .notAccepted | .notAResponse => .reservedWord

/-! ## Placing a table word (log 17) -/

/-- A received byte is the next the card returns. -/
def feed (b : Byte) (s : State) : State :=
  { s with bus := { s.bus with env := { s.bus.env with rxIn := b :: s.bus.env.rxIn } } }

/-- Whether a host event is a call that does not wait. -/
def isCallNow : HostEvent → Bool
  | .callNow _ => true
  | .call _ | .socketUpdate .. | .store .. => false

/-- The host without a call that would be refused before the placed word runs, or would overlap it. -/
def quietHost (s : State) : State := { s with host := s.host.dropWhile isCallNow }

/-- A host call is the next thing the host does, and no operation is in progress. -/
def placeCall (bytes : List Byte) (s : State) : State :=
  { s with seq := .idle, work := Work.empty, buf := none, host := .call bytes :: (quietHost s).host }

/-- A transfer in progress over a buffer of `count` blocks at address 0, selected on the bus. -/
def placeTransfer (l : Seq) (addr count : Word) (s : State) : State :=
  { s with
    seq := l
    buf := some ⟨0#64, BitVec.ofNat 64 (count.toNat * Config.blockSize)⟩
    work := { Work.empty with addr := some addr, cnt := some count, ptr := some 0 }
    bus := { s.bus with cs := .asserted, tOp := some ⟨s.bus.env.tick, Config.tokenMs, 0⟩ } }

/-- An INIT in progress, at a step. -/
def placeInit (l : Seq) (ty : Byte) (sel : Option CmdSel) (s : State) : State :=
  { s with
    seq := l
    buf := none
    work := { Work.empty with ty := some ty, cmdSel := sel, n := some Config.respPolls }
    bus := { s.bus with cs := .asserted, tOp := some ⟨s.bus.env.tick, Config.initMs, 0⟩ } }

/-- A GetSectorCount in progress, about to send CMD9, over a buffer of four bytes at address 0. -/
def placeCount (s : State) : State :=
  { s with seq := .frame .countCmd9, buf := some ⟨0#64, 4#64⟩, work := Work.empty }

/-- The sequencer at a step that sends frame `i`. -/
def placeFrame (i : Instr) (s : State) : State :=
  match i with
  | .cmd0 => placeInit (.frame .initCmd0) 0#8 none s
  | .cmd1 => placeInit (.frame .initLoop) ctMmc (some .cmd1) s
  | .cmd8 => placeInit (.frame .initCmd8) 0#8 none s
  | .cmd9 => placeCount s
  | .cmd12 => placeTransfer (.frame .readCmd12) 0#32 2#32 s
  | .cmd16 => placeInit (.frame .initCmd16) ctMmc (some .cmd1) s
  | .cmd17 a => placeTransfer (.frame .readCmd17) a 1#32 s
  | .cmd18 a => placeTransfer (.frame .readCmd18) a 2#32 s
  | .cmd24 a => placeTransfer (.frame .writeCmd24) a 1#32 s
  | .cmd25 a => placeTransfer (.frame .writeCmd25) a 2#32 s
  | .cmd55 => placeInit (.escape .initProbe) 0#8 none s
  | .cmd58 => placeInit (.frame .initCmd58) 0#8 none s
  | .acmd23 c => placeTransfer (.frame .writeAcmd23) 0#32 c s
  | .acmd41 hcs => placeInit (.frame (if hcs then .initAcmd41 else .initProbe)) 0#8 none s
  | .init _ | .status _ | .read .. | .write .. | .ioctlSync .. | .ioctlGetSectorCount .. | .ioctlGetSectorSize ..
  | .ioctlOther .. | .tokenStartBlock | .tokenStartMultiWrite | .tokenStopTran | .dataRespAccepted _
  | .r1Valid _ => s

/-- The sequencer at a step that sends or receives byte `i`. -/
def placeByte (i : Instr) (s : State) : State :=
  match i with
  | .tokenStartBlock => feed startBlockToken (placeTransfer (.token .single) 0#32 1#32 s)
  | .tokenStartMultiWrite => placeTransfer (.xmit .multi) 0#32 2#32 s
  | .tokenStopTran => placeTransfer .stop 0#32 0#32 s
  | .dataRespAccepted ign => feed (ign ++ 0b00101#5) (placeTransfer (.dataResp .single) 0#32 1#32 s)
  | .r1Valid flags => feed (0#1 ++ flags) (placeInit (.poll .initCmd0 false) 0#8 none s)
  | .init _ | .status _ | .read .. | .write .. | .ioctlSync .. | .ioctlGetSectorCount .. | .ioctlGetSectorSize ..
  | .ioctlOther .. | .cmd0 | .cmd1 | .cmd8 | .cmd9 | .cmd12 | .cmd16 | .cmd17 _ | .cmd18 _ | .cmd24 _ | .cmd25 _ | .cmd55
  | .cmd58 | .acmd23 _ | .acmd41 _ => s

/-- The state in which the sequencer's next word is `i`, encoded `bytes`. -/
def placeInstr (i : Instr) (bytes : List Byte) (s : State) : State :=
  match i with
  | .init _ | .status _ | .read .. | .write .. | .ioctlSync .. | .ioctlGetSectorCount .. | .ioctlGetSectorSize ..
  | .ioctlOther .. => placeCall bytes s
  | .cmd0 | .cmd1 | .cmd8 | .cmd9 | .cmd12 | .cmd16 | .cmd17 _ | .cmd18 _ | .cmd24 _ | .cmd25 _ | .cmd55 | .cmd58
  | .acmd23 _ | .acmd41 _ => placeFrame i (quietHost s)
  | .tokenStartBlock | .tokenStartMultiWrite | .tokenStopTran | .dataRespAccepted _ | .r1Valid _ =>
    placeByte i (quietHost s)

end Sys2Proof.Machine
end

