-- ==== Sys2Proof/Machine/Step.lean ====
section
/-! DEFINITION. One step: at IDLE the host's next event; in an operation, the word of the sequencer's label (R38, R70). -/

namespace Sys2Proof.Machine

/-- A host call at IDLE: decode its record and run it. Bytes of the record after the operation's arguments are dropped, which is
the model's choice (log 2). When the operation returns in this step, a call that did not wait for it is refused (R70, R267). -/
def stepCall (bytes : List Byte) (s : State) : Host.Outcome State Fault Refusal :=
  match decode .hostOp bytes with
  | .ok (i, _) => refuseOverlap (exec i s)
  | .error r => .refused (callRefusal r)

/-- At IDLE the block waits for the host (R280; log 16). A `callNow` found here is behind no call, so it overlaps nothing and runs
(log 11). -/
def stepIdle (s : State) : Host.Outcome State Fault Refusal :=
  match s.host with
  | [] => .next s
  | .call bytes :: rest => stepCall bytes { s with host := rest }
  | .callNow bytes :: rest => stepCall bytes { s with host := rest }
  | .socketUpdate nd wp :: rest => .next (socketUpdate nd wp { s with host := rest })
  | .store a bytes :: rest => .next (hostStore a bytes { s with host := rest })

/-- Send a word: decode it in its format and run it. -/
def stepSend (f : Format) (bytes : List Byte) (s : State) : Host.Outcome State Fault Refusal :=
  match decode f bytes with
  | .ok (i, _) => exec i s
  | .error _ => .refused .outOfStep

/-- A received byte: run the instruction it spells in its format, else take the rule's other path (R103). -/
def stepReceive (f : Format) (d : Byte × State) (missed : Byte → State → State) : Host.Outcome State Fault Refusal :=
  match decode f [d.1] with
  | .ok (i, _) => exec i d.2
  | .error _ => .next (missed d.1 d.2)

/-- One step of the operation in progress. -/
def stepRun (s : State) : Host.Outcome State Fault Refusal :=
  match s.seq with
  | .idle => .next s
  | .escape _ => stepSend .cmdFrame escapeFrame s
  | .frame site => stepSend .cmdFrame (siteFrame site s) s
  | .poll site escaping => stepReceive .r1 (pollExchange s) (pollMissed site escaping)
  | .loopHead kind => .next (loopQuery kind s)
  | .token use => stepReceive .dataIn (tokenExchange s) (tokenMissed use)
  | .xmit use => stepSend .dataOut (xmitToken use) s
  | .dataResp use => stepReceive .dataResp (respExchange s) (fun _ => blockFailed use)
  | .stop => stepSend .stopToken stopBytes s
  | .initEnd => .next (finishInit s)
  | .ioEnd => .next (finishIo s)
  | .countEnd ok => .next (finishIoctl (okOrGeneric ok) s)

/-- One step of the machine. A call made while an operation is in progress is refused (R70, R267). -/
def step (s : State) : Host.Outcome State Fault Refusal :=
  match s.seq with
  | .idle => stepIdle s
  | _ => if overlapPending s then .refused .overlappingCall else stepRun s

/-- `s` with a table word placed where `step` finds its next word (log 17). That a word which spells no instruction (R104, or 48
bits that are no frame) is placed as the record of a host call, whatever its width, is the model's choice (DESIGN CHOICE,
log 17). -/
def State.withFetchWord (s : State) (nbits w : Nat) : State :=
  match decodeTableWord nbits w with
  | some i => placeInstr i (tableBytes nbits w) s
  | none => placeCall (tableBytes nbits w) s

end Sys2Proof.Machine
end

