-- ==== Sys2Proof/Safety.lean ====
section
/-! DEFINITION. What the claims call a good state: the invariants that 10_state.md states of the registers (R31-R37) and that the
pseudocode of the operations keeps at each sequencer label (R12, R37-R39). -/

namespace Sys2Proof.Machine

/-! ## Where the sequencer is -/

/-- The three operations that take more than one step. -/
inductive Phase where
  | init
  | transfer
  | count
deriving DecidableEq, Repr

/-- The operation a site belongs to. -/
def Site.phase : Site → Phase
  | .initCmd0 | .initCmd8 | .initAcmd41 | .initCmd58 | .initProbe | .initLoop | .initCmd16 => .init
  | .readCmd17 | .readCmd18 | .readCmd12 | .writeCmd24 | .writeAcmd23 | .writeCmd25 => .transfer
  | .countCmd9 => .count

/-- The operation in progress, `none` at IDLE. -/
def Seq.phase : Seq → Option Phase
  | .idle => none
  | .escape site | .frame site | .poll site _ => some site.phase
  | .loopHead _ | .initEnd => some .init
  | .token .single | .token .multi | .xmit _ | .dataResp _ | .stop | .ioEnd => some .transfer
  | .token .csd | .countEnd _ => some .count

/-- The labels at which the card is selected (R140, R142, R215, R218). -/
def Seq.selected : Seq → Bool
  | .poll .. | .token _ | .xmit _ | .dataResp _ | .stop | .frame .readCmd12 => true
  | .idle | .escape _ | .loopHead _ | .initEnd | .ioEnd | .countEnd _ => false
  | .frame .initCmd0 | .frame .initCmd8 | .frame .initAcmd41 | .frame .initCmd58 | .frame .initProbe | .frame .initLoop
  | .frame .initCmd16 | .frame .readCmd17 | .frame .readCmd18 | .frame .writeCmd24 | .frame .writeAcmd23
  | .frame .writeCmd25 | .frame .countCmd9 => false

/-! ## Registers -/

/-- The legal values of `cardType` (R33). -/
abbrev LegalType (t : Byte) : Prop := t = 0x00#8 ∨ t = 0x01#8 ∨ t = 0x02#8 ∨ t = 0x04#8 ∨ t = 0x0C#8

/-- `ty` while a card has not been recognised: 0 (R183). -/
abbrev TyNone (w : Work) : Prop := w.ty = some 0x00#8

/-- `ty` and `cmdSel` once the legacy probe has answered (R189). -/
abbrev TyLegacy (w : Work) : Prop :=
  (w.ty = some ctSd1 ∧ w.cmdSel = some .acmd41) ∨ (w.ty = some ctMmc ∧ w.cmdSel = some .cmd1)

/-- `ty` at the finalisation (R192). -/
abbrev TyFinal (w : Work) : Prop := ∃ t, w.ty = some t ∧ LegalType t

/-- INIT's working registers at a site (R183, R189). -/
def Site.tyHolds (site : Site) (w : Work) : Prop :=
  match site with
  | .initCmd0 | .initCmd8 | .initAcmd41 | .initCmd58 | .initProbe => TyNone w
  | .initLoop | .initCmd16 => TyLegacy w
  | .readCmd17 | .readCmd18 | .readCmd12 | .writeCmd24 | .writeAcmd23 | .writeCmd25 | .countCmd9 => True

/-- INIT's working registers at a label (R12). -/
def Seq.tyHolds (l : Seq) (w : Work) : Prop :=
  match l with
  | .escape site | .frame site | .poll site _ => site.tyHolds w
  | .loopHead .v2 => TyNone w
  | .loopHead .legacy => TyLegacy w
  | .initEnd => TyFinal w
  | .idle | .token _ | .xmit _ | .dataResp _ | .stop | .ioEnd | .countEnd _ => True

/-- A block count of one (R213, R220). -/
abbrev CountOne (w : Work) : Prop := w.cnt = some 1#32

/-- Blocks are left (R214, R221). -/
abbrev CountLeft (w : Work) : Prop := ∃ c, w.cnt = some c ∧ c ≠ 0#32

/-- `cnt` holds a value. -/
abbrev CountHeld (w : Work) : Prop := ∃ c, w.cnt = some c

/-- `cnt` at a site. -/
def Site.countHolds (site : Site) (w : Work) : Prop :=
  match site with
  | .readCmd17 | .writeCmd24 => CountOne w
  | .readCmd18 | .writeAcmd23 | .writeCmd25 => CountLeft w
  | .readCmd12 => CountHeld w
  | .initCmd0 | .initCmd8 | .initAcmd41 | .initCmd58 | .initProbe | .initLoop | .initCmd16 | .countCmd9 => True

/-- `cnt` at a label (R12, R210, R217). -/
def Seq.countHolds (l : Seq) (w : Work) : Prop :=
  match l with
  | .escape site | .frame site | .poll site _ => site.countHolds w
  | .token .single | .xmit .single | .dataResp .single => CountOne w
  | .token .multi | .xmit .multi | .dataResp .multi => CountLeft w
  | .stop | .ioEnd => CountHeld w
  | .idle | .loopHead _ | .token .csd | .initEnd | .countEnd _ => True

/-- What an operation reads besides `cnt` and `ty` has been written (R12): in a transfer `addr`, the buffer, and `ptr` at a
block boundary (R210, R217); in GetSectorCount the buffer. -/
def operandsFor (phase : Option Phase) (w : Work) (buf : Option Buf) : Prop :=
  match phase with
  | some .transfer => (∃ a, w.addr = some a) ∧ (∃ k, w.ptr = some (Config.blockSize * k)) ∧ (∃ b, buf = some b)
  | some .count => ∃ b, buf = some b
  | some .init | none => True

/-- The poll counter at a poll: 1 to 10 exchanges are left (R146). -/
def Seq.pollHolds (l : Seq) (n : Option Nat) : Prop :=
  match l with
  | .poll _ _ => ∃ k, n = some k ∧ 1 ≤ k ∧ k ≤ Config.respPolls
  | .idle | .escape _ | .frame _ | .loopHead _ | .token _ | .xmit _ | .dataResp _ | .stop | .initEnd | .ioEnd
  | .countEnd _ => True

/-- The escape command is sent only for an application command (R105, R141). -/
def Seq.escapeHolds (l : Seq) (w : Work) : Prop :=
  match l with
  | .escape site | .poll site true => siteIsApp site w.cmdSelVal = true
  | .poll _ false | .idle | .frame _ | .loopHead _ | .token _ | .xmit _ | .dataResp _ | .stop | .initEnd | .ioEnd
  | .countEnd _ => True

/-- `T_OP` has been started with a duration. -/
abbrev opStarted (ms : Nat) (tOp : Option Deadline) : Prop := ∃ d, tOp = some d ∧ d.durationMs = ms

/-- INIT's 1000 ms deadline runs at every site after CMD0 (R184). -/
def Site.deadlineHolds (site : Site) (tOp : Option Deadline) : Prop :=
  match site with
  | .initCmd8 | .initAcmd41 | .initCmd58 | .initProbe | .initLoop | .initCmd16 => opStarted Config.initMs tOp
  | .initCmd0 | .readCmd17 | .readCmd18 | .readCmd12 | .writeCmd24 | .writeAcmd23 | .writeCmd25 | .countCmd9 => True

/-- `T_OP` wherever it will be queried: INIT's 1000 ms deadline after CMD0, the 200 ms deadline in a token wait (R39). -/
def Seq.deadlineHolds (l : Seq) (tOp : Option Deadline) : Prop :=
  match l with
  | .escape site | .frame site | .poll site _ => site.deadlineHolds tOp
  | .loopHead _ => opStarted Config.initMs tOp
  | .token _ => opStarted Config.tokenMs tOp
  | .idle | .xmit _ | .dataResp _ | .stop | .initEnd | .ioEnd | .countEnd _ => True

/-! ## The driver state and the interface outputs -/

/-- `status` bits 7:3 and `cardType` are as R31 and R33 say, and NotInitialized is clear exactly when a card type is
established (R34). -/
structure DriverInv (s : State) : Prop where
  statusReserved : s.status &&& 0xF8#8 = 0#8
  typeLegal : LegalType s.cardType
  readyIff : isNotInitialized s.status = false ↔ s.cardType ≠ 0#8

/-- The clock in each phase (R36, R130): slow throughout INIT; otherwise fast exactly when a card type is established. -/
def clockFor (phase : Option Phase) (clk : Clk) (cardType : Byte) : Prop :=
  match phase with
  | some .init => clk = .slow
  | some .transfer | some .count | none => (clk = .fast ↔ cardType ≠ 0#8)

/-- A transfer or a capacity query runs only on an initialised card (R211, R217, R241). -/
def readyFor (phase : Option Phase) (cardType : Byte) : Prop :=
  match phase with
  | some .transfer | some .count => cardType ≠ 0#8
  | some .init | none => True

/-- Between operations the card is deselected and no working register holds a value (R35, R37). -/
def idleHeld (s : State) : Prop :=
  s.seq = .idle → s.bus.cs = .deasserted ∧ s.work = Work.empty ∧ s.buf = none

/-- Where an exchange with the card is under way it is selected (R140, R142). -/
def selectHeld (s : State) : Prop := s.seq.selected = true → s.bus.cs = .asserted

/-- While an operation is in progress it has returned nothing (R6, R268). -/
def resultHeld (s : State) : Prop := s.seq ≠ .idle → s.result = none

/-! ## Shapes of traces and frames -/

/-- Busy bytes of a ready wait, each followed by a query that answers `false` (R127). -/
def busyEvents (busy : List Byte) : List Event := busy.flatMap fun d => [.x fill d, .exp .rdy false]

/-- The events of `waitReady(500)` (R127): it ends with 0xFF, or with a busy byte after which the deadline has expired. -/
def ReadyEvents (ok : Bool) (es : List Event) : Prop :=
  ∃ busy : List Byte, (∀ d ∈ busy, d ≠ 0xFF#8) ∧
    if ok then es = .tstart .rdy 500 :: (busyEvents busy ++ [.x fill 0xFF#8])
    else ∃ d, d ≠ 0xFF#8 ∧ es = .tstart .rdy 500 :: (busyEvents busy ++ [.x fill d, .exp .rdy true])

/-- One exchange for each transmitted byte, whatever is received (R144, R218). -/
def Exchanges (tx : List Byte) (es : List Event) : Prop :=
  ∃ rx : List Byte, rx.length = tx.length ∧ es = List.zipWith .x tx rx

/-- The events of `deselect(); select()` (R125, R126, R142): a timeout deselects again. -/
def ReselectEvents (ok : Bool) (es : List Event) : Prop :=
  ∃ (a b : Byte) (ready : List Event), ReadyEvents ok ready ∧
    if ok then es = [.cs .deasserted, .x fill a, .cs .asserted, .x fill b] ++ ready
    else ∃ c, es = [.cs .deasserted, .x fill a, .cs .asserted, .x fill b] ++ ready ++ [.cs .deasserted, .x fill c]

/-- Every byte of the host's memory reads as before. -/
def SameMemory (s t : State) : Prop := ∀ a, t.mem.read a = s.mem.read a

/-- `status` and `cardType` are as before. -/
def SameDriver (s t : State) : Prop := t.status = s.status ∧ t.cardType = s.cardType

/-- What no frame, token, received byte or read or write step changes: the driver state, the clock, the operand, the
result, the host's pending events and the parameter. -/
structure Untouched (s t : State) : Prop where
  driver : SameDriver s t
  clk : t.bus.clk = s.bus.clk
  buf : t.buf = s.buf
  result : t.result = s.result
  host : t.host = s.host
  mode : t.tokenWaitMode = s.tokenWaitMode

/-- What a host operation that returns at once leaves: the block is at IDLE with nothing in its working registers, the
driver state, the clock, the deadlines' durations, the host's events and the parameter unchanged. -/
structure Returned (s t : State) (v : Byte) : Prop where
  result : t.result = some v
  seq : t.seq = .idle
  work : t.work = Work.empty
  buf : t.buf = none
  driver : SameDriver s t
  clk : t.bus.clk = s.bus.clk
  host : t.host = s.host
  mode : t.tokenWaitMode = s.tokenWaitMode

/-- The whole invariant. -/
structure Inv (s : State) : Prop where
  driver : DriverInv s
  memory : s.mem.wf = true
  idle : idleHeld s
  select : selectHeld s
  clock : clockFor s.seq.phase s.bus.clk s.cardType
  ready : readyFor s.seq.phase s.cardType
  result : resultHeld s
  ty : s.seq.tyHolds s.work
  count : s.seq.countHolds s.work
  operands : operandsFor s.seq.phase s.work s.buf
  poll : s.seq.pollHolds s.work.n
  escape : s.seq.escapeHolds s.work
  deadline : s.seq.deadlineHolds s.bus.tOp

end Sys2Proof.Machine
end

