-- ==== Sys2Proof/Certificates/Slice0/Obligations.lean ====
section
/-! DEFINITION. The statements for the provers. Each docstring names the rule of spec/ it formalises. -/

open Sys2Proof Sys2Proof.Machine

/-! ## Encodings (30_encoding.md) -/

/-- Decoding the encoding of any well-formed instruction gives it back, with the bytes that follow. The bytes of a host
call's record are the model's layout (log 2). -/
def Obligations.DecodeEncodeRoundTrip : Prop :=
  ∀ (i : Instr) (rest : List Byte), i.wellFormed = true → decode i.format (encode i ++ rest) = .ok (i, rest)

/-- What decodes is well-formed, and its bytes are its encoding: no two byte strings of a format spell one instruction (log 2
for the bytes of a host call's record). -/
def Obligations.EncodeDecodeRoundTrip : Prop :=
  ∀ (f : Format) (bs : List Byte) (i : Instr) (rest : List Byte),
    decode f bs = .ok (i, rest) → i.wellFormed = true ∧ bs = encode i ++ rest

/-- Exactly the reserved host operation words (R104) are rejected as reserved, and a call that spells one is refused. That a
word's low byte comes first in the call's record is the model's choice (log 2). -/
def Obligations.ReservedHostWordsRefused : Prop :=
  ∀ (lo hi : Byte) (args : List Byte) (s : State) (later : List HostEvent),
    (decode .hostOp (lo :: hi :: args) = .error .reservedWord ↔
      (5 ≤ (lo.extractLsb' 0 4).toNat ∨ lo.extractLsb' 4 4 ≠ 0#4 ∨ (hi ≠ 0#8 ∧ (lo.extractLsb' 0 4).toNat ≠ 4))) ∧
    (s.seq = .idle → s.host = .call (lo :: hi :: args) :: later →
      (5 ≤ (lo.extractLsb' 0 4).toNat ∨ lo.extractLsb' 4 4 ≠ 0#4 ∨ (hi ≠ 0#8 ∧ (lo.extractLsb' 0 4).toNat ≠ 4)) →
      step s = .refused .reservedWord)

/-- A few words written out from the spec's encodings decode to the instructions they stand for; the zero bytes of a host
call's arguments and the order in which formats are tried are the model's choice (log 2, 13). -/
def Obligations.SampleWordsDecode : Prop :=
  decodeTableWord 16 0x0000 = some (.init 0) ∧
  decodeTableWord 16 0x0104 = some (.ioctlGetSectorCount 0 ⟨0, 0⟩) ∧
  decodeTableWord 16 0x0704 = some (.ioctlOther 7 0 ⟨0, 0⟩) ∧
  decodeTableWord 48 0x5100000C8001 = some (.cmd17 0x00000C80) ∧
  decodeTableWord 48 0x48000001AA87 = some .cmd8 ∧
  decodeTableWord 48 0x694000000001 = some (.acmd41 true) ∧
  decodeTableWord 8 0xFD = some .tokenStopTran ∧
  decodeTableWord 8 0xE5 = some (.dataRespAccepted 7) ∧
  decodeTableWord 16 0x0102 = none

/-- R81, R83, R84, R108: the six bytes of every command frame, `0x40 | index`, the argument most significant byte first,
and the CRC byte of the index; R148: the constants 0x95 and 0x87 are the CRC-7 bytes of the CMD0 and CMD8 frames. -/
def Obligations.CommandFrameBytes : Prop :=
  encode .cmd0 = [0x40, 0, 0, 0, 0, 0x95] ∧ encode .cmd1 = [0x41, 0, 0, 0, 0, 0x01] ∧
  encode .cmd8 = [0x48, 0, 0, 0x01, 0xAA, 0x87] ∧ encode .cmd9 = [0x49, 0, 0, 0, 0, 0x01] ∧
  encode .cmd12 = [0x4C, 0, 0, 0, 0, 0x01] ∧ encode .cmd16 = [0x50, 0, 0, 0x02, 0, 0x01] ∧
  encode .cmd55 = [0x77, 0, 0, 0, 0, 0x01] ∧ encode .cmd58 = [0x7A, 0, 0, 0, 0, 0x01] ∧
  encode (.acmd41 true) = [0x69, 0x40, 0, 0, 0, 0x01] ∧ encode (.acmd41 false) = [0x69, 0, 0, 0, 0, 0x01] ∧
  crc7Byte [0x40, 0, 0, 0, 0] = 0x95#8 ∧ crc7Byte [0x48, 0, 0, 0x01, 0xAA] = 0x87#8 ∧
  ∀ a3 a2 a1 a0 : Byte,
    encode (.cmd17 (a3 ++ a2 ++ a1 ++ a0)) = [0x51, a3, a2, a1, a0, 0x01] ∧
    encode (.cmd18 (a3 ++ a2 ++ a1 ++ a0)) = [0x52, a3, a2, a1, a0, 0x01] ∧
    encode (.cmd24 (a3 ++ a2 ++ a1 ++ a0)) = [0x58, a3, a2, a1, a0, 0x01] ∧
    encode (.cmd25 (a3 ++ a2 ++ a1 ++ a0)) = [0x59, a3, a2, a1, a0, 0x01] ∧
    encode (.acmd23 (a3 ++ a2 ++ a1 ++ a0)) = [0x57, a3, a2, a1, a0, 0x01]

/-- R102: whatever the working registers hold, a site's frame has one of the catalogued indices, and 23 or 41 exactly when
it is the second frame of an application command; before it the block sends CMD55. -/
def Obligations.OnlyCataloguedFrames : Prop :=
  ∀ (site : Site) (w : Work), ∃ (idx : BitVec 6) (arg : Word),
    encode (siteInstr site w) = frameBytes idx arg ∧
    idx.toNat ∈ [0, 1, 8, 9, 12, 16, 17, 18, 24, 25, 58, 23, 41] ∧
    (siteIsApp site w.cmdSelVal = true ↔ idx.toNat ∈ [23, 41]) ∧
    callSite site w = (if idx.toNat ∈ [23, 41] then .escape site else .frame site)

/-! ## Steps -/

/-- A step runs the decoded instruction: at IDLE, the host's next call, unless it returns in this step with a call that did not
wait behind it (OverlappingCallRefused says what happens then). Three parts are the model's choice: that a call is a byte
record (log 2), that bytes left over in it are dropped and the call runs (`rest` is any list, log 2), and that the event
`callNow`, found at IDLE behind no call, runs as a call does (log 11). -/
def Obligations.IdleStepRunsHostCall : Prop :=
  ∀ (s : State) (bytes rest : List Byte) (later : List HostEvent) (i : Instr),
    s.seq = .idle → (s.host = .call bytes :: later ∨ s.host = .callNow bytes :: later) →
    decode .hostOp bytes = .ok (i, rest) →
    ((∀ bytes' later', later ≠ .callNow bytes' :: later') ∨
      ∀ t, exec i { s with host := later } = .next t → t.seq ≠ .idle) →
    step s = exec i { s with host := later }

/-- A step runs the decoded instruction: in an operation, the frame or token of the sequencer's label (R38, R141, R144), and which
command and argument each site sends (R83, R150-R163): INIT CMD0, CMD8, ACMD41 with HCS, CMD58, the probe's ACMD41 without,
the legacy loop's ACMD41 or CMD1 by `cmdSel`, CMD16; READ CMD17 or CMD18 with `addr`, then CMD12; WRITE CMD24 or CMD25 with
`addr`, and before CMD25 ACMD23 with the count `cnt`; GetSectorCount CMD9. What a site sends when the register it reads holds
no value, which the invariant rules out, is the model's choice (log 14). -/
def Obligations.SendStepRunsLabelWord : Prop :=
  ∀ s : State, overlapPending s = false →
    (∀ site, s.seq = .escape site → step s = exec .cmd55 s) ∧
    (∀ site, s.seq = .frame site → step s = exec (siteInstr site s.work) s) ∧
    (∀ c ∈ [(Site.initCmd0, Instr.cmd0), (.initCmd8, .cmd8), (.initAcmd41, .acmd41 true), (.initCmd58, .cmd58),
        (.initProbe, .acmd41 false), (.initCmd16, .cmd16), (.readCmd12, .cmd12), (.countCmd9, .cmd9)],
      s.seq = .frame c.1 → step s = exec c.2 s) ∧
    (∀ sel, s.work.cmdSel = some sel → s.seq = .frame .initLoop →
      step s = exec (match sel with | .acmd41 => .acmd41 false | .cmd1 => .cmd1) s) ∧
    (∀ a, s.work.addr = some a →
      ∀ c ∈ [(Site.readCmd17, Instr.cmd17 a), (.readCmd18, .cmd18 a), (.writeCmd24, .cmd24 a), (.writeCmd25, .cmd25 a)],
        s.seq = .frame c.1 → step s = exec c.2 s) ∧
    (∀ n, s.work.cnt = some n → s.seq = .frame .writeAcmd23 → step s = exec (.acmd23 n) s) ∧
    (s.seq = .xmit .single → step s = exec .tokenStartBlock s) ∧
    (s.seq = .xmit .multi → step s = exec .tokenStartMultiWrite s) ∧
    (s.seq = .stop → step s = exec .tokenStopTran s)

/-- A step runs the decoded instruction: a received byte that spells one in the format its step awaits (R85, R93, R105,
R215), over the state just after its exchange: the bus holds the exchange and its event and is otherwise as before, a poll
has counted `n` down by one (R146), a token wait has latched `tok`. At a poll where `n` holds no value, which the invariant
rules out, 0 stands for it (log 14). -/
def Obligations.ReceiveStepRunsByte : Prop :=
  ∀ (s : State) (r : Byte) (b : Bus), overlapPending s = false → xchg 0xFF#8 s.bus = (r, b) →
    (b.trace = s.trace ++ [.x 0xFF#8 r] ∧ b.cs = s.bus.cs ∧ b.clk = s.bus.clk ∧ b.tOp = s.bus.tOp ∧ b.tRdy = s.bus.tRdy) ∧
    (∀ site e, s.seq = .poll site e → r.extractLsb' 7 1 = 0#1 →
      step s = exec (.r1Valid (r.extractLsb' 0 7))
        { s with bus := b, work := { s.work with n := some (s.work.n.getD 0 - 1) } }) ∧
    (∀ use, s.seq = .token use → r = 0xFE#8 →
      step s = exec .tokenStartBlock { s with bus := b, work := { s.work with tok := some 0xFE#8 } }) ∧
    (∀ use, s.seq = .dataResp use → r.extractLsb' 0 5 = 0b00101#5 →
      step s = exec (.dataRespAccepted (r.extractLsb' 5 3)) { s with bus := b })

/-- R70, R267: an operation invoked while another is in progress is refused. Every host operation refuses it; so does a step of
the operation in progress; so does the one step of an operation that would return in it (Sync with its ready wait, STATUS,
GetSectorSize, IOCTL_OTHER, a check's error). No step that returns from an operation leaves such a call to run at IDLE.
That an overlapping call is the host's event `callNow` behind the call it overlaps is the model's choice (log 11). -/
def Obligations.OverlappingCallRefused : Prop :=
  ∀ s : State,
    (∀ i : Instr, s.seq ≠ .idle → i.format = .hostOp → exec i s = .refused .overlappingCall) ∧
    (∀ (bytes : List Byte) (later : List HostEvent), s.seq ≠ .idle → s.host = .callNow bytes :: later →
      step s = .refused .overlappingCall) ∧
    (∀ (bytes rest now : List Byte) (later : List HostEvent) (i : Instr) (t : State), s.seq = .idle →
      (s.host = .call bytes :: .callNow now :: later ∨ s.host = .callNow bytes :: .callNow now :: later) →
      decode .hostOp bytes = .ok (i, rest) → exec i { s with host := .callNow now :: later } = .next t → t.seq = .idle →
      step s = .refused .overlappingCall) ∧
    ∀ t : State, step s = .next t → t.seq = .idle →
      (s.seq ≠ .idle ∨ ∃ bytes later, s.host = .call bytes :: later ∨ s.host = .callNow bytes :: later) →
      overlapPending t = false

/-! ## Reset (R45) -/

/-- R45: the reset value of every piece of state. -/
def Obligations.ResetValues : Prop :=
  State.reset.status = 0x01#8 ∧ State.reset.cardType = 0x00#8 ∧ State.reset.bus.cs = .deasserted ∧
  State.reset.bus.clk = .slow ∧ State.reset.seq = .idle ∧ State.reset.bus.tOp = none ∧ State.reset.bus.tRdy = none ∧
  State.reset.work = Work.empty

/-- The invariant holds at reset. -/
def Obligations.ResetSatisfiesInvariant : Prop := Inv State.reset

/-! ## Host operations -/

/-- R240: STATUS returns `status` for drive 0 and 0x01 for any other, with no transport event and no state written. -/
def Obligations.StatusReturnsRegister : Prop :=
  ∀ (drive : Byte) (s : State), s.seq = .idle →
    ∃ t, exec (.status drive) s = .next t ∧ Returned s t (if drive = 0#8 then s.status else 0x01#8) ∧
      t.trace = [] ∧ t.bus.cs = s.bus.cs ∧ t.bus.tOp = s.bus.tOp ∧ t.bus.tRdy = s.bus.tRdy ∧ t.bus.env = s.bus.env ∧
      SameMemory s t

/-- R181, R183 (with R38, R196): INIT on another drive returns 0x01 with no transport event and nothing changed. On drive 0,
in any driver state, it sets the slow clock, sends ten dummy bytes with `cs` as it is, sets `ty` to 0, and CMD0 is next;
`status`, `cardType` and memory are not yet written. -/
def Obligations.InitPowersUp : Prop :=
  ∀ (drive : Byte) (s : State), s.seq = .idle →
    (drive ≠ 0#8 →
      ∃ t, exec (.init drive) s = .next t ∧ Returned s t 0x01#8 ∧
        t.trace = [] ∧ t.bus.cs = s.bus.cs ∧ t.bus.tOp = s.bus.tOp ∧ t.bus.tRdy = s.bus.tRdy ∧ t.bus.env = s.bus.env ∧
        SameMemory s t) ∧
    (drive = 0#8 →
      ∃ t, exec (.init drive) s = .next t ∧
        (∃ rx : List Byte, rx.length = 10 ∧ t.trace = .clk .slow :: rx.map (fun r => .x 0xFF#8 r)) ∧
        t.bus.clk = .slow ∧ t.bus.cs = s.bus.cs ∧ t.bus.tOp = s.bus.tOp ∧ t.bus.tRdy = s.bus.tRdy ∧
        t.seq = .frame .initCmd0 ∧ t.work = { s.work with ty := some 0x00#8 } ∧ t.result = none ∧ t.buf = s.buf ∧
        SameDriver s t ∧ SameMemory s t ∧ t.host = s.host ∧ t.tokenWaitMode = s.tokenWaitMode)

/-- R211: READ's checks, in order, each without a transport event and without writing the buffer. -/
def Obligations.ReadChecks : Prop :=
  ∀ (drive : Byte) (b : Buf) (sector count : Word) (s : State), s.seq = .idle →
    (drive ≠ 0#8 ∨ count = 0#32 ∨ s.status.getLsbD 0 = true) →
    ∃ t, exec (.read drive b sector count) s = .next t ∧
      Returned s t (if drive ≠ 0#8 ∨ count = 0#32 then 4#8 else 3#8) ∧
      t.trace = [] ∧ t.bus.cs = s.bus.cs ∧ t.bus.tOp = s.bus.tOp ∧ t.bus.tRdy = s.bus.tRdy ∧ t.bus.env = s.bus.env ∧
      SameMemory s t

/-- R210, R212, R213, R214 (the choice of command): a READ that passes its checks loads the converted address and the
count, and CMD17 is next for one block, CMD18 for more; nothing is on the bus yet. -/
def Obligations.ReadBegins : Prop :=
  ∀ (b : Buf) (sector count : Word) (s : State), s.seq = .idle → count ≠ 0#32 → s.status.getLsbD 0 = false →
    ∃ t, exec (.read 0#8 b sector count) s = .next t ∧
      t.seq = .frame (if count = 1#32 then .readCmd17 else .readCmd18) ∧
      t.work = { s.work with
        addr := some (if s.cardType.getLsbD 3 then sector else BitVec.ofNat 32 (sector.toNat * 512)),
        cnt := some count, ptr := some 0 } ∧
      t.buf = some b ∧ t.result = none ∧ t.trace = [] ∧ t.bus.cs = s.bus.cs ∧ t.bus.clk = s.bus.clk ∧
      t.bus.tOp = s.bus.tOp ∧ t.bus.tRdy = s.bus.tRdy ∧ t.bus.env = s.bus.env ∧
      SameDriver s t ∧ SameMemory s t ∧ t.host = s.host ∧ t.tokenWaitMode = s.tokenWaitMode

/-- R217, R263, R265: WRITE's checks, in the order ParamError, NotReady, WriteProtected, each without a transport event. -/
def Obligations.WriteChecks : Prop :=
  ∀ (drive : Byte) (b : Buf) (sector count : Word) (s : State), s.seq = .idle →
    (drive ≠ 0#8 ∨ count = 0#32 ∨ s.status.getLsbD 0 = true ∨ s.status.getLsbD 2 = true) →
    ∃ t, exec (.write drive b sector count) s = .next t ∧
      Returned s t (if drive ≠ 0#8 ∨ count = 0#32 then 4#8 else if s.status.getLsbD 0 then 3#8 else 2#8) ∧
      t.trace = [] ∧ t.bus.cs = s.bus.cs ∧ t.bus.tOp = s.bus.tOp ∧ t.bus.tRdy = s.bus.tRdy ∧ t.bus.env = s.bus.env ∧
      SameMemory s t

/-- R212, R217, R220, R221 (the choice of command): a WRITE that passes its checks loads the converted address and the
count; CMD24 is next for one block; for more, CMD55 and ACMD23 on an SD card, else CMD25. -/
def Obligations.WriteBegins : Prop :=
  ∀ (b : Buf) (sector count : Word) (s : State), s.seq = .idle → count ≠ 0#32 → s.status.getLsbD 0 = false →
    s.status.getLsbD 2 = false →
    ∃ t, exec (.write 0#8 b sector count) s = .next t ∧
      t.seq = (if count = 1#32 then .frame .writeCmd24
        else if s.cardType.getLsbD 1 || s.cardType.getLsbD 2 then .escape .writeAcmd23 else .frame .writeCmd25) ∧
      t.work = { s.work with
        addr := some (if s.cardType.getLsbD 3 then sector else BitVec.ofNat 32 (sector.toNat * 512)),
        cnt := some count, ptr := some 0 } ∧
      t.buf = some b ∧ t.result = none ∧ t.trace = [] ∧ t.bus.cs = s.bus.cs ∧ t.bus.clk = s.bus.clk ∧
      t.bus.tOp = s.bus.tOp ∧ t.bus.tRdy = s.bus.tRdy ∧ t.bus.env = s.bus.env ∧
      SameDriver s t ∧ SameMemory s t ∧ t.host = s.host ∧ t.tokenWaitMode = s.tokenWaitMode

/-- R241: every ioctl first checks the drive and then NotInitialized, whatever its command, without a transport event. -/
def Obligations.IoctlChecks : Prop :=
  ∀ (i : Instr) (drive cmd : Byte) (b : Buf) (s : State), s.seq = .idle →
    i ∈ [.ioctlSync drive b, .ioctlGetSectorCount drive b, .ioctlGetSectorSize drive b, .ioctlOther cmd drive b] →
    (drive ≠ 0#8 ∨ s.status.getLsbD 0 = true) →
    ∃ t, exec i s = .next t ∧ Returned s t (if drive ≠ 0#8 then 4#8 else 3#8) ∧
      t.trace = [] ∧ t.bus.cs = s.bus.cs ∧ t.bus.tOp = s.bus.tOp ∧ t.bus.tRdy = s.bus.tRdy ∧ t.bus.env = s.bus.env ∧
      SameMemory s t

/-- R242: Sync selects, which waits for ready, and deselects; `Ok` when 0xFF came, else `GenericError` after the second
deselect. The buffer is not touched. -/
def Obligations.SyncWaitsForReady : Prop :=
  ∀ (b : Buf) (s : State), s.seq = .idle → s.status.getLsbD 0 = false →
    ∃ (t : State) (ok : Bool) (x y : Byte) (ready : List Event), exec (.ioctlSync 0#8 b) s = .next t ∧
      ok = (select { s.bus with log := [] }).1 ∧ ReadyEvents ok ready ∧
      Returned s t (if ok then 0#8 else 1#8) ∧ t.bus.cs = .deasserted ∧ t.bus.tOp = s.bus.tOp ∧ SameMemory s t ∧
      (if ok then t.trace = [.cs .asserted, .x 0xFF#8 x] ++ ready ++ [.cs .deasserted, .x 0xFF#8 y]
       else ∃ z, t.trace = [.cs .asserted, .x 0xFF#8 x] ++ ready ++
         [.cs .deasserted, .x 0xFF#8 y, .cs .deasserted, .x 0xFF#8 z])

/-- R243: GetSectorCount past its checks: CMD9 is next, for the buffer passed; nothing is on the bus yet. -/
def Obligations.SectorCountBegins : Prop :=
  ∀ (b : Buf) (s : State), s.seq = .idle → s.status.getLsbD 0 = false →
    ∃ t, exec (.ioctlGetSectorCount 0#8 b) s = .next t ∧ t.seq = .frame .countCmd9 ∧ t.buf = some b ∧
      t.work = s.work ∧ t.result = none ∧ t.trace = [] ∧ t.bus.cs = s.bus.cs ∧ t.bus.clk = s.bus.clk ∧
      t.bus.tOp = s.bus.tOp ∧ t.bus.tRdy = s.bus.tRdy ∧ t.bus.env = s.bus.env ∧
      SameDriver s t ∧ SameMemory s t ∧ t.host = s.host ∧ t.tokenWaitMode = s.tokenWaitMode

/-- R246: GetSectorSize writes 0x00, 0x02 at the start of the buffer and no other byte, deselects, and returns `Ok`; R61:
in a buffer shorter than two bytes it has no step. -/
def Obligations.SectorSizeReported : Prop :=
  ∀ (b : Buf) (s : State), s.seq = .idle → s.status.getLsbD 0 = false →
    (2 ≤ b.len.toNat →
      ∃ (t : State) (x : Byte), exec (.ioctlGetSectorSize 0#8 b) s = .next t ∧ Returned s t 0#8 ∧
        t.trace = [.cs .deasserted, .x 0xFF#8 x] ∧ t.bus.cs = .deasserted ∧ t.bus.tOp = s.bus.tOp ∧
        t.bus.tRdy = s.bus.tRdy ∧
        t.mem.read b.base.toNat = 0x00#8 ∧ t.mem.read (b.base.toNat + 1) = 0x02#8 ∧
        ∀ a, a ≠ b.base.toNat → a ≠ b.base.toNat + 1 → t.mem.read a = s.mem.read a) ∧
    (b.len.toNat < 2 → exec (.ioctlGetSectorSize 0#8 b) s = .fault .hostBufferOverrun)

/-- R247: any other ioctl command deselects and returns `ParamError`; the buffer is not touched. -/
def Obligations.UnknownIoctlRejected : Prop :=
  ∀ (cmd : Byte) (b : Buf) (s : State), s.seq = .idle → s.status.getLsbD 0 = false →
    ∃ (t : State) (x : Byte), exec (.ioctlOther cmd 0#8 b) s = .next t ∧ Returned s t 4#8 ∧
      t.trace = [.cs .deasserted, .x 0xFF#8 x] ∧ t.bus.cs = .deasserted ∧ t.bus.tOp = s.bus.tOp ∧
      t.bus.tRdy = s.bus.tRdy ∧ SameMemory s t

/-! ## Command frames (41_command_layer.md) -/

/-- R140, R142, R144, R146: every command but CMD12 and CMD55 deselects, selects, and either sends its six frame bytes and
polls with ten exchanges left, or, on a select timeout, sends nothing and answers 0xFF, deselected: the operation then goes
where an error response (0x7F) takes it. Two parts are the model's and not those rules': that `res` holds that 0xFF (log 23,
DEDUCED), and that a frame is taken at any site's frame label, whichever command the site itself sends (log 12). -/
def Obligations.CommandFrameIssued : Prop :=
  ∀ (i : Instr) (s : State) (site : Site), i.format = .cmdFrame → i ≠ .cmd12 → i ≠ .cmd55 → s.seq = .frame site →
    ∃ (t : State) (ok : Bool) (es : List Event), exec i s = .next t ∧
      ok = (select (deselect s.bus)).1 ∧ ReselectEvents ok es ∧ Untouched s t ∧
      SameMemory s t ∧ t.bus.tOp = s.bus.tOp ∧
      if ok then
        (∃ fr, Exchanges (encode i) fr ∧ t.trace = s.trace ++ es ++ fr) ∧
        t.bus.cs = .asserted ∧ t.seq = .poll site false ∧ t.work = { s.work with n := some 10 }
      else
        t.trace = s.trace ++ es ∧ t.bus.cs = .deasserted ∧
        ∃ u, exec (.r1Valid 0x7F#7) { s with seq := .poll site false, bus := t.bus } = .next u ∧
          t = { u with work := { u.work with res := some 0xFF#8 } }

/-- R141, R142, R160: CMD55 before an application command is a complete command exchange of its own: the reselection, its six
bytes, ten polls. On a select timeout no frame is sent, the answer 0xFF is taken as the command's own error response, and
the intended command is not sent. That `res` holds that 0xFF is the model's choice (log 23, DEDUCED), and so is the label at
which CMD55 is taken (log 12). -/
def Obligations.EscapeCommandIssued : Prop :=
  ∀ (s : State) (site : Site), s.seq = .escape site →
    ∃ (t : State) (ok : Bool) (es : List Event), exec .cmd55 s = .next t ∧
      ok = (select (deselect s.bus)).1 ∧ ReselectEvents ok es ∧ Untouched s t ∧
      SameMemory s t ∧ t.bus.tOp = s.bus.tOp ∧
      if ok then
        (∃ fr, Exchanges [0x77#8, 0#8, 0#8, 0#8, 0#8, 0x01#8] fr ∧ t.trace = s.trace ++ es ++ fr) ∧
        t.bus.cs = .asserted ∧ t.seq = .poll site true ∧ t.work = { s.work with n := some 10 }
      else
        t.trace = s.trace ++ es ∧ t.bus.cs = .deasserted ∧
        ∃ u, exec (.r1Valid 0x7F#7) { s with seq := .poll site true, bus := t.bus } = .next u ∧
          t = { u with work := { u.work with res := some 0xFF#8 } }

/-- R142, R145: CMD12 is sent with no deselect, select or ready wait, and one stuff byte follows its frame, before the ten
polls. That it is taken at any site's frame label is the model's choice (log 12). -/
def Obligations.StopCommandIssued : Prop :=
  ∀ (s : State) (site : Site), s.seq = .frame site →
    ∃ (t : State) (es : List Event), exec .cmd12 s = .next t ∧
      Exchanges [0x4C#8, 0#8, 0#8, 0#8, 0#8, 0x01#8, 0xFF#8] es ∧ t.trace = s.trace ++ es ∧
      t.bus.cs = s.bus.cs ∧ t.bus.tOp = s.bus.tOp ∧ t.bus.tRdy = s.bus.tRdy ∧
      t.seq = .poll site false ∧ t.work = { s.work with n := some 10 } ∧ Untouched s t ∧ SameMemory s t

/-! ## Responses: R1_VALID at each site -/

/-- R141: after CMD55 a response of 0 or 1 lets the application command's own frame follow; a larger one is taken as that
command's response, as after its own poll. -/
def Obligations.EscapeResponse : Prop :=
  ∀ (flags : BitVec 7) (s : State) (site : Site), s.seq = .poll site true →
    (flags.toNat ≤ 1 → exec (.r1Valid flags) s =
      .next { s with seq := .frame site, work := { s.work with res := some (0#1 ++ flags) } }) ∧
    (1 < flags.toNat → exec (.r1Valid flags) s = exec (.r1Valid flags) { s with seq := .poll site false })

/-- R182, R184: after CMD0 only the response 1 goes on: the 1000 ms deadline starts and CMD8 is next; any other value
goes to the finalisation. -/
def Obligations.ResetCommandResponse : Prop :=
  ∀ (flags : BitVec 7) (s : State), s.seq = .poll .initCmd0 false →
    ∃ t, exec (.r1Valid flags) s = .next t ∧ t.work = { s.work with res := some (0#1 ++ flags) } ∧ Untouched s t ∧
      SameMemory s t ∧ t.bus.cs = s.bus.cs ∧ t.bus.tRdy = s.bus.tRdy ∧
      if flags = 1#7 then
        t.seq = .frame .initCmd8 ∧ t.trace = s.trace ++ [.tstart .op 1000] ∧
        ∃ d, t.bus.tOp = some d ∧ d.durationMs = 1000
      else t.seq = .initEnd ∧ t.bus = s.bus

/-- R185, R186: after CMD8 a response of 0 or 1 reads four bytes, and the version-2 loop follows only the echo 0x01 0xAA in
bytes 2 and 3, else the finalisation; a larger response goes to the legacy probe with no byte read. -/
def Obligations.VoltageCheckResponse : Prop :=
  ∀ (flags : BitVec 7) (s : State), s.seq = .poll .initCmd8 false →
    (flags.toNat ≤ 1 →
      ∃ (t : State) (o0 o1 o2 o3 : Byte), exec (.r1Valid flags) s = .next t ∧
        t.work = { s.work with res := some (0#1 ++ flags), ocr := some [o0, o1, o2, o3] } ∧
        t.seq = (if o2 = 0x01#8 ∧ o3 = 0xAA#8 then .loopHead .v2 else .initEnd) ∧
        t.trace = s.trace ++ [.x 0xFF#8 o0, .x 0xFF#8 o1, .x 0xFF#8 o2, .x 0xFF#8 o3] ∧
        t.bus.cs = s.bus.cs ∧ t.bus.tOp = s.bus.tOp ∧ t.bus.tRdy = s.bus.tRdy ∧
        Untouched s t ∧ SameMemory s t) ∧
    (1 < flags.toNat → exec (.r1Valid flags) s =
      .next { s with seq := .escape .initProbe, work := { s.work with res := some (0#1 ++ flags) } })

/-- R187, R190: in a negotiation loop a response of 0 ends the loop (CMD58 is next in version 2, CMD16 in the legacy
branch); any other response goes back to the loop's head. -/
def Obligations.NegotiationResponse : Prop :=
  ∀ (flags : BitVec 7) (s : State),
    (s.seq = .poll .initAcmd41 false → exec (.r1Valid flags) s =
      .next { s with
        seq := if flags = 0#7 then .frame .initCmd58 else .loopHead .v2
        work := { s.work with res := some (0#1 ++ flags) } }) ∧
    (s.seq = .poll .initLoop false → exec (.r1Valid flags) s =
      .next { s with
        seq := if flags = 0#7 then .frame .initCmd16 else .loopHead .legacy
        work := { s.work with res := some (0#1 ++ flags) } })

/-- R187, R190: the head of a negotiation loop queries `T_OP`. While it answers `false` one more command follows (ACMD41
with HCS; in the legacy loop ACMD41 or CMD1 as `cmdSel` says); once it answers `true` the loop ends, and in the legacy
branch (R191) `ty` is cleared. The answer is said through the draw made at the deadline's start, `true` once `falseLeft` is
0: that form of the draw is the model's choice (log 6). -/
def Obligations.NegotiationLoopHead : Prop :=
  ∀ (s : State) (d : Deadline), overlapPending s = false → s.bus.tOp = some d →
    (s.seq = .loopHead .v2 → ∃ t, step s = .next t ∧ Untouched s t ∧ SameMemory s t ∧ t.bus.cs = s.bus.cs ∧
      t.bus.tRdy = s.bus.tRdy ∧ t.trace = s.trace ++ [.exp .op (decide (d.falseLeft = 0))] ∧ t.work = s.work ∧
      t.seq = (if d.falseLeft = 0 then .initEnd else .escape .initAcmd41)) ∧
    (∀ sel, s.seq = .loopHead .legacy → s.work.cmdSel = some sel → ∃ t, step s = .next t ∧ Untouched s t ∧
      SameMemory s t ∧ t.bus.cs = s.bus.cs ∧ t.bus.tRdy = s.bus.tRdy ∧
      t.trace = s.trace ++ [.exp .op (decide (d.falseLeft = 0))] ∧
      t.work = (if d.falseLeft = 0 then { s.work with ty := some 0#8 } else s.work) ∧
      t.seq = (if d.falseLeft = 0 then .initEnd
        else match sel with
          | .acmd41 => .escape .initLoop
          | .cmd1 => .frame .initLoop))

/-- R188, R89: after CMD58 a response of 0 reads the OCR and sets `ty` to SD2, with BLOCK when bit 6 of `ocr[0]` is set;
any other response leaves `ty`. Either way the finalisation is next: the version-2 path sends no CMD16. -/
def Obligations.OcrResponse : Prop :=
  ∀ (flags : BitVec 7) (s : State), s.seq = .poll .initCmd58 false →
    (flags = 0#7 →
      ∃ (t : State) (o0 o1 o2 o3 : Byte), exec (.r1Valid flags) s = .next t ∧ t.seq = .initEnd ∧
        t.work = { s.work with
          res := some 0#8, ocr := some [o0, o1, o2, o3], ty := some (if o0.getLsbD 6 then 0x0C#8 else 0x04#8) } ∧
        t.trace = s.trace ++ [.x 0xFF#8 o0, .x 0xFF#8 o1, .x 0xFF#8 o2, .x 0xFF#8 o3] ∧
        t.bus.cs = s.bus.cs ∧ t.bus.tOp = s.bus.tOp ∧ t.bus.tRdy = s.bus.tRdy ∧
        Untouched s t ∧ SameMemory s t) ∧
    (flags ≠ 0#7 → exec (.r1Valid flags) s =
      .next { s with seq := .initEnd, work := { s.work with res := some (0#1 ++ flags) } })

/-- R189: the legacy probe's response of 0 or 1 marks SD1 and chooses ACMD41; a larger one marks MMC and chooses CMD1; the
legacy loop is next. R191: a CMD16 response other than 0 clears `ty`; the finalisation is next. -/
def Obligations.LegacyBranchResponses : Prop :=
  ∀ (flags : BitVec 7) (s : State),
    (s.seq = .poll .initProbe false → exec (.r1Valid flags) s =
      .next { s with
        seq := .loopHead .legacy
        work := { s.work with
          res := some (0#1 ++ flags)
          ty := some (if flags.toNat ≤ 1 then 0x02#8 else 0x01#8)
          cmdSel := some (if flags.toNat ≤ 1 then .acmd41 else .cmd1) } }) ∧
    (s.seq = .poll .initCmd16 false → exec (.r1Valid flags) s =
      .next { s with
        seq := .initEnd
        work := { s.work with res := some (0#1 ++ flags), ty := if flags = 0#7 then s.work.ty else some 0#8 } })

/-- R213, R214, R215, R243: a response of 0 to CMD17, CMD18 or CMD9 starts the 200 ms deadline and the token wait; any
other response ends the operation, with no CMD12 after CMD18; CMD12's response is ignored. -/
def Obligations.ReadCommandResponse : Prop :=
  ∀ (flags : BitVec 7) (s : State),
    (∀ (site : Site) (use : RecvUse) (failed : Seq),
      (site, use, failed) ∈ [(Site.readCmd17, RecvUse.single, Seq.ioEnd), (.readCmd18, .multi, .ioEnd),
        (.countCmd9, .csd, .countEnd false)] →
      s.seq = .poll site false →
      ∃ t, exec (.r1Valid flags) s = .next t ∧ t.work = { s.work with res := some (0#1 ++ flags) } ∧ Untouched s t ∧
        SameMemory s t ∧ t.bus.cs = s.bus.cs ∧ t.bus.tRdy = s.bus.tRdy ∧
        if flags = 0#7 then
          t.seq = .token use ∧ t.trace = s.trace ++ [.tstart .op 200] ∧ ∃ d, t.bus.tOp = some d ∧ d.durationMs = 200
        else t.seq = failed ∧ t.bus = s.bus) ∧
    (s.seq = .poll .readCmd12 false → exec (.r1Valid flags) s =
      .next { s with seq := .ioEnd, work := { s.work with res := some (0#1 ++ flags) } })

/-- R220, R221: a response of 0 to CMD24 or CMD25 leads to the data packet, any other to the end of the operation with no
stop token; ACMD23's response is ignored and CMD25 follows. -/
def Obligations.WriteCommandResponse : Prop :=
  ∀ (flags : BitVec 7) (s : State),
    (s.seq = .poll .writeCmd24 false → exec (.r1Valid flags) s =
      .next { s with
        seq := if flags = 0#7 then .xmit .single else .ioEnd
        work := { s.work with res := some (0#1 ++ flags) } }) ∧
    (s.seq = .poll .writeCmd25 false → exec (.r1Valid flags) s =
      .next { s with
        seq := if flags = 0#7 then .xmit .multi else .ioEnd
        work := { s.work with res := some (0#1 ++ flags) } }) ∧
    (s.seq = .poll .writeAcmd23 false → exec (.r1Valid flags) s =
      .next { s with seq := .frame .writeCmd25, work := { s.work with res := some (0#1 ++ flags) } })

/-- R146: a polled byte with bit 7 set goes on polling with one exchange less, and after the tenth it is the response: the
operation then goes where an error response (0x7F) takes it, with that byte in `res`, and has read no further byte. Nothing
else changes while the poll goes on. -/
def Obligations.PollGoesOn : Prop :=
  ∀ (s : State) (site : Site) (e : Bool) (r : Byte) (k : Nat), overlapPending s = false →
    s.seq = .poll site e → (xchg 0xFF#8 s.bus).1 = r → r.getLsbD 7 = true → s.work.n = some (k + 1) →
    ∃ t, step s = .next t ∧ t.work.res = some r ∧ Untouched s t ∧ SameMemory s t ∧ t.bus.cs = s.bus.cs ∧
      t.trace = s.trace ++ [.x 0xFF#8 r] ∧ t.work.n = some k ∧
      (k ≠ 0 → t = { s with bus := (xchg 0xFF#8 s.bus).2, work := { s.work with n := some k, res := some r } }) ∧
      (k = 0 → ∃ u, exec (.r1Valid 0x7F#7) { s with bus := (xchg 0xFF#8 s.bus).2, work := { s.work with n := some 0 } } =
        .next u ∧ t = { u with work := { u.work with res := some r } })

/-! ## Data tokens (43_block_io.md) -/

/-- R215: a byte other than 0xFE in the token wait. Under `FF_ONLY` a byte that is not 0xFF ends the wait with failure at
once; otherwise the deadline is queried, and the wait goes on while it answers `false`. A failed wait leads to the end of
a single read, to CMD12 in a multi-block read (R214), to the failing end of GetSectorCount (R243). The answer is said through
the draw made at the deadline's start, `true` once `falseLeft` is 0: that form of the draw is the model's choice (log 6). -/
def Obligations.TokenWaitGoesOn : Prop :=
  ∀ (s : State) (use : RecvUse) (r : Byte) (d : Deadline), overlapPending s = false →
    s.seq = .token use → (xchg 0xFF#8 s.bus).1 = r → r ≠ 0xFE#8 → s.bus.tOp = some d →
    ∃ t, step s = .next t ∧ t.work = { s.work with tok := some r } ∧ Untouched s t ∧ SameMemory s t ∧
      t.bus.cs = s.bus.cs ∧ t.bus.tRdy = s.bus.tRdy ∧
      if s.tokenWaitMode = .ffOnly ∧ r ≠ 0xFF#8 then
        t.trace = s.trace ++ [.x 0xFF#8 r] ∧
        t.seq = (match use with | .single => .ioEnd | .multi => .frame .readCmd12 | .csd => .countEnd false)
      else
        t.trace = s.trace ++ [.x 0xFF#8 r, .exp .op (decide (d.falseLeft = 0))] ∧
        t.seq = (if d.falseLeft = 0 then
            (match use with | .single => .ioEnd | .multi => .frame .readCmd12 | .csd => .countEnd false)
          else .token use)

/-- R216, R62 (and R213): after the token of a single-block read, the 512 payload bytes are written in order at `buf + ptr`
and nowhere else, the two CRC bytes are discarded whatever they are, and the count becomes 0. -/
def Obligations.SingleBlockReceived : Prop :=
  ∀ (s : State) (b : Buf) (p : Nat),
    s.seq = .token .single → s.buf = some b → s.work.ptr = some p → p + 512 ≤ b.len.toNat →
    ∃ (t : State) (payload : List Byte) (c0 c1 : Byte), exec .tokenStartBlock s = .next t ∧ payload.length = 512 ∧
      t.trace = s.trace ++ payload.map (fun r => .x 0xFF#8 r) ++ [.x 0xFF#8 c0, .x 0xFF#8 c1] ∧
      (∀ i (h : i < payload.length), t.mem.read (b.base.toNat + p + i) = payload[i]) ∧
      (∀ a, (a < b.base.toNat + p ∨ b.base.toNat + p + 512 ≤ a) → t.mem.read a = s.mem.read a) ∧
      t.seq = .ioEnd ∧ t.work = { s.work with cnt := some 0#32 } ∧ Untouched s t ∧
      t.bus.cs = s.bus.cs ∧ t.bus.tOp = s.bus.tOp ∧ t.bus.tRdy = s.bus.tRdy

/-- R216, R62, R214: a block of a multi-block read is written at `buf + ptr` and nowhere else; `ptr` advances by 512 and
the count falls by one; CMD12 is next once the count is 0, else a new 200 ms token wait. -/
def Obligations.MultiBlockReceived : Prop :=
  ∀ (s : State) (b : Buf) (p : Nat) (n : Word),
    s.seq = .token .multi → s.buf = some b → s.work.ptr = some p → s.work.cnt = some n → p + 512 ≤ b.len.toNat →
    ∃ (t : State) (payload : List Byte) (c0 c1 : Byte), exec .tokenStartBlock s = .next t ∧ payload.length = 512 ∧
      (∀ i (h : i < payload.length), t.mem.read (b.base.toNat + p + i) = payload[i]) ∧
      (∀ a, (a < b.base.toNat + p ∨ b.base.toNat + p + 512 ≤ a) → t.mem.read a = s.mem.read a) ∧
      t.work = { s.work with ptr := some (p + 512), cnt := some (n - 1#32) } ∧ Untouched s t ∧
      t.bus.cs = s.bus.cs ∧ t.bus.tRdy = s.bus.tRdy ∧
      if n = 1#32 then
        t.seq = .frame .readCmd12 ∧ t.bus.tOp = s.bus.tOp ∧
        t.trace = s.trace ++ payload.map (fun r => .x 0xFF#8 r) ++ [.x 0xFF#8 c0, .x 0xFF#8 c1]
      else
        t.seq = .token .multi ∧ (∃ d, t.bus.tOp = some d ∧ d.durationMs = 200) ∧
        t.trace = s.trace ++ payload.map (fun r => .x 0xFF#8 r) ++ [.x 0xFF#8 c0, .x 0xFF#8 c1, .tstart .op 200]

/-- R243 (with R65, R66): the 16 CSD bytes go into `csd[0..15]` in arrival order; the host buffer is written, with the count
least significant byte first and nowhere else, only when the CSD parses. A CSD that does not parse completes over any
buffer, also one too short for a count, since nothing is written (log 10 says where the model checks the buffer). -/
def Obligations.CapacityReceived : Prop :=
  ∀ (s : State) (b : Buf), s.seq = .token .csd → s.buf = some b →
    (4 ≤ b.len.toNat ∨ parseCsd (receiveBytes 16 s.bus).1 = none) →
    ∃ (t : State) (csd : List Byte) (c0 c1 : Byte), exec .tokenStartBlock s = .next t ∧ csd.length = 16 ∧
      csd = (receiveBytes 16 s.bus).1 ∧
      t.work = { s.work with csd := some csd } ∧ Untouched s t ∧
      t.trace = s.trace ++ csd.map (fun r => .x 0xFF#8 r) ++ [.x 0xFF#8 c0, .x 0xFF#8 c1] ∧
      t.bus.cs = s.bus.cs ∧ t.bus.tOp = s.bus.tOp ∧ t.bus.tRdy = s.bus.tRdy ∧
      (∀ a, (a < b.base.toNat ∨ b.base.toNat + 4 ≤ a) → t.mem.read a = s.mem.read a) ∧
      match parseCsd csd with
      | some v => t.seq = .countEnd true ∧
          v = t.mem.read (b.base.toNat + 3) ++ t.mem.read (b.base.toNat + 2) ++ t.mem.read (b.base.toNat + 1) ++
            t.mem.read b.base.toNat
      | none => t.seq = .countEnd false ∧ SameMemory s t

/-- A block, a count or a payload outside the buffer has no step (R61): the receive stops, so does the send once the card is
ready, and so does a capacity that parses. The stop's form, a fault raised once for the whole access, is the model's choice
(log 10). -/
def Obligations.BufferOverrunStops : Prop :=
  ∀ (s : State) (b : Buf), s.buf = some b →
    (∀ p, s.work.ptr = some p → b.len.toNat < p + 512 →
      (∀ use, use ≠ .csd → s.seq = .token use → exec .tokenStartBlock s = .fault .hostBufferOverrun) ∧
      ((waitReady s.bus).1 = true →
        (s.seq = .xmit .single → exec .tokenStartBlock s = .fault .hostBufferOverrun) ∧
        (s.seq = .xmit .multi → exec .tokenStartMultiWrite s = .fault .hostBufferOverrun))) ∧
    (s.seq = .token .csd → b.len.toNat < 4 → (parseCsd (receiveBytes 16 s.bus).1).isSome = true →
      exec .tokenStartBlock s = .fault .hostBufferOverrun)

/-- R244: the version-2 count is `((c + 1) << 10) mod 2^32` with
`c = (csd[7] & 0x3F) << 16 | csd[8] << 8 | csd[9]`, and never fails. R245: the legacy count is `(c + 1) << (e - 9)`, and FAIL
when `e < 9`, with `e = (csd[5] & 0x0F) + ((csd[10] & 0x80) >> 7) + ((csd[9] & 0x03) << 1) + 2` and
`c = (csd[8] >> 6) | (csd[7] << 2) | ((csd[6] & 0x03) << 10)`; `e` is 2 to 24 and the count at most 2^27. -/
def Obligations.CapacityParse : Prop :=
  ∀ csd : List Byte, csd.length = 16 →
    ((csd.getD 0 0#8).toNat / 64 = 1 →
      parseCsd csd = some (BitVec.ofNat 32
        ((((csd.getD 7 0#8).toNat % 64 * 65536 + (csd.getD 8 0#8).toNat * 256 + (csd.getD 9 0#8).toNat) + 1) * 1024))) ∧
    ∀ e c : Nat, (csd.getD 0 0#8).toNat / 64 ≠ 1 →
      e = (csd.getD 5 0#8).toNat % 16 + (csd.getD 10 0#8).toNat / 128 + (csd.getD 9 0#8).toNat % 4 * 2 + 2 →
      c = (csd.getD 8 0#8).toNat / 64 + (csd.getD 7 0#8).toNat * 4 + (csd.getD 6 0#8).toNat % 4 * 1024 →
      (e < 9 → parseCsd csd = none) ∧ 2 ≤ e ∧ e ≤ 24 ∧
      (9 ≤ e → ∃ v, parseCsd csd = some v ∧ v.toNat = (c + 1) * 2 ^ (e - 9) ∧ v.toNat ≤ 2 ^ 27)

/-- R218, R219, R221: TOKEN_START_BLOCK sends a CMD24 block and TOKEN_START_MULTI_WRITE a CMD25 block: the ready wait, then
the token, the 512 bytes at `buf + ptr` in order, and 0xFF 0xFF; the data response is next. On a timeout no token is sent
and the block has failed, whether or not the buffer holds a block (the model checks the buffer after the ready wait, log
10). Memory is only read. -/
def Obligations.PacketSent : Prop :=
  ∀ (i : Instr) (token : Byte) (use : XmitUse) (s : State) (b : Buf) (p : Nat),
    (i, token, use) ∈ [(Instr.tokenStartBlock, 0xFE#8, XmitUse.single), (.tokenStartMultiWrite, 0xFC#8, .multi)] →
    s.seq = .xmit use → s.buf = some b → s.work.ptr = some p →
    (p + 512 ≤ b.len.toNat ∨ (waitReady s.bus).1 = false) →
    ∃ (t : State) (ok : Bool) (ready : List Event), exec i s = .next t ∧
      ok = (waitReady s.bus).1 ∧ ReadyEvents ok ready ∧ Untouched s t ∧
      SameMemory s t ∧ t.bus.cs = s.bus.cs ∧ t.bus.tOp = s.bus.tOp ∧ t.work = s.work ∧
      if ok then
        t.seq = .dataResp use ∧
        ∃ (payload : List Byte) (es : List Event), payload.length = 512 ∧
          (∀ k (h : k < payload.length), payload[k] = s.mem.read (b.base.toNat + p + k)) ∧
          Exchanges (token :: (payload ++ [0xFF#8, 0xFF#8])) es ∧ t.trace = s.trace ++ ready ++ es
      else
        t.trace = s.trace ++ ready ∧ t.seq = (match use with | .single => .ioEnd | .multi => .stop)

/-- R222: the stop token is the ready wait and the single byte 0xFD; on a timeout it is not sent and `cnt` becomes 1. -/
def Obligations.StopTokenSent : Prop :=
  ∀ s : State, s.seq = .stop →
    ∃ (t : State) (ok : Bool) (ready : List Event), exec .tokenStopTran s = .next t ∧
      ok = (waitReady s.bus).1 ∧ ReadyEvents ok ready ∧ Untouched s t ∧
      SameMemory s t ∧ t.bus.cs = s.bus.cs ∧ t.bus.tOp = s.bus.tOp ∧ t.seq = .ioEnd ∧
      if ok then t.work = s.work ∧ ∃ r, t.trace = s.trace ++ ready ++ [.x 0xFD#8 r]
      else t.work = { s.work with cnt := some 1#32 } ∧ t.trace = s.trace ++ ready

/-- R93, R219, R220, R221: an accepted data response, whatever its bits 7:5, completes the block: a single write's count
becomes 0; in a multi-block write `ptr` advances, the count falls, and the stop token is next once it is 0. The response
is the byte of one exchange, and any low five bits but 0b00101 fail the block: the stop token still follows in a
multi-block write. -/
def Obligations.DataResponse : Prop :=
  ∀ s : State,
    (∀ ignored : BitVec 3,
      (s.seq = .dataResp .single → exec (.dataRespAccepted ignored) s =
        .next { s with seq := .ioEnd, work := { s.work with cnt := some 0#32 } }) ∧
      (∀ (p : Nat) (n : Word), s.seq = .dataResp .multi → s.work.ptr = some p → s.work.cnt = some n →
        exec (.dataRespAccepted ignored) s =
          .next { s with
            seq := if n = 1#32 then .stop else .xmit .multi
            work := { s.work with ptr := some (p + 512), cnt := some (n - 1#32) } })) ∧
    (∀ (use : XmitUse) (r : Byte), overlapPending s = false → s.seq = .dataResp use → (xchg 0xFF#8 s.bus).1 = r →
      r.toNat % 32 ≠ 5 →
      ∃ t, step s = .next t ∧ t.work = s.work ∧ Untouched s t ∧ SameMemory s t ∧ t.bus.cs = s.bus.cs ∧
        t.bus.tOp = s.bus.tOp ∧ t.bus.tRdy = s.bus.tRdy ∧ t.trace = s.trace ++ [.x 0xFF#8 r] ∧
        t.seq = (match use with | .single => .ioEnd | .multi => .stop))

/-! ## Ends of operations -/

/-- R192, R194: INIT's finalisation writes `cardType` and bit 0 of `status` alone, deselects, sets the fast clock only when
a card type was established, and returns the new `status`. -/
def Obligations.InitFinalisation : Prop :=
  ∀ (s : State) (ty : Byte), overlapPending s = false → s.seq = .initEnd → s.work.ty = some ty →
    ∃ (t : State) (x : Byte), step s = .next t ∧ t.cardType = ty ∧
      t.status = (if ty = 0#8 then s.status ||| 0x01#8 else s.status &&& 0xFE#8) ∧
      t.result = some t.status ∧ t.seq = .idle ∧ t.work = Work.empty ∧ t.buf = none ∧ t.bus.cs = .deasserted ∧
      t.bus.clk = (if ty = 0#8 then s.bus.clk else .fast) ∧
      t.trace = s.trace ++ [.cs .deasserted, .x 0xFF#8 x] ++ (if ty = 0#8 then [] else [.clk .fast]) ∧
      t.bus.tOp = s.bus.tOp ∧ t.bus.tRdy = s.bus.tRdy ∧ SameMemory s t ∧ t.host = s.host ∧
      t.tokenWaitMode = s.tokenWaitMode

/-- R223: READ and WRITE end with a deselect and return `Ok` if the count is 0, else `GenericError`; R243, R248:
GetSectorCount ends with a deselect and its result. -/
def Obligations.TransferEnds : Prop :=
  ∀ (s : State) (v : Byte), overlapPending s = false →
    ((∃ n : Word, s.seq = .ioEnd ∧ s.work.cnt = some n ∧ v = (if n = 0#32 then 0#8 else 1#8)) ∨
      (∃ ok : Bool, s.seq = .countEnd ok ∧ v = (if ok then 0#8 else 1#8))) →
    ∃ (t : State) (x : Byte), step s = .next t ∧ Returned s t v ∧
      t.trace = s.trace ++ [.cs .deasserted, .x 0xFF#8 x] ∧ t.bus.cs = .deasserted ∧ t.bus.tOp = s.bus.tOp ∧
      t.bus.tRdy = s.bus.tRdy ∧ SameMemory s t

/-! ## Deadlines -/

/-- R120: an exchange records the byte sent and the byte received, whatever the card-select line, and the received byte is
the environment's draw (log 5). R121, R122: the line and the clock take the value given, and the event is recorded even when they
already have it. R123: starting a deadline records it and its duration, discards the previous one, and leaves the other. That
the draw is the head of a script while the script lasts is the model's choice (log 5). -/
def Obligations.TransportPrimitives : Prop :=
  ∀ b : Bus,
    (∀ tx, ∃ r b', xchg tx b = (r, b') ∧ b'.trace = b.trace ++ [.x tx r] ∧ b'.cs = b.cs ∧ b'.clk = b.clk ∧
      b'.tOp = b.tOp ∧ b'.tRdy = b.tRdy ∧
      ∀ r' later, b.env.rxIn = r' :: later → r = r' ∧ b'.env.rxIn = later) ∧
    ((csAssert b).cs = .asserted ∧ (csAssert b).trace = b.trace ++ [.cs .asserted] ∧ (csAssert b).env = b.env) ∧
    ((csDeassert b).cs = .deasserted ∧ (csDeassert b).trace = b.trace ++ [.cs .deasserted] ∧ (csDeassert b).env = b.env) ∧
    (∀ c, (setClock c b).clk = c ∧ (setClock c b).trace = b.trace ++ [.clk c] ∧ (setClock c b).env = b.env) ∧
    ∀ ms,
      (∃ d, (timerStart .op ms b).tOp = some d ∧ d.durationMs = ms) ∧ (timerStart .op ms b).tRdy = b.tRdy ∧
      (∃ d, (timerStart .rdy ms b).tRdy = some d ∧ d.durationMs = ms) ∧ (timerStart .rdy ms b).tOp = b.tOp ∧
      ∀ t, (timerStart t ms b).trace = b.trace ++ [.tstart t ms] ∧ (timerStart t ms b).cs = b.cs ∧
        (timerStart t ms b).clk = b.clk ∧ (timerStart t ms b).env.rxIn = b.env.rxIn

/-- The ready wait (R127, R126): `waitReady` after `busy` bytes other than 0xFF, when the deadline's draw lets `k` queries answer `false`
(log 6): 0xFF within the first `k + 1` exchanges gives `true`, with no query after it and nothing more exchanged; `k + 1`
busy bytes give `false`. `select` asserts the card, exchanges one byte, and answers what its ready wait answers. The script of
received bytes is the model's choice too (log 5). -/
def Obligations.ReadyWaitOutcome : Prop :=
  ∀ (b : Bus) (busy later : List Byte) (k : Nat) (draws : List Nat),
    b.env.expIn = k :: draws → (∀ d ∈ busy, d ≠ 0xFF#8) →
    (busy.length ≤ k → b.env.rxIn = busy ++ 0xFF#8 :: later →
      (waitReady b).1 = true ∧ (waitReady b).2.env.rxIn = later ∧
      (waitReady b).2.trace = b.trace ++ .tstart .rdy 500 :: (busyEvents busy ++ [.x 0xFF#8 0xFF#8])) ∧
    (∀ d, busy.length = k → d ≠ 0xFF#8 → b.env.rxIn = busy ++ d :: later →
      (waitReady b).1 = false ∧ (waitReady b).2.env.rxIn = later ∧
      (waitReady b).2.trace =
        b.trace ++ .tstart .rdy 500 :: (busyEvents busy ++ [.x 0xFF#8 d, .exp .rdy true])) ∧
    (select b).1 = (waitReady (xchg 0xFF#8 (csAssert b)).2).1

/-- After every start, some finite number of queries answers `false` and every later one answers `true` (R124 a, b), stated for
queries one after another. That the draw is that number is the model's choice (log 6). -/
def Obligations.ExpiryMonotoneAndFair : Prop :=
  ∀ (t : TimerId) (ms : Nat) (b : Bus), ∃ k, ∀ j,
    (expired t (Nat.iterate (fun b => (expired t b).2) j (timerStart t ms b))).1 = decide (k ≤ j)

/-! ## Whole-machine rules -/

/-- Every step keeps the invariant (R31, R33-R37, R39, R130, R142, R146 and the canonical form of memory). -/
def Obligations.StepKeepsInvariant : Prop := ∀ s t : State, Inv s → step s = .next t → Inv t

/-- R34, R266: no step but INIT's finalisation writes `cardType` or the NotInitialized bit, and in an operation no other
step writes any bit of `status`; the finalisation writes no bit of `status` but bit 0 (R192). At IDLE only SocketUpdate
changes `status`, and leaves bit 0 and bits 7:3. -/
def Obligations.OnlyInitWritesDriverState : Prop :=
  ∀ s t : State, step s = .next t →
    (s.seq = .initEnd → t.status &&& 0xFE#8 = s.status &&& 0xFE#8) ∧
    (s.seq ≠ .initEnd →
      t.cardType = s.cardType ∧ (s.seq ≠ .idle → t.status = s.status) ∧
      (s.seq = .idle → t.status &&& 0xF9#8 = s.status &&& 0xF9#8) ∧
      (s.seq = .idle → (∀ nd wp later, s.host ≠ .socketUpdate nd wp :: later) → t.status = s.status))

/-- R31: SocketUpdate writes bits 1 and 2 of `status` and nothing else. It happens only between operations: while one is in
progress a step leaves the event in the host's queue and writes neither bit. -/
def Obligations.SocketUpdateWritesTwoBits : Prop :=
  ∀ (s : State) (nd wp : Bool) (later : List HostEvent), s.host = .socketUpdate nd wp :: later →
    (s.seq = .idle →
      ∃ t, step s = .next t ∧ t.status.getLsbD 1 = nd ∧ t.status.getLsbD 2 = wp ∧
        t.status &&& 0xF9#8 = s.status &&& 0xF9#8 ∧ t = { s with status := t.status, host := later }) ∧
    (s.seq ≠ .idle → ∀ t, step s = .next t →
      t.host = s.host ∧ t.status &&& 0x06#8 = s.status &&& 0x06#8)

/-- R36, R130: only INIT changes the clock: its power-up step to slow, its finalisation to fast, and that only when it has
established a card type. -/
def Obligations.OnlyInitChangesClock : Prop :=
  ∀ s t : State, step s = .next t → t.bus.clk ≠ s.bus.clk →
    (s.seq = .idle ∧ t.seq = .frame .initCmd0 ∧ t.bus.clk = .slow) ∨
    (s.seq = .initEnd ∧ t.bus.clk = .fast ∧ t.cardType ≠ 0x00#8)

/-- R35, R129: every step that returns from an operation leaves the card deselected, with the deselect and its dummy byte as
the last exchange of the operation's trace; only the clock switch of a successful INIT follows it. That holds of a step
that ends an operation in progress, and of a call that returns in its one step, unless its trace is empty: STATUS and the
early rejections. -/
def Obligations.BusReleasedAtReturn : Prop :=
  ∀ s t : State, step s = .next t → t.seq = .idle →
    (s.seq ≠ .idle ∨
      (∃ bytes later, s.host = .call bytes :: later ∨ s.host = .callNow bytes :: later) ∧ t.trace ≠ []) →
    t.bus.cs = .deasserted ∧
    ∃ (es : List Event) (x : Byte),
      t.trace = es ++ [.cs .deasserted, .x 0xFF#8 x] ∨ t.trace = es ++ [.cs .deasserted, .x 0xFF#8 x, .clk .fast]

/-- R62, R224: in an operation, host memory changes only in the step that receives a block or a capacity after its token
0xFE, and only inside the buffer passed to the operation. -/
def Obligations.MemoryWrittenOnlyInBuffer : Prop :=
  ∀ s t : State, step s = .next t → s.seq ≠ .idle →
    ((∀ use, s.seq ≠ .token use) ∨ (xchg 0xFF#8 s.bus).1 ≠ 0xFE#8 → t.mem = s.mem) ∧
    (∀ b a, s.buf = some b → (a < b.base.toNat ∨ b.base.toNat + b.len.toNat ≤ a) → t.mem.read a = s.mem.read a)

/-- An operation in progress returns to IDLE after finitely many steps (R6, R124 b, R268), or is stuck at the end of a host
buffer that is too short (R61; log 10), whatever the host has queued, short of a call that does not wait (R70). Fairness is
the form of the expiry draw (log 6); what a step is, is the model's (log 1). -/
def Obligations.EveryOperationReturns : Prop :=
  ∀ s : State, overlapPending s = false → ∃ n,
    (∃ t, Host.Core.run Sys2Proof.core n s = .next t ∧ t.seq = .idle) ∨
    Host.Core.run Sys2Proof.core n s = .fault .hostBufferOverrun

/-- R210, R213, R216, R223 on one run: a READ of one block from a card that is ready, answers 0 at once and sends its token
at once returns `Ok` in five steps with the payload in the buffer, nothing else of memory changed, the driver state
unchanged and the card deselected. That it takes five steps is the model's granularity (log 1), the call's bytes are its
layout (log 2), and the script of received bytes is its choice (log 5). -/
def Obligations.SingleBlockReadRun : Prop :=
  ∀ (s : State) (b : Buf) (sector : Word) (bytes more : List Byte) (a0 a1 f0 f1 f2 f3 f4 f5 c0 c1 z : Byte)
    (payload later : List Byte),
    s.seq = .idle → s.host = [.call bytes] → decode .hostOp bytes = .ok (.read 0#8 b sector 1#32, more) →
    s.status.getLsbD 0 = false → 512 ≤ b.len.toNat → payload.length = 512 →
    s.bus.env.rxIn =
      [a0, a1, 0xFF#8, f0, f1, f2, f3, f4, f5, 0x00#8, 0xFE#8] ++ payload ++ c0 :: c1 :: z :: later →
    ∃ t : State, Host.Core.run Sys2Proof.core 5 s = .next t ∧ t.result = some 0#8 ∧ t.seq = .idle ∧
      (∀ i (h : i < payload.length), t.mem.read (b.base.toNat + i) = payload[i]) ∧
      (∀ a, (a < b.base.toNat ∨ b.base.toNat + 512 ≤ a) → t.mem.read a = s.mem.read a) ∧
      SameDriver s t ∧ t.bus.cs = .deasserted ∧ t.bus.clk = s.bus.clk ∧ t.bus.env.rxIn = later

/-- R217, R218, R219, R220, R223 on one run: a WRITE of one block to a card that is ready and accepts it returns `Ok` in six
steps; what it sends after the command is 0xFE, the 512 bytes of the buffer in order, and 0xFF 0xFF. That it takes six steps
is the model's granularity (log 1), the call's bytes are its layout (log 2), and the script of received bytes is its choice
(log 5). -/
def Obligations.SingleBlockWriteRun : Prop :=
  ∀ (s : State) (b : Buf) (sector : Word) (bytes more : List Byte) (a0 a1 f0 f1 f2 f3 f4 f5 r z : Byte)
    (echo later : List Byte),
    s.seq = .idle → s.host = [.call bytes] → decode .hostOp bytes = .ok (.write 0#8 b sector 1#32, more) →
    s.status.getLsbD 0 = false → s.status.getLsbD 2 = false → 512 ≤ b.len.toNat → echo.length = 515 →
    r.toNat % 32 = 5 →
    s.bus.env.rxIn =
      [a0, a1, 0xFF#8, f0, f1, f2, f3, f4, f5, 0x00#8, 0xFF#8] ++ echo ++ r :: z :: later →
    ∃ (t : State) (es : List Event) (payload : List Byte), Host.Core.run Sys2Proof.core 6 s = .next t ∧
      t.result = some 0#8 ∧ t.seq = .idle ∧ SameMemory s t ∧ SameDriver s t ∧ t.bus.cs = .deasserted ∧
      t.bus.env.rxIn = later ∧ payload.length = 512 ∧
      (∀ k (h : k < payload.length), payload[k] = s.mem.read (b.base.toNat + k)) ∧
      t.trace = es ++ List.zipWith .x (0xFE#8 :: (payload ++ [0xFF#8, 0xFF#8])) echo ++
        [.x 0xFF#8 r, .cs .deasserted, .x 0xFF#8 z]

/-- R195, R290 (the absent card of R198): an INIT whose every received byte is 0xFF fails after ten polls of CMD0: 0x01 with
bits 1 and 2 kept, no card type, the slow clock, the card deselected, and CMD0 the only frame sent. That it takes 13 steps is
the model's granularity (log 1), the call's bytes are its layout (log 2), and the script of received bytes is its choice
(log 5). -/
def Obligations.AbsentCardInitFails : Prop :=
  ∀ (s : State) (bytes more later : List Byte),
    s.seq = .idle → s.host = [.call bytes] → decode .hostOp bytes = .ok (.init 0#8, more) →
    s.bus.env.rxIn = List.replicate 30 0xFF#8 ++ later →
    ∃ t : State, Host.Core.run Sys2Proof.core 13 s = .next t ∧ t.result = some (s.status ||| 0x01#8) ∧
      t.status = s.status ||| 0x01#8 ∧ t.cardType = 0x00#8 ∧ t.seq = .idle ∧ t.bus.clk = .slow ∧
      t.bus.cs = .deasserted ∧ SameMemory s t ∧ t.bus.env.rxIn = later ∧
      t.trace = .clk .slow :: (List.replicate 10 (.x 0xFF#8 0xFF#8) ++
        [.cs .deasserted, .x 0xFF#8 0xFF#8, .cs .asserted, .x 0xFF#8 0xFF#8, .tstart .rdy 500, .x 0xFF#8 0xFF#8] ++
        [.x 0x40#8 0xFF#8, .x 0x00#8 0xFF#8, .x 0x00#8 0xFF#8, .x 0x00#8 0xFF#8, .x 0x00#8 0xFF#8, .x 0x95#8 0xFF#8] ++
        List.replicate 10 (.x 0xFF#8 0xFF#8) ++ [.cs .deasserted, .x 0xFF#8 0xFF#8])
end

