-- ==== Sys2Proof/Laws/Memory.lean ====
section
/-! SUPPORT. The laws of the host's memory: a read after a write, what a write leaves, and that every memory operation keeps the
canonical form. -/

namespace Sys2Proof.Machine

@[simp] theorem Memory.read_nil (a : Nat) : Memory.read [] a = Memory.unlisted := rfl

theorem Memory.read_cons (c : Host.Cell) (m : Memory) (a : Nat) :
    Memory.read (c :: m) a = if c.1 = a then c.2 else Memory.read m a := rfl

theorem Memory.without_cons (c : Host.Cell) (m : Memory) (a : Nat) :
    Memory.without (c :: m) a = if c.1 = a then Memory.without m a else c :: Memory.without m a := by
  by_cases h : c.1 = a <;> simp [Memory.without, h]

theorem Memory.read_without_self (m : Memory) (a : Nat) : Memory.read (Memory.without m a) a = Memory.unlisted := by
  induction m with
  | nil => rfl
  | cons c m ih =>
    rw [Memory.without_cons]
    split
    · exact ih
    · rename_i h; rw [Memory.read_cons, if_neg h, ih]

theorem Memory.read_without_other (m : Memory) {a a' : Nat} (h : a' ≠ a) :
    Memory.read (Memory.without m a) a' = Memory.read m a' := by
  induction m with
  | nil => rfl
  | cons c m ih =>
    rw [Memory.without_cons]
    split
    · rename_i hc; rw [ih, Memory.read_cons, if_neg (by omega)]
    · rw [Memory.read_cons, Memory.read_cons, ih]

theorem Memory.read_place_other (m : Memory) {a a' : Nat} (b : Byte) (h : a' ≠ a) :
    Memory.read (Memory.place m a b) a' = Memory.read m a' := by
  induction m with
  | nil => simp [Memory.place, Memory.read_cons, Ne.symm h]
  | cons c m ih =>
    obtain ⟨k, v⟩ := c
    simp only [Memory.place]
    split
    · rw [Memory.read_cons, if_neg (Ne.symm h)]
    · rw [Memory.read_cons, Memory.read_cons, ih]

theorem Memory.read_place_self (m : Memory) (a : Nat) (b : Byte) (h : ∀ c ∈ m, c.1 ≠ a) :
    Memory.read (Memory.place m a b) a = b := by
  induction m with
  | nil => simp [Memory.place, Memory.read_cons]
  | cons c m ih =>
    obtain ⟨k, v⟩ := c
    simp only [Memory.place]
    split
    · simp [Memory.read_cons]
    · rw [Memory.read_cons, if_neg (h _ List.mem_cons_self), ih fun c hc => h c (List.mem_cons_of_mem _ hc)]

theorem Memory.mem_without {m : Memory} {a : Nat} {c : Host.Cell} (h : c ∈ Memory.without m a) : c ∈ m ∧ c.1 ≠ a := by
  simpa [Memory.without] using h

/-- A read after a write to the same address gives the byte written. -/
@[simp] theorem Memory.read_write_self (m : Memory) (a : Nat) (b : Byte) : Memory.read (Memory.write m a b) a = b := by
  unfold Memory.write
  split
  · rename_i h; rw [Memory.read_without_self, h]
  · exact Memory.read_place_self _ _ _ fun c hc => (Memory.mem_without hc).2

/-- A write leaves every other address. -/
theorem Memory.read_write_other (m : Memory) {a a' : Nat} (b : Byte) (h : a' ≠ a) :
    Memory.read (Memory.write m a b) a' = Memory.read m a' := by
  unfold Memory.write
  split
  · exact Memory.read_without_other m h
  · rw [Memory.read_place_other _ b h, Memory.read_without_other m h]

/-- Consecutive writes leave every address outside them. -/
theorem Memory.read_writeBytes_outside (bs : List Byte) (m : Memory) (a a' : Nat) (h : a' < a ∨ a + bs.length ≤ a') :
    Memory.read (Memory.writeBytes m a bs) a' = Memory.read m a' := by
  induction bs generalizing m a with
  | nil => rfl
  | cons b bs ih =>
    simp only [List.length_cons] at h
    rw [Memory.writeBytes, ih _ _ (by omega), Memory.read_write_other _ _ (by omega)]

/-- Consecutive writes give each address its byte. -/
theorem Memory.read_writeBytes_inside (bs : List Byte) (m : Memory) (a i : Nat) (h : i < bs.length) :
    Memory.read (Memory.writeBytes m a bs) (a + i) = bs[i] := by
  induction bs generalizing m a i with
  | nil => simp at h
  | cons b bs ih =>
    rw [Memory.writeBytes]
    cases i with
    | zero => rw [Memory.read_writeBytes_outside _ _ _ _ (by omega)]; simp
    | succ i => rw [show a + (i + 1) = a + 1 + i by omega, ih _ _ _ (by simpa using h)]; rfl

@[simp] theorem Memory.readBytes_length (m : Memory) (a n : Nat) : (Memory.readBytes m a n).length = n := by
  induction n generalizing a with
  | zero => rfl
  | succ n ih => simp [Memory.readBytes, ih]

theorem Memory.readBytes_getElem (m : Memory) (a n i : Nat) (h : i < (Memory.readBytes m a n).length) :
    (Memory.readBytes m a n)[i] = Memory.read m (a + i) := by
  induction n generalizing a i with
  | zero => simp at h
  | succ n ih =>
    cases i with
    | zero => rfl
    | succ i => simp only [Memory.readBytes, List.getElem_cons_succ]; rw [ih]; congr 1; omega

/-! ## The canonical form -/

theorem Memory.wf_cons (c : Host.Cell) (m : Memory) :
    Memory.wf (c :: m) = true ↔ c.2 ≠ Memory.unlisted ∧ (∀ d ∈ m, c.1 < d.1) ∧ Memory.wf m = true := by
  obtain ⟨k, v⟩ := c
  simp [Memory.wf, List.all_eq_true, and_assoc]

theorem Memory.wf_without (m : Memory) (a : Nat) (h : Memory.wf m = true) : Memory.wf (Memory.without m a) = true := by
  induction m with
  | nil => rfl
  | cons c m ih =>
    rw [Memory.wf_cons] at h
    rw [Memory.without_cons]
    split
    · exact ih h.2.2
    · rw [Memory.wf_cons]
      exact ⟨h.1, fun d hd => h.2.1 d (Memory.mem_without hd).1, ih h.2.2⟩

theorem Memory.mem_place {m : Memory} {a : Nat} {b : Byte} {c : Host.Cell} (h : c ∈ Memory.place m a b) :
    c = (a, b) ∨ c ∈ m := by
  induction m with
  | nil => simpa [Memory.place] using h
  | cons d m ih =>
    obtain ⟨k, v⟩ := d
    simp only [Memory.place] at h
    split at h
    · simpa using h
    · rcases List.mem_cons.1 h with h | h
      · exact .inr (h ▸ List.mem_cons_self)
      · rcases ih h with h | h
        · exact .inl h
        · exact .inr (List.mem_cons_of_mem _ h)

theorem Memory.wf_place (m : Memory) (a : Nat) (b : Byte) (h : Memory.wf m = true) (hb : b ≠ Memory.unlisted)
    (ha : ∀ c ∈ m, c.1 ≠ a) : Memory.wf (Memory.place m a b) = true := by
  induction m with
  | nil => simpa [Memory.place, Memory.wf] using hb
  | cons c m ih =>
    obtain ⟨k, v⟩ := c
    have hk := ha _ List.mem_cons_self
    have hc := (Memory.wf_cons _ _).1 h
    simp only [Memory.place]
    split
    · rename_i hlt
      rw [Memory.wf_cons]
      refine ⟨hb, fun d hd => ?_, h⟩
      rcases List.mem_cons.1 hd with rfl | hd
      · exact hlt
      · exact Nat.lt_trans hlt (hc.2.1 d hd)
    · rw [Memory.wf_cons]
      refine ⟨hc.1, fun d hd => ?_, ih hc.2.2 fun d hd => ha d (List.mem_cons_of_mem _ hd)⟩
      rcases Memory.mem_place hd with rfl | hd
      · simp only at hk ⊢; omega
      · exact hc.2.1 d hd

/-- A write keeps the canonical form. -/
theorem Memory.wf_write (m : Memory) (a : Nat) (b : Byte) (h : Memory.wf m = true) :
    Memory.wf (Memory.write m a b) = true := by
  unfold Memory.write
  split
  · exact Memory.wf_without m a h
  · rename_i hb
    exact Memory.wf_place _ a b (Memory.wf_without m a h) hb fun c hc => (Memory.mem_without hc).2

/-- Consecutive writes keep the canonical form. -/
theorem Memory.wf_writeBytes (bs : List Byte) (m : Memory) (a : Nat) (h : Memory.wf m = true) :
    Memory.wf (Memory.writeBytes m a bs) = true := by
  induction bs generalizing m a with
  | nil => exact h
  | cons b bs ih => exact ih _ _ (Memory.wf_write m a b h)

end Sys2Proof.Machine
end

