-- ==== Sys2Proof/Laws/Flags.lean ====
section
/-! SUPPORT. The flags and the comparisons of Flags.lean and Operands.lean, said by bits and numbers. -/

namespace Sys2Proof.Machine

theorem isNotInitialized_bit (v : Byte) : isNotInitialized v = v.getLsbD 0 := by revert v; decide
theorem isNoDisk_bit (v : Byte) : isNoDisk v = v.getLsbD 1 := by revert v; decide
theorem isWriteProtected_bit (v : Byte) : isWriteProtected v = v.getLsbD 2 := by revert v; decide
theorem isBlockAddressed_bit (v : Byte) : isBlockAddressed v = v.getLsbD 3 := by revert v; decide
theorem isSd_bits (v : Byte) : isSd v = (v.getLsbD 1 || v.getLsbD 2) := by revert v; decide

/-- A response whose bit 7 is clear, compared as R85 compares it. -/
theorem idleOrReady_valid (flags : BitVec 7) : idleOrReady (0#1 ++ flags) = decide (flags.toNat ≤ 1) := by
  revert flags; decide
theorem isReady_valid (flags : BitVec 7) : isReady (0#1 ++ flags) = decide (flags = 0#7) := by revert flags; decide
theorem isIdleResponse_valid (flags : BitVec 7) : isIdleResponse (0#1 ++ flags) = decide (flags = 1#7) := by
  revert flags; decide

/-- A byte with bit 7 set is an error to every caller (R146). -/
theorem idleOrReady_silent (r : Byte) (h : r.getLsbD 7 = true) : idleOrReady r = false := by revert r; decide

theorem ocrBlock_bit (ocr : List Byte) : ocrBlock ocr = (ocr.headD 0#8).getLsbD 6 := by
  have h : ∀ o : Byte, decide (o &&& 0x40#8 ≠ 0#8) = o.getLsbD 6 := by decide
  exact h _

/-- The address conversion as a number (R212). -/
theorem convert_eq (cardType : Byte) (sector : Word) :
    convert cardType sector = if cardType.getLsbD 3 then sector else BitVec.ofNat 32 (sector.toNat * 512) := by
  simp only [convert, isBlockAddressed_bit]
  split
  · rfl
  · apply BitVec.eq_of_toNat_eq; simp [BitVec.toNat_mul]

end Sys2Proof.Machine
end

