-- ==== Sys2Proof/Laws/State.lean ====
section
/-! SUPPORT. One lemma per field per update of the state and of the bus, so that no proof unfolds a record update. -/

namespace Sys2Proof.Machine

/-! ## Updates of the state -/

@[simp] theorem goto_status (l : Seq) (s : State) : (goto l s).status = s.status := rfl
@[simp] theorem goto_cardType (l : Seq) (s : State) : (goto l s).cardType = s.cardType := rfl
@[simp] theorem goto_seq (l : Seq) (s : State) : (goto l s).seq = l := rfl
@[simp] theorem goto_work (l : Seq) (s : State) : (goto l s).work = s.work := rfl
@[simp] theorem goto_buf (l : Seq) (s : State) : (goto l s).buf = s.buf := rfl
@[simp] theorem goto_result (l : Seq) (s : State) : (goto l s).result = s.result := rfl
@[simp] theorem goto_mem (l : Seq) (s : State) : (goto l s).mem = s.mem := rfl
@[simp] theorem goto_bus (l : Seq) (s : State) : (goto l s).bus = s.bus := rfl
@[simp] theorem goto_host (l : Seq) (s : State) : (goto l s).host = s.host := rfl
@[simp] theorem goto_tokenWaitMode (l : Seq) (s : State) : (goto l s).tokenWaitMode = s.tokenWaitMode := rfl

@[simp] theorem call_status (site : Site) (s : State) : (call site s).status = s.status := rfl
@[simp] theorem call_cardType (site : Site) (s : State) : (call site s).cardType = s.cardType := rfl
@[simp] theorem call_seq (site : Site) (s : State) : (call site s).seq = callSite site s.work := rfl
@[simp] theorem call_work (site : Site) (s : State) : (call site s).work = s.work := rfl
@[simp] theorem call_buf (site : Site) (s : State) : (call site s).buf = s.buf := rfl
@[simp] theorem call_result (site : Site) (s : State) : (call site s).result = s.result := rfl
@[simp] theorem call_mem (site : Site) (s : State) : (call site s).mem = s.mem := rfl
@[simp] theorem call_bus (site : Site) (s : State) : (call site s).bus = s.bus := rfl
@[simp] theorem call_host (site : Site) (s : State) : (call site s).host = s.host := rfl
@[simp] theorem call_tokenWaitMode (site : Site) (s : State) : (call site s).tokenWaitMode = s.tokenWaitMode := rfl

@[simp] theorem setTy_status (v : Byte) (s : State) : (setTy v s).status = s.status := rfl
@[simp] theorem setTy_cardType (v : Byte) (s : State) : (setTy v s).cardType = s.cardType := rfl
@[simp] theorem setTy_seq (v : Byte) (s : State) : (setTy v s).seq = s.seq := rfl
@[simp] theorem setTy_work (v : Byte) (s : State) : (setTy v s).work = { s.work with ty := some v } := rfl
@[simp] theorem setTy_buf (v : Byte) (s : State) : (setTy v s).buf = s.buf := rfl
@[simp] theorem setTy_result (v : Byte) (s : State) : (setTy v s).result = s.result := rfl
@[simp] theorem setTy_mem (v : Byte) (s : State) : (setTy v s).mem = s.mem := rfl
@[simp] theorem setTy_bus (v : Byte) (s : State) : (setTy v s).bus = s.bus := rfl
@[simp] theorem setTy_host (v : Byte) (s : State) : (setTy v s).host = s.host := rfl
@[simp] theorem setTy_tokenWaitMode (v : Byte) (s : State) : (setTy v s).tokenWaitMode = s.tokenWaitMode := rfl

@[simp] theorem latchOcr_status (s : State) : (latchOcr s).status = s.status := rfl
@[simp] theorem latchOcr_cardType (s : State) : (latchOcr s).cardType = s.cardType := rfl
@[simp] theorem latchOcr_seq (s : State) : (latchOcr s).seq = s.seq := rfl
@[simp] theorem latchOcr_work (s : State) : (latchOcr s).work = { s.work with ocr := some (readOcr s.bus).1 } := rfl
@[simp] theorem latchOcr_buf (s : State) : (latchOcr s).buf = s.buf := rfl
@[simp] theorem latchOcr_result (s : State) : (latchOcr s).result = s.result := rfl
@[simp] theorem latchOcr_mem (s : State) : (latchOcr s).mem = s.mem := rfl
@[simp] theorem latchOcr_bus (s : State) : (latchOcr s).bus = (readOcr s.bus).2 := rfl
@[simp] theorem latchOcr_host (s : State) : (latchOcr s).host = s.host := rfl
@[simp] theorem latchOcr_tokenWaitMode (s : State) : (latchOcr s).tokenWaitMode = s.tokenWaitMode := rfl

@[simp] theorem enterToken_status (use : RecvUse) (s : State) : (enterToken use s).status = s.status := rfl
@[simp] theorem enterToken_cardType (use : RecvUse) (s : State) : (enterToken use s).cardType = s.cardType := rfl
@[simp] theorem enterToken_seq (use : RecvUse) (s : State) : (enterToken use s).seq = .token use := rfl
@[simp] theorem enterToken_work (use : RecvUse) (s : State) : (enterToken use s).work = s.work := rfl
@[simp] theorem enterToken_buf (use : RecvUse) (s : State) : (enterToken use s).buf = s.buf := rfl
@[simp] theorem enterToken_result (use : RecvUse) (s : State) : (enterToken use s).result = s.result := rfl
@[simp] theorem enterToken_mem (use : RecvUse) (s : State) : (enterToken use s).mem = s.mem := rfl
@[simp] theorem enterToken_bus (use : RecvUse) (s : State) : (enterToken use s).bus = timerStart .op Config.tokenMs s.bus := rfl
@[simp] theorem enterToken_host (use : RecvUse) (s : State) : (enterToken use s).host = s.host := rfl
@[simp] theorem enterToken_tokenWaitMode (use : RecvUse) (s : State) : (enterToken use s).tokenWaitMode = s.tokenWaitMode := rfl

@[simp] theorem advanceBlock_status (s : State) : (advanceBlock s).status = s.status := rfl
@[simp] theorem advanceBlock_cardType (s : State) : (advanceBlock s).cardType = s.cardType := rfl
@[simp] theorem advanceBlock_seq (s : State) : (advanceBlock s).seq = s.seq := rfl
@[simp] theorem advanceBlock_work (s : State) : (advanceBlock s).work = { s.work with ptr := some (s.work.ptrVal + Config.blockSize), cnt := some (s.work.cntVal - 1#32) } := rfl
@[simp] theorem advanceBlock_buf (s : State) : (advanceBlock s).buf = s.buf := rfl
@[simp] theorem advanceBlock_result (s : State) : (advanceBlock s).result = s.result := rfl
@[simp] theorem advanceBlock_mem (s : State) : (advanceBlock s).mem = s.mem := rfl
@[simp] theorem advanceBlock_bus (s : State) : (advanceBlock s).bus = s.bus := rfl
@[simp] theorem advanceBlock_host (s : State) : (advanceBlock s).host = s.host := rfl
@[simp] theorem advanceBlock_tokenWaitMode (s : State) : (advanceBlock s).tokenWaitMode = s.tokenWaitMode := rfl

@[simp] theorem clearCount_status (s : State) : (clearCount s).status = s.status := rfl
@[simp] theorem clearCount_cardType (s : State) : (clearCount s).cardType = s.cardType := rfl
@[simp] theorem clearCount_seq (s : State) : (clearCount s).seq = s.seq := rfl
@[simp] theorem clearCount_work (s : State) : (clearCount s).work = { s.work with cnt := some 0#32 } := rfl
@[simp] theorem clearCount_buf (s : State) : (clearCount s).buf = s.buf := rfl
@[simp] theorem clearCount_result (s : State) : (clearCount s).result = s.result := rfl
@[simp] theorem clearCount_mem (s : State) : (clearCount s).mem = s.mem := rfl
@[simp] theorem clearCount_bus (s : State) : (clearCount s).bus = s.bus := rfl
@[simp] theorem clearCount_host (s : State) : (clearCount s).host = s.host := rfl
@[simp] theorem clearCount_tokenWaitMode (s : State) : (clearCount s).tokenWaitMode = s.tokenWaitMode := rfl

@[simp] theorem receiveCsd_status (s : State) : (receiveCsd s).status = s.status := rfl
@[simp] theorem receiveCsd_cardType (s : State) : (receiveCsd s).cardType = s.cardType := rfl
@[simp] theorem receiveCsd_seq (s : State) : (receiveCsd s).seq = s.seq := rfl
@[simp] theorem receiveCsd_work (s : State) : (receiveCsd s).work = { s.work with csd := some (receivePayload Config.csdSize s.bus).1 } := rfl
@[simp] theorem receiveCsd_buf (s : State) : (receiveCsd s).buf = s.buf := rfl
@[simp] theorem receiveCsd_result (s : State) : (receiveCsd s).result = s.result := rfl
@[simp] theorem receiveCsd_mem (s : State) : (receiveCsd s).mem = s.mem := rfl
@[simp] theorem receiveCsd_bus (s : State) : (receiveCsd s).bus = (receivePayload Config.csdSize s.bus).2 := rfl
@[simp] theorem receiveCsd_host (s : State) : (receiveCsd s).host = s.host := rfl
@[simp] theorem receiveCsd_tokenWaitMode (s : State) : (receiveCsd s).tokenWaitMode = s.tokenWaitMode := rfl

@[simp] theorem storeCount_status (v : Word) (s : State) : (storeCount v s).status = s.status := rfl
@[simp] theorem storeCount_cardType (v : Word) (s : State) : (storeCount v s).cardType = s.cardType := rfl
@[simp] theorem storeCount_seq (v : Word) (s : State) : (storeCount v s).seq = .countEnd true := rfl
@[simp] theorem storeCount_work (v : Word) (s : State) : (storeCount v s).work = s.work := rfl
@[simp] theorem storeCount_buf (v : Word) (s : State) : (storeCount v s).buf = s.buf := rfl
@[simp] theorem storeCount_result (v : Word) (s : State) : (storeCount v s).result = s.result := rfl
@[simp] theorem storeCount_mem (v : Word) (s : State) : (storeCount v s).mem = s.mem.writeBytes (bufAddr (bufOf s) 0) (leBytes4 v) := rfl
@[simp] theorem storeCount_bus (v : Word) (s : State) : (storeCount v s).bus = s.bus := rfl
@[simp] theorem storeCount_host (v : Word) (s : State) : (storeCount v s).host = s.host := rfl
@[simp] theorem storeCount_tokenWaitMode (v : Word) (s : State) : (storeCount v s).tokenWaitMode = s.tokenWaitMode := rfl

@[simp] theorem returnValue_status (v : Byte) (s : State) : (returnValue v s).status = s.status := rfl
@[simp] theorem returnValue_cardType (v : Byte) (s : State) : (returnValue v s).cardType = s.cardType := rfl
@[simp] theorem returnValue_seq (v : Byte) (s : State) : (returnValue v s).seq = .idle := rfl
@[simp] theorem returnValue_work (v : Byte) (s : State) : (returnValue v s).work = Work.empty := rfl
@[simp] theorem returnValue_buf (v : Byte) (s : State) : (returnValue v s).buf = none := rfl
@[simp] theorem returnValue_result (v : Byte) (s : State) : (returnValue v s).result = some v := rfl
@[simp] theorem returnValue_mem (v : Byte) (s : State) : (returnValue v s).mem = s.mem := rfl
@[simp] theorem returnValue_bus (v : Byte) (s : State) : (returnValue v s).bus = s.bus := rfl
@[simp] theorem returnValue_host (v : Byte) (s : State) : (returnValue v s).host = s.host := rfl
@[simp] theorem returnValue_tokenWaitMode (v : Byte) (s : State) : (returnValue v s).tokenWaitMode = s.tokenWaitMode := rfl

@[simp] theorem beginCall_status (s : State) : (beginCall s).status = s.status := rfl
@[simp] theorem beginCall_cardType (s : State) : (beginCall s).cardType = s.cardType := rfl
@[simp] theorem beginCall_seq (s : State) : (beginCall s).seq = s.seq := rfl
@[simp] theorem beginCall_work (s : State) : (beginCall s).work = s.work := rfl
@[simp] theorem beginCall_buf (s : State) : (beginCall s).buf = s.buf := rfl
@[simp] theorem beginCall_result (s : State) : (beginCall s).result = none := rfl
@[simp] theorem beginCall_mem (s : State) : (beginCall s).mem = s.mem := rfl
@[simp] theorem beginCall_bus (s : State) : (beginCall s).bus = { s.bus with log := [] } := rfl
@[simp] theorem beginCall_host (s : State) : (beginCall s).host = s.host := rfl
@[simp] theorem beginCall_tokenWaitMode (s : State) : (beginCall s).tokenWaitMode = s.tokenWaitMode := rfl

@[simp] theorem loadTransfer_status (b : Buf) (sector count : Word) (s : State) : (loadTransfer b sector count s).status = s.status := rfl
@[simp] theorem loadTransfer_cardType (b : Buf) (sector count : Word) (s : State) : (loadTransfer b sector count s).cardType = s.cardType := rfl
@[simp] theorem loadTransfer_seq (b : Buf) (sector count : Word) (s : State) : (loadTransfer b sector count s).seq = s.seq := rfl
@[simp] theorem loadTransfer_work (b : Buf) (sector count : Word) (s : State) : (loadTransfer b sector count s).work = { s.work with addr := some (convert s.cardType sector), cnt := some count, ptr := some 0 } := rfl
@[simp] theorem loadTransfer_buf (b : Buf) (sector count : Word) (s : State) : (loadTransfer b sector count s).buf = some b := rfl
@[simp] theorem loadTransfer_result (b : Buf) (sector count : Word) (s : State) : (loadTransfer b sector count s).result = s.result := rfl
@[simp] theorem loadTransfer_mem (b : Buf) (sector count : Word) (s : State) : (loadTransfer b sector count s).mem = s.mem := rfl
@[simp] theorem loadTransfer_bus (b : Buf) (sector count : Word) (s : State) : (loadTransfer b sector count s).bus = s.bus := rfl
@[simp] theorem loadTransfer_host (b : Buf) (sector count : Word) (s : State) : (loadTransfer b sector count s).host = s.host := rfl
@[simp] theorem loadTransfer_tokenWaitMode (b : Buf) (sector count : Word) (s : State) : (loadTransfer b sector count s).tokenWaitMode = s.tokenWaitMode := rfl

@[simp] theorem storeSize_status (b : Buf) (s : State) : (storeSize b s).status = s.status := rfl
@[simp] theorem storeSize_cardType (b : Buf) (s : State) : (storeSize b s).cardType = s.cardType := rfl
@[simp] theorem storeSize_seq (b : Buf) (s : State) : (storeSize b s).seq = s.seq := rfl
@[simp] theorem storeSize_work (b : Buf) (s : State) : (storeSize b s).work = s.work := rfl
@[simp] theorem storeSize_buf (b : Buf) (s : State) : (storeSize b s).buf = s.buf := rfl
@[simp] theorem storeSize_result (b : Buf) (s : State) : (storeSize b s).result = s.result := rfl
@[simp] theorem storeSize_mem (b : Buf) (s : State) : (storeSize b s).mem = s.mem.writeBytes (bufAddr b 0) (leBytes2 (BitVec.ofNat 16 Config.blockSize)) := rfl
@[simp] theorem storeSize_bus (b : Buf) (s : State) : (storeSize b s).bus = s.bus := rfl
@[simp] theorem storeSize_host (b : Buf) (s : State) : (storeSize b s).host = s.host := rfl
@[simp] theorem storeSize_tokenWaitMode (b : Buf) (s : State) : (storeSize b s).tokenWaitMode = s.tokenWaitMode := rfl

@[simp] theorem sendPacket_status (token : Byte) (use : XmitUse) (s : State) : (sendPacket token use s).status = s.status := rfl
@[simp] theorem sendPacket_cardType (token : Byte) (use : XmitUse) (s : State) : (sendPacket token use s).cardType = s.cardType := rfl
@[simp] theorem sendPacket_seq (token : Byte) (use : XmitUse) (s : State) : (sendPacket token use s).seq = .dataResp use := rfl
@[simp] theorem sendPacket_work (token : Byte) (use : XmitUse) (s : State) : (sendPacket token use s).work = s.work := rfl
@[simp] theorem sendPacket_buf (token : Byte) (use : XmitUse) (s : State) : (sendPacket token use s).buf = s.buf := rfl
@[simp] theorem sendPacket_result (token : Byte) (use : XmitUse) (s : State) : (sendPacket token use s).result = s.result := rfl
@[simp] theorem sendPacket_mem (token : Byte) (use : XmitUse) (s : State) : (sendPacket token use s).mem = s.mem := rfl
@[simp] theorem sendPacket_bus (token : Byte) (use : XmitUse) (s : State) : (sendPacket token use s).bus = sendBytes (token :: (payloadOf s ++ [0xFF#8, 0xFF#8])) s.bus := by
  simp only [sendPacket, goto]
@[simp] theorem sendPacket_host (token : Byte) (use : XmitUse) (s : State) : (sendPacket token use s).host = s.host := rfl
@[simp] theorem sendPacket_tokenWaitMode (token : Byte) (use : XmitUse) (s : State) : (sendPacket token use s).tokenWaitMode = s.tokenWaitMode := rfl

@[simp] theorem finishIoctl_status (v : Byte) (s : State) : (finishIoctl v s).status = s.status := rfl
@[simp] theorem finishIoctl_cardType (v : Byte) (s : State) : (finishIoctl v s).cardType = s.cardType := rfl
@[simp] theorem finishIoctl_seq (v : Byte) (s : State) : (finishIoctl v s).seq = .idle := rfl
@[simp] theorem finishIoctl_work (v : Byte) (s : State) : (finishIoctl v s).work = Work.empty := rfl
@[simp] theorem finishIoctl_buf (v : Byte) (s : State) : (finishIoctl v s).buf = none := rfl
@[simp] theorem finishIoctl_result (v : Byte) (s : State) : (finishIoctl v s).result = some v := rfl
@[simp] theorem finishIoctl_mem (v : Byte) (s : State) : (finishIoctl v s).mem = s.mem := rfl
@[simp] theorem finishIoctl_bus (v : Byte) (s : State) : (finishIoctl v s).bus = deselect s.bus := rfl
@[simp] theorem finishIoctl_host (v : Byte) (s : State) : (finishIoctl v s).host = s.host := rfl
@[simp] theorem finishIoctl_tokenWaitMode (v : Byte) (s : State) : (finishIoctl v s).tokenWaitMode = s.tokenWaitMode := rfl

@[simp] theorem finishIo_status (s : State) : (finishIo s).status = s.status := rfl
@[simp] theorem finishIo_cardType (s : State) : (finishIo s).cardType = s.cardType := rfl
@[simp] theorem finishIo_seq (s : State) : (finishIo s).seq = .idle := rfl
@[simp] theorem finishIo_work (s : State) : (finishIo s).work = Work.empty := rfl
@[simp] theorem finishIo_buf (s : State) : (finishIo s).buf = none := rfl
@[simp] theorem finishIo_result (s : State) : (finishIo s).result = some (okOrGeneric (decide (s.work.cntVal = 0#32))) := rfl
@[simp] theorem finishIo_mem (s : State) : (finishIo s).mem = s.mem := rfl
@[simp] theorem finishIo_bus (s : State) : (finishIo s).bus = deselect s.bus := rfl
@[simp] theorem finishIo_host (s : State) : (finishIo s).host = s.host := rfl
@[simp] theorem finishIo_tokenWaitMode (s : State) : (finishIo s).tokenWaitMode = s.tokenWaitMode := rfl

@[simp] theorem powerUp_status (s : State) : (powerUp s).status = s.status := rfl
@[simp] theorem powerUp_cardType (s : State) : (powerUp s).cardType = s.cardType := rfl
@[simp] theorem powerUp_seq (s : State) : (powerUp s).seq = .frame .initCmd0 := rfl
@[simp] theorem powerUp_work (s : State) : (powerUp s).work = { s.work with ty := some 0#8 } := rfl
@[simp] theorem powerUp_buf (s : State) : (powerUp s).buf = s.buf := rfl
@[simp] theorem powerUp_result (s : State) : (powerUp s).result = s.result := rfl
@[simp] theorem powerUp_mem (s : State) : (powerUp s).mem = s.mem := rfl
@[simp] theorem powerUp_bus (s : State) : (powerUp s).bus = powerUpClocks (setClock .slow s.bus) := rfl
@[simp] theorem powerUp_host (s : State) : (powerUp s).host = s.host := rfl
@[simp] theorem powerUp_tokenWaitMode (s : State) : (powerUp s).tokenWaitMode = s.tokenWaitMode := rfl

@[simp] theorem socketUpdate_status (nd wp : Bool) (s : State) : (socketUpdate nd wp s).status = socketStatus s.status nd wp := rfl
@[simp] theorem socketUpdate_cardType (nd wp : Bool) (s : State) : (socketUpdate nd wp s).cardType = s.cardType := rfl
@[simp] theorem socketUpdate_seq (nd wp : Bool) (s : State) : (socketUpdate nd wp s).seq = s.seq := rfl
@[simp] theorem socketUpdate_work (nd wp : Bool) (s : State) : (socketUpdate nd wp s).work = s.work := rfl
@[simp] theorem socketUpdate_buf (nd wp : Bool) (s : State) : (socketUpdate nd wp s).buf = s.buf := rfl
@[simp] theorem socketUpdate_result (nd wp : Bool) (s : State) : (socketUpdate nd wp s).result = s.result := rfl
@[simp] theorem socketUpdate_mem (nd wp : Bool) (s : State) : (socketUpdate nd wp s).mem = s.mem := rfl
@[simp] theorem socketUpdate_bus (nd wp : Bool) (s : State) : (socketUpdate nd wp s).bus = s.bus := rfl
@[simp] theorem socketUpdate_host (nd wp : Bool) (s : State) : (socketUpdate nd wp s).host = s.host := rfl
@[simp] theorem socketUpdate_tokenWaitMode (nd wp : Bool) (s : State) : (socketUpdate nd wp s).tokenWaitMode = s.tokenWaitMode := rfl

@[simp] theorem hostStore_status (a : Nat) (bytes : List Byte) (s : State) : (hostStore a bytes s).status = s.status := rfl
@[simp] theorem hostStore_cardType (a : Nat) (bytes : List Byte) (s : State) : (hostStore a bytes s).cardType = s.cardType := rfl
@[simp] theorem hostStore_seq (a : Nat) (bytes : List Byte) (s : State) : (hostStore a bytes s).seq = s.seq := rfl
@[simp] theorem hostStore_work (a : Nat) (bytes : List Byte) (s : State) : (hostStore a bytes s).work = s.work := rfl
@[simp] theorem hostStore_buf (a : Nat) (bytes : List Byte) (s : State) : (hostStore a bytes s).buf = s.buf := rfl
@[simp] theorem hostStore_result (a : Nat) (bytes : List Byte) (s : State) : (hostStore a bytes s).result = s.result := rfl
@[simp] theorem hostStore_mem (a : Nat) (bytes : List Byte) (s : State) : (hostStore a bytes s).mem = s.mem.writeBytes a bytes := rfl
@[simp] theorem hostStore_bus (a : Nat) (bytes : List Byte) (s : State) : (hostStore a bytes s).bus = s.bus := rfl
@[simp] theorem hostStore_host (a : Nat) (bytes : List Byte) (s : State) : (hostStore a bytes s).host = s.host := rfl
@[simp] theorem hostStore_tokenWaitMode (a : Nat) (bytes : List Byte) (s : State) : (hostStore a bytes s).tokenWaitMode = s.tokenWaitMode := rfl

/-! ## Updates of the bus -/

@[simp] theorem emit_cs (e : Event) (b : Bus) : (emit e b).cs = b.cs := rfl
@[simp] theorem emit_clk (e : Event) (b : Bus) : (emit e b).clk = b.clk := rfl
@[simp] theorem emit_tOp (e : Event) (b : Bus) : (emit e b).tOp = b.tOp := rfl
@[simp] theorem emit_tRdy (e : Event) (b : Bus) : (emit e b).tRdy = b.tRdy := rfl
@[simp] theorem emit_log (e : Event) (b : Bus) : (emit e b).log = e :: b.log := rfl
@[simp] theorem emit_env (e : Event) (b : Bus) : (emit e b).env = b.env := rfl

@[simp] theorem csAssert_cs (b : Bus) : (csAssert b).cs = .asserted := rfl
@[simp] theorem csAssert_clk (b : Bus) : (csAssert b).clk = b.clk := rfl
@[simp] theorem csAssert_tOp (b : Bus) : (csAssert b).tOp = b.tOp := rfl
@[simp] theorem csAssert_tRdy (b : Bus) : (csAssert b).tRdy = b.tRdy := rfl
@[simp] theorem csAssert_log (b : Bus) : (csAssert b).log = .cs .asserted :: b.log := rfl
@[simp] theorem csAssert_env (b : Bus) : (csAssert b).env = b.env := rfl

@[simp] theorem csDeassert_cs (b : Bus) : (csDeassert b).cs = .deasserted := rfl
@[simp] theorem csDeassert_clk (b : Bus) : (csDeassert b).clk = b.clk := rfl
@[simp] theorem csDeassert_tOp (b : Bus) : (csDeassert b).tOp = b.tOp := rfl
@[simp] theorem csDeassert_tRdy (b : Bus) : (csDeassert b).tRdy = b.tRdy := rfl
@[simp] theorem csDeassert_log (b : Bus) : (csDeassert b).log = .cs .deasserted :: b.log := rfl
@[simp] theorem csDeassert_env (b : Bus) : (csDeassert b).env = b.env := rfl

@[simp] theorem setClock_cs (c : Clk) (b : Bus) : (setClock c b).cs = b.cs := rfl
@[simp] theorem setClock_clk (c : Clk) (b : Bus) : (setClock c b).clk = c := rfl
@[simp] theorem setClock_tOp (c : Clk) (b : Bus) : (setClock c b).tOp = b.tOp := rfl
@[simp] theorem setClock_tRdy (c : Clk) (b : Bus) : (setClock c b).tRdy = b.tRdy := rfl
@[simp] theorem setClock_log (c : Clk) (b : Bus) : (setClock c b).log = .clk c :: b.log := rfl
@[simp] theorem setClock_env (c : Clk) (b : Bus) : (setClock c b).env = b.env := rfl

@[simp] theorem xchg_cs (tx : Byte) (b : Bus) : (xchg tx b).2.cs = b.cs := rfl
@[simp] theorem xchg_clk (tx : Byte) (b : Bus) : (xchg tx b).2.clk = b.clk := rfl
@[simp] theorem xchg_tOp (tx : Byte) (b : Bus) : (xchg tx b).2.tOp = b.tOp := rfl
@[simp] theorem xchg_tRdy (tx : Byte) (b : Bus) : (xchg tx b).2.tRdy = b.tRdy := rfl
@[simp] theorem xchg_log (tx : Byte) (b : Bus) : (xchg tx b).2.log = .x tx (drawByte b.env).1 :: b.log := rfl
@[simp] theorem xchg_env (tx : Byte) (b : Bus) : (xchg tx b).2.env = (drawByte b.env).2 := rfl

@[simp] theorem xchg_fst (tx : Byte) (b : Bus) : (xchg tx b).1 = (drawByte b.env).1 := rfl

@[simp] theorem discard_cs (tx : Byte) (b : Bus) : (discard tx b).cs = b.cs := rfl
@[simp] theorem discard_clk (tx : Byte) (b : Bus) : (discard tx b).clk = b.clk := rfl
@[simp] theorem discard_tOp (tx : Byte) (b : Bus) : (discard tx b).tOp = b.tOp := rfl
@[simp] theorem discard_tRdy (tx : Byte) (b : Bus) : (discard tx b).tRdy = b.tRdy := rfl
@[simp] theorem discard_log (tx : Byte) (b : Bus) : (discard tx b).log = .x tx (drawByte b.env).1 :: b.log := rfl
@[simp] theorem discard_env (tx : Byte) (b : Bus) : (discard tx b).env = (drawByte b.env).2 := rfl


end Sys2Proof.Machine
end

