-- ==== Sys2Proof/Laws/Bus.lean ====
section
/-! SUPPORT. One lemma per transport procedure: which lines, deadlines and events it leaves (40_transport.md), and which bytes of
the environment's script it takes. -/

namespace Sys2Proof.Machine

/-! ## Events -/

@[simp] theorem emit_trace (e : Event) (b : Bus) : (emit e b).trace = b.trace ++ [e] := by simp [Bus.trace]
@[simp] theorem csAssert_trace (b : Bus) : (csAssert b).trace = b.trace ++ [.cs .asserted] := by simp [Bus.trace]
@[simp] theorem csDeassert_trace (b : Bus) : (csDeassert b).trace = b.trace ++ [.cs .deasserted] := by simp [Bus.trace]
@[simp] theorem setClock_trace (c : Clk) (b : Bus) : (setClock c b).trace = b.trace ++ [.clk c] := by simp [Bus.trace]
@[simp] theorem xchg_trace (tx : Byte) (b : Bus) : (xchg tx b).2.trace = b.trace ++ [.x tx (drawByte b.env).1] := by
  simp [Bus.trace]
@[simp] theorem discard_trace (tx : Byte) (b : Bus) : (discard tx b).trace = b.trace ++ [.x tx (drawByte b.env).1] := by
  simp [Bus.trace]
@[simp] theorem emptied_trace (b : Bus) : Bus.trace { b with log := [] } = [] := rfl

/-! ## The environment's script -/

theorem drawByte_of_script {v : Env} {r : Byte} {rest : List Byte} (h : v.rxIn = r :: rest) :
    (drawByte v).1 = r ∧ (drawByte v).2.rxIn = rest := by simp [drawByte, h]

/-! ## Deadlines (R123, R124) -/

@[simp] theorem timerStart_cs (t : TimerId) (ms : Nat) (b : Bus) : (timerStart t ms b).cs = b.cs := by
  cases t <;> rfl
@[simp] theorem timerStart_clk (t : TimerId) (ms : Nat) (b : Bus) : (timerStart t ms b).clk = b.clk := by
  cases t <;> rfl
@[simp] theorem timerStart_trace (t : TimerId) (ms : Nat) (b : Bus) :
    (timerStart t ms b).trace = b.trace ++ [.tstart t ms] := by cases t <;> simp [timerStart] <;> rfl
@[simp] theorem timerStart_op_tRdy (ms : Nat) (b : Bus) : (timerStart .op ms b).tRdy = b.tRdy := rfl
@[simp] theorem timerStart_rdy_tOp (ms : Nat) (b : Bus) : (timerStart .rdy ms b).tOp = b.tOp := rfl
theorem timerStart_op_tOp (ms : Nat) (b : Bus) : ∃ d, (timerStart .op ms b).tOp = some d ∧ d.durationMs = ms := ⟨_, rfl, rfl⟩
theorem timerStart_rdy_tRdy (ms : Nat) (b : Bus) : ∃ d, (timerStart .rdy ms b).tRdy = some d ∧ d.durationMs = ms := ⟨_, rfl, rfl⟩
@[simp] theorem timerStart_rxIn (t : TimerId) (ms : Nat) (b : Bus) : (timerStart t ms b).env.rxIn = b.env.rxIn := by
  cases t <;> simp only [timerStart, drawExpiry, readTick, setDeadline, emit] <;> split <;> rfl

/-- One query (R124): the answer, the event, and the count left. -/
theorem expired_of_deadline {t : TimerId} {b : Bus} {d : Deadline} (h : deadline t b = some d) :
    (expired t b).1 = decide (d.falseLeft = 0) ∧
    (expired t b).2.trace = b.trace ++ [.exp t (decide (d.falseLeft = 0))] ∧
    deadline t (expired t b).2 = some { d with falseLeft := d.falseLeft - 1 } := by
  obtain ⟨start, ms, k⟩ := d
  cases k <;> cases t <;> simp_all [expired, deadline, setDeadline, Bus.trace]

@[simp] theorem expired_cs (t : TimerId) (b : Bus) : (expired t b).2.cs = b.cs := by
  simp only [expired]; split <;> cases t <;> rfl
@[simp] theorem expired_clk (t : TimerId) (b : Bus) : (expired t b).2.clk = b.clk := by
  simp only [expired]; split <;> cases t <;> rfl
@[simp] theorem expired_env (t : TimerId) (b : Bus) : (expired t b).2.env = b.env := by
  simp only [expired]; split <;> cases t <;> rfl
@[simp] theorem expired_op_tRdy (b : Bus) : (expired .op b).2.tRdy = b.tRdy := by
  simp only [expired]; split <;> rfl
@[simp] theorem expired_rdy_tOp (b : Bus) : (expired .rdy b).2.tOp = b.tOp := by
  simp only [expired]; split <;> rfl
/-- A query keeps the deadline it asks, its duration included. -/
theorem expired_op_duration {b : Bus} {ms : Nat} (h : ∃ d, b.tOp = some d ∧ d.durationMs = ms) :
    ∃ d, (expired .op b).2.tOp = some d ∧ d.durationMs = ms := by
  obtain ⟨d, hd, hm⟩ := h
  exact ⟨_, (expired_of_deadline (t := .op) hd).2.2, hm⟩

/-! ## Runs of exchanges -/

/-- A procedure that only exchanges bytes: the lines and the deadlines are as they were. -/
structure Bus.OnlyExchanged (b b' : Bus) : Prop where
  cs : b'.cs = b.cs
  clk : b'.clk = b.clk
  tOp : b'.tOp = b.tOp
  tRdy : b'.tRdy = b.tRdy

theorem sendBytes_only (tx : List Byte) (b : Bus) : b.OnlyExchanged (sendBytes tx b) := by
  induction tx generalizing b with
  | nil => exact ⟨rfl, rfl, rfl, rfl⟩
  | cons t ts ih => obtain ⟨h1, h2, h3, h4⟩ := ih (discard t b); exact ⟨h1, h2, h3, h4⟩

theorem sendBytes_trace (tx : List Byte) (b : Bus) :
    ∃ es, Exchanges tx es ∧ (sendBytes tx b).trace = b.trace ++ es := by
  suffices h : ∃ rx : List Byte, rx.length = tx.length ∧ (sendBytes tx b).trace = b.trace ++ List.zipWith .x tx rx by
    obtain ⟨rx, h1, h2⟩ := h; exact ⟨_, ⟨rx, h1, rfl⟩, h2⟩
  induction tx generalizing b with
  | nil => exact ⟨[], rfl, by simp [sendBytes]⟩
  | cons t ts ih =>
    obtain ⟨rx, h1, h2⟩ := ih (discard t b)
    exact ⟨(drawByte b.env).1 :: rx, by simp [h1], by simp [sendBytes, h2]⟩

theorem sendBytes_append (xs ys : List Byte) (b : Bus) : sendBytes (xs ++ ys) b = sendBytes ys (sendBytes xs b) := by
  induction xs generalizing b with
  | nil => rfl
  | cons x xs ih => exact ih _

theorem sendBytes_script (tx rx rest : List Byte) (b : Bus) (h : b.env.rxIn = rx ++ rest) (hl : rx.length = tx.length) :
    (sendBytes tx b).env.rxIn = rest ∧ (sendBytes tx b).trace = b.trace ++ List.zipWith .x tx rx := by
  induction tx generalizing b rx with
  | nil => cases rx with
    | nil => exact ⟨h, by simp [sendBytes]⟩
    | cons => simp at hl
  | cons t ts ih =>
    cases rx with
    | nil => simp at hl
    | cons r rx =>
      obtain ⟨hd, hr⟩ := drawByte_of_script (v := b.env) (r := r) (rest := rx ++ rest) h
      have := ih rx (discard t b) (by simpa using hr) (by simpa using hl)
      simpa [sendBytes, hd] using this

theorem discardMany_only (n : Nat) (b : Bus) : b.OnlyExchanged (discardMany n b) := by
  induction n generalizing b with
  | zero => exact ⟨rfl, rfl, rfl, rfl⟩
  | succ n ih => obtain ⟨h1, h2, h3, h4⟩ := ih (discard fill b); exact ⟨h1, h2, h3, h4⟩

theorem discardMany_trace (n : Nat) (b : Bus) :
    ∃ rx : List Byte, rx.length = n ∧ (discardMany n b).trace = b.trace ++ rx.map fun r => .x fill r := by
  induction n generalizing b with
  | zero => exact ⟨[], rfl, by simp [discardMany]⟩
  | succ n ih =>
    obtain ⟨rx, h1, h2⟩ := ih (discard fill b)
    exact ⟨(drawByte b.env).1 :: rx, by simp [h1], by simp [discardMany, h2]⟩

theorem discardMany_script (n : Nat) (rx rest : List Byte) (b : Bus) (h : b.env.rxIn = rx ++ rest) (hl : rx.length = n) :
    (discardMany n b).env.rxIn = rest ∧ (discardMany n b).trace = b.trace ++ rx.map fun r => .x fill r := by
  induction n generalizing b rx with
  | zero => cases rx with
    | nil => exact ⟨h, by simp [discardMany]⟩
    | cons => simp at hl
  | succ n ih =>
    cases rx with
    | nil => simp at hl
    | cons r rx =>
      obtain ⟨hd, hr⟩ := drawByte_of_script (v := b.env) (r := r) (rest := rx ++ rest) h
      have := ih rx (discard fill b) (by simpa using hr) (by simpa using hl)
      simpa [discardMany, hd] using this

theorem receiveBytes_only (n : Nat) (b : Bus) : b.OnlyExchanged (receiveBytes n b).2 := by
  induction n generalizing b with
  | zero => exact ⟨rfl, rfl, rfl, rfl⟩
  | succ n ih => obtain ⟨h1, h2, h3, h4⟩ := ih (xchg fill b).2; exact ⟨h1, h2, h3, h4⟩

@[simp] theorem receiveBytes_length (n : Nat) (b : Bus) : (receiveBytes n b).1.length = n := by
  induction n generalizing b with
  | zero => rfl
  | succ n ih => simp [receiveBytes, ih]

theorem receiveBytes_trace (n : Nat) (b : Bus) :
    (receiveBytes n b).2.trace = b.trace ++ (receiveBytes n b).1.map fun r => .x fill r := by
  induction n generalizing b with
  | zero => simp [receiveBytes]
  | succ n ih => simp [receiveBytes, ih]

theorem receiveBytes_script (n : Nat) (rx rest : List Byte) (b : Bus) (h : b.env.rxIn = rx ++ rest) (hl : rx.length = n) :
    (receiveBytes n b).1 = rx ∧ (receiveBytes n b).2.env.rxIn = rest := by
  induction n generalizing b rx with
  | zero => cases rx with
    | nil => exact ⟨rfl, h⟩
    | cons => simp at hl
  | succ n ih =>
    cases rx with
    | nil => simp at hl
    | cons r rx =>
      obtain ⟨hd, hr⟩ := drawByte_of_script (v := b.env) (r := r) (rest := rx ++ rest) h
      have := ih rx (xchg fill b).2 (by simpa using hr) (by simpa using hl)
      simpa [receiveBytes, hd] using this

theorem receivePayload_only (n : Nat) (b : Bus) : b.OnlyExchanged (receivePayload n b).2 := by
  obtain ⟨h1, h2, h3, h4⟩ := receiveBytes_only n b
  exact ⟨h1, h2, h3, h4⟩

@[simp] theorem receivePayload_length (n : Nat) (b : Bus) : (receivePayload n b).1.length = n := receiveBytes_length n b

/-- The payload and the two discarded CRC bytes (R216). -/
theorem receivePayload_trace (n : Nat) (b : Bus) : ∃ c0 c1, (receivePayload n b).2.trace =
    b.trace ++ (receivePayload n b).1.map (fun r => .x fill r) ++ [.x fill c0, .x fill c1] :=
  ⟨_, _, by simp [receivePayload, discardMany, receiveBytes_trace]; exact ⟨rfl, rfl⟩⟩

theorem receivePayload_script (n : Nat) (rx rest : List Byte) (c0 c1 : Byte) (b : Bus)
    (h : b.env.rxIn = rx ++ c0 :: c1 :: rest) (hl : rx.length = n) :
    (receivePayload n b).1 = rx ∧ (receivePayload n b).2.env.rxIn = rest := by
  obtain ⟨h1, h2⟩ := receiveBytes_script n rx (c0 :: c1 :: rest) b h hl
  exact ⟨h1, (discardMany_script 2 [c0, c1] rest _ h2 rfl).1⟩

/-! ## The ready wait and the selection (R125-R127, R142) -/

theorem deselect_trace (b : Bus) : (deselect b).trace = b.trace ++ [.cs .deasserted, .x fill (drawByte b.env).1] := by
  simp [deselect]
@[simp] theorem deselect_cs (b : Bus) : (deselect b).cs = .deasserted := rfl
@[simp] theorem deselect_clk (b : Bus) : (deselect b).clk = b.clk := rfl
@[simp] theorem deselect_tOp (b : Bus) : (deselect b).tOp = b.tOp := rfl
@[simp] theorem deselect_tRdy (b : Bus) : (deselect b).tRdy = b.tRdy := rfl
@[simp] theorem deselect_env (b : Bus) : (deselect b).env = (drawByte b.env).2 := rfl

theorem readyLoop_lines (k : Nat) (b : Bus) :
    (readyLoop k b).2.cs = b.cs ∧ (readyLoop k b).2.clk = b.clk ∧ (readyLoop k b).2.tOp = b.tOp := by
  induction k generalizing b with
  | zero => simp only [readyLoop]; split <;> simp
  | succ k ih =>
    simp only [readyLoop]
    split
    · simp
    · split
      · simp
      · simpa using ih (expired .rdy (xchg fill b).2).2

/-- What the loop of a ready wait puts on the trace, its deadline started with `k` false answers. -/
theorem readyLoop_events (k : Nat) (b : Bus) (start ms : Nat) (h : b.tRdy = some ⟨start, ms, k⟩) :
    ∃ busy : List Byte, (∀ d ∈ busy, d ≠ 0xFF#8) ∧
      if (readyLoop k b).1 then (readyLoop k b).2.trace = b.trace ++ (busyEvents busy ++ [.x fill 0xFF#8])
      else ∃ d, d ≠ 0xFF#8 ∧
        (readyLoop k b).2.trace = b.trace ++ (busyEvents busy ++ [.x fill d, .exp .rdy true]) := by
  by_cases hd : (xchg fill b).1 = 0xFF#8
  · have he : readyLoop k b = (true, (xchg fill b).2) := by cases k <;> simp only [readyLoop, if_pos hd]
    rw [xchg_fst] at hd
    exact ⟨[], by simp, by simp [he, busyEvents, hd]⟩
  · cases k with
    | zero =>
      have he : readyLoop 0 b = (false, (expired .rdy (xchg fill b).2).2) := by simp only [readyLoop, if_neg hd]
      have hx := (expired_of_deadline (t := .rdy) (b := (xchg fill b).2) (d := ⟨start, ms, 0⟩) h).2.1
      refine ⟨[], by simp, ?_⟩
      simp only [he, Bool.false_eq_true, if_false]
      exact ⟨_, hd, by simp [hx, busyEvents]⟩
    | succ k =>
      obtain ⟨h1, h2, h3⟩ := expired_of_deadline (t := .rdy) (b := (xchg fill b).2) (d := ⟨start, ms, k + 1⟩) h
      have he : readyLoop (k + 1) b = readyLoop k (expired .rdy (xchg fill b).2).2 := by
        simp only [readyLoop, if_neg hd, h1]; rfl
      obtain ⟨busy, hb, hr⟩ := readyLoop_events k (expired .rdy (xchg fill b).2).2 start ms h3
      refine ⟨(xchg fill b).1 :: busy, by simpa using ⟨hd, hb⟩, ?_⟩
      rw [h2] at hr
      simpa [he, busyEvents] using hr

theorem waitReady_lines (b : Bus) :
    (waitReady b).2.cs = b.cs ∧ (waitReady b).2.clk = b.clk ∧ (waitReady b).2.tOp = b.tOp := by
  simpa [waitReady] using readyLoop_lines (rdyLeft (timerStart .rdy Config.readyMs b)) (timerStart .rdy Config.readyMs b)

/-- The ready wait (R127): its answer and its events. -/
theorem waitReady_events (b : Bus) :
    ∃ es, ReadyEvents (waitReady b).1 es ∧ (waitReady b).2.trace = b.trace ++ es := by
  obtain ⟨busy, hb, hr⟩ := readyLoop_events (rdyLeft (timerStart .rdy Config.readyMs b)) (timerStart .rdy Config.readyMs b)
    (readTick b.env).1 Config.readyMs rfl
  simp only [timerStart_trace] at hr
  cases ht : (waitReady b).1 with
  | true =>
    simp only [waitReady] at ht
    rw [ht] at hr
    exact ⟨_, ⟨busy, hb, rfl⟩, by simpa [waitReady, Config.readyMs] using hr⟩
  | false =>
    simp only [waitReady] at ht
    rw [ht] at hr
    obtain ⟨d, hd, hr⟩ := hr
    exact ⟨_, ⟨busy, hb, ⟨d, hd, rfl⟩⟩, by simpa [waitReady, Config.readyMs] using hr⟩

/-- A card that is ready at the first poll (R127). -/
theorem waitReady_script (b : Bus) (rest : List Byte) (h : b.env.rxIn = 0xFF#8 :: rest) :
    (waitReady b).1 = true ∧ (waitReady b).2.env.rxIn = rest ∧
    (waitReady b).2.trace = b.trace ++ [.tstart .rdy 500, .x fill 0xFF#8] := by
  obtain ⟨hd, hr⟩ :=
    drawByte_of_script (v := (timerStart .rdy Config.readyMs b).env) (r := 0xFF#8) (rest := rest) (by simpa using h)
  simp only [waitReady]
  cases rdyLeft (timerStart .rdy Config.readyMs b) <;>
    (simp only [readyLoop, xchg_fst, hd, if_true, xchg_env, hr, xchg_trace, timerStart_trace]; simp [Config.readyMs])

theorem select_lines (b : Bus) : (select b).2.clk = b.clk ∧ (select b).2.tOp = b.tOp ∧
    (select b).2.cs = (if (select b).1 then .asserted else .deasserted) := by
  obtain ⟨h1, h2, h3⟩ := waitReady_lines (discard fill (csAssert b))
  simp only [select]
  split
  · rename_i h; simp [h1, h2, h3]
  · simp [h2, h3]

/-- `deselect(); select()` (R142): its answer and its events. -/
theorem reselect_events (idx : BitVec 6) (b : Bus) (h : idx ≠ 12#6) :
    ∃ es, ReselectEvents (reselect idx b).1 es ∧ (reselect idx b).2.trace = b.trace ++ es := by
  rw [reselect, if_neg h]
  obtain ⟨ready, hr, ht⟩ := waitReady_events (discard fill (csAssert (deselect b)))
  simp only [discard_trace, csAssert_trace, deselect_trace] at ht
  simp only [select]
  split
  · rename_i hw
    rw [hw] at hr
    rw [hw]
    exact ⟨_, ⟨_, _, ready, hr, rfl⟩, by simp [ht]; exact ⟨rfl, rfl⟩⟩
  · rename_i hw
    have hw' : (waitReady (discard fill (csAssert (deselect b)))).1 = false := by simpa using hw
    rw [hw'] at hr
    exact ⟨_, ⟨_, _, ready, hr, ⟨_, rfl⟩⟩, by simp [ht, deselect_trace]; exact ⟨rfl, rfl, rfl⟩⟩

theorem reselect_lines (idx : BitVec 6) (b : Bus) (h : idx ≠ 12#6) : (reselect idx b).2.clk = b.clk ∧
    (reselect idx b).2.tOp = b.tOp ∧ (reselect idx b).2.cs = (if (reselect idx b).1 then .asserted else .deasserted) := by
  rw [reselect, if_neg h]
  simpa using select_lines (deselect b)

/-- A card that is ready at once: the four bytes the reselection takes from the script (R142). -/
theorem reselect_script (idx : BitVec 6) (b : Bus) (a0 a1 : Byte) (rest : List Byte) (h : idx ≠ 12#6)
    (hb : b.env.rxIn = a0 :: a1 :: 0xFF#8 :: rest) :
    (reselect idx b).1 = true ∧ (reselect idx b).2.env.rxIn = rest ∧
    (reselect idx b).2.trace = b.trace ++ [.cs .deasserted, .x fill a0, .cs .asserted, .x fill a1, .tstart .rdy 500,
      .x fill 0xFF#8] := by
  obtain ⟨h0, h1⟩ := drawByte_of_script hb
  obtain ⟨h2, h3⟩ := drawByte_of_script h1
  obtain ⟨hw, hr, ht⟩ := waitReady_script (discard fill (csAssert (deselect b))) rest h3
  rw [reselect, if_neg h]
  simp only [select, hw, if_true]
  refine ⟨trivial, hr, ?_⟩
  rw [ht]
  simp only [discard_trace, csAssert_trace, deselect_trace, csAssert_env, deselect_env, h2, h0, List.append_assoc,
    List.cons_append, List.nil_append]

end Sys2Proof.Machine
end

