-- ==== Sys2Proof/Laws/Bytes.lean ====
section
/-! SUPPORT. Bytes and words: appending and cutting bit vectors, and the byte orders of a call record and of a command argument. -/

namespace Sys2Proof

theorem toNat_cat {n m : Nat} (a : BitVec n) (b : BitVec m) : (a ++ b).toNat = a.toNat * 2 ^ m + b.toNat := by
  rw [BitVec.toNat_append, ← Nat.shiftLeft_add_eq_or_of_lt b.isLt, Nat.shiftLeft_eq]

theorem toNat_field {n : Nat} (a : BitVec n) (lo w : Nat) : (a.extractLsb' lo w).toNat = a.toNat / 2 ^ lo % 2 ^ w := by
  simp [BitVec.extractLsb'_toNat, Nat.shiftRight_eq_div_pow]

theorem leWord_leBytes4 (w : Word) :
    leWord (w.extractLsb' 0 8) (w.extractLsb' 8 8) (w.extractLsb' 16 8) (w.extractLsb' 24 8) = w := by
  apply BitVec.eq_of_toNat_eq
  have := w.isLt
  simp only [leWord, toNat_cat, toNat_field]
  omega

theorem leBytes4_leWord (b0 b1 b2 b3 : Byte) : leBytes4 (leWord b0 b1 b2 b3) = [b0, b1, b2, b3] := by
  have := b0.isLt; have := b1.isLt; have := b2.isLt; have := b3.isLt
  simp only [leBytes4, List.cons.injEq, and_true]
  refine ⟨?_, ?_, ?_, ?_⟩ <;> apply BitVec.eq_of_toNat_eq <;> simp only [leWord, toNat_cat, toNat_field] <;> omega
theorem beBytes4_beWord (b3 b2 b1 b0 : Byte) : beBytes4 (beWord b3 b2 b1 b0) = [b3, b2, b1, b0] := by
  have := b0.isLt; have := b1.isLt; have := b2.isLt; have := b3.isLt
  simp only [beBytes4, List.cons.injEq, and_true]
  refine ⟨?_, ?_, ?_, ?_⟩ <;> apply BitVec.eq_of_toNat_eq <;> simp only [beWord, toNat_cat, toNat_field] <;> omega

theorem beWord_beBytes4 (w : Word) :
    beWord (w.extractLsb' 24 8) (w.extractLsb' 16 8) (w.extractLsb' 8 8) (w.extractLsb' 0 8) = w := by
  apply BitVec.eq_of_toNat_eq
  have := w.isLt
  simp only [beWord, toNat_cat, toNat_field]
  omega

theorem wide_halves (v : Wide) : v.extractLsb' 32 32 ++ v.extractLsb' 0 32 = v := by
  apply BitVec.eq_of_toNat_eq
  have := v.isLt
  simp only [toNat_cat, toNat_field]
  omega

theorem takeWord_leBytes4 (w : Word) (rest : List Byte) : takeWord (leBytes4 w ++ rest) = some (w, rest) := by
  simp [takeWord, leBytes4, leWord_leBytes4]

theorem takeWide_leBytes8 (v : Wide) (rest : List Byte) : takeWide (leBytes8 v ++ rest) = some (v, rest) := by
  have h := wide_halves v
  simp only [leBytes8, leBytes4, takeWide, leWide, List.cons_append, List.nil_append, leWord_leBytes4, h]

theorem takeBuf_bufBytes (b : Buf) (rest : List Byte) : takeBuf (bufBytes b ++ rest) = some (b, rest) := by
  simp only [bufBytes, takeBuf, List.append_assoc, takeWide_leBytes8]

theorem takeWord_some {bs : List Byte} {w : Word} {rest : List Byte} (h : takeWord bs = some (w, rest)) :
    bs = leBytes4 w ++ rest := by
  match bs with
  | b0 :: b1 :: b2 :: b3 :: tl =>
    simp only [takeWord, Option.some.injEq, Prod.mk.injEq] at h
    obtain ⟨rfl, rfl⟩ := h
    simp [leBytes4_leWord]
  | [] | [_] | [_, _] | [_, _, _] => simp [takeWord] at h

theorem takeWide_some {bs : List Byte} {v : Wide} {rest : List Byte} (h : takeWide bs = some (v, rest)) :
    bs = leBytes8 v ++ rest := by
  match bs with
  | b0 :: b1 :: b2 :: b3 :: b4 :: b5 :: b6 :: b7 :: tl =>
    simp only [takeWide, Option.some.injEq, Prod.mk.injEq] at h
    obtain ⟨rfl, rfl⟩ := h
    have h1 : (leWide b0 b1 b2 b3 b4 b5 b6 b7).extractLsb' 0 32 = leWord b0 b1 b2 b3 := BitVec.extractLsb'_append_eq_right
    have h2 : (leWide b0 b1 b2 b3 b4 b5 b6 b7).extractLsb' 32 32 = leWord b4 b5 b6 b7 := BitVec.extractLsb'_append_eq_left
    simp [leBytes8, h1, h2, leBytes4_leWord]
  | [] | [_] | [_, _] | [_, _, _] | [_, _, _, _] | [_, _, _, _, _] | [_, _, _, _, _, _] | [_, _, _, _, _, _, _] =>
    simp [takeWide] at h

theorem takeBuf_some {bs : List Byte} {b : Buf} {rest : List Byte} (h : takeBuf bs = some (b, rest)) :
    bs = bufBytes b ++ rest := by
  simp only [takeBuf] at h
  split at h
  · cases h
  · rename_i base bs1 h1
    split at h
    · cases h
    · rename_i len bs2 h2
      cases h
      rw [takeWide_some h1, takeWide_some h2]
      simp [bufBytes]
end Sys2Proof
end

