-- ==== Sys2Proof/Laws/Sequencer.lean ====
section
/-! SUPPORT. What the sequencer's successors leave unchanged: one frame lemma for the value a command returns (R140, R141), for the
start of a command, and for a step's fetch. -/

namespace Sys2Proof.Machine

theorem Untouched.refl (s : State) : Untouched s s := ⟨⟨rfl, rfl⟩, rfl, rfl, rfl, rfl, rfl⟩

theorem Untouched.trans {s t u : State} (h : Untouched s t) (k : Untouched t u) : Untouched s u :=
  ⟨⟨k.driver.1.trans h.driver.1, k.driver.2.trans h.driver.2⟩, k.clk.trans h.clk, k.buf.trans h.buf,
    k.result.trans h.result, k.host.trans h.host, k.mode.trans h.mode⟩

theorem SameMemory.of_eq {s t : State} (h : t.mem = s.mem) : SameMemory s t := fun _ => by rw [h]

/-- A command's step leaves the driver state, memory and the clock, and the working registers `res`, `n` hold what the poll
left. -/
structure Answered (s t : State) : Prop where
  untouched : Untouched s t
  mem : t.mem = s.mem
  cs : t.bus.cs = s.bus.cs
  tRdy : t.bus.tRdy = s.bus.tRdy
  res : t.work.res = s.work.res
  n : t.work.n = s.work.n
  noPoll : ∀ site e, t.seq ≠ .poll site e

theorem callSite_noPoll (site : Site) (w : Work) : ∀ site' e, callSite site w ≠ .poll site' e := by
  intro site' e; simp only [callSite]; split <;> simp

/-- Receiving the OCR exchanges four bytes (R147). -/
theorem latchOcr_only (s : State) : s.bus.OnlyExchanged (latchOcr s).bus := receiveBytes_only 4 s.bus

/-- The caller's branch on a response, for every site and every response. -/
theorem afterResponse_answered (site : Site) (r : Byte) (s : State) : Answered s (afterResponse site r s) := by
  have ho := latchOcr_only s
  cases site <;>
    simp only [afterResponse, afterCmd0, afterCmd8, afterAcmd41, afterCmd58, afterProbe, afterLoop, afterCmd16, afterCmd17,
      afterCmd18, afterCmd12, afterCmd24, afterAcmd23, afterCmd25, afterCmd9] <;>
    (try split) <;> (try split) <;>
    refine ⟨⟨⟨rfl, rfl⟩, ?_, rfl, rfl, rfl, rfl⟩, rfl, ?_, ?_, rfl, rfl, ?_⟩ <;>
    first
      | rfl
      | exact ho.clk
      | exact ho.cs
      | exact ho.tRdy
      | (intro _ _ h; cases h)

/-- A response larger than 1 is an error to every caller: nothing is put on the bus. -/
theorem afterResponse_error (site : Site) (r : Byte) (s : State) (h : idleOrReady r = false) :
    (afterResponse site r s).bus = s.bus := by
  have h1 : r ≠ 0#8 := by rintro rfl; cases h
  have h2 : r ≠ 1#8 := by rintro rfl; cases h
  cases site <;>
    simp [afterResponse, afterCmd0, afterCmd8, afterAcmd41, afterCmd58, afterProbe, afterLoop, afterCmd16, afterCmd17,
      afterCmd18, afterCmd12, afterCmd24, afterAcmd23, afterCmd25, afterCmd9, isIdleResponse, isReady, h, h1, h2]

/-- A command answers `r` (R140, R141): `res` is `r`, and the frame. -/
theorem respond_spec (site : Site) (escaping : Bool) (r : Byte) (s : State) :
    Untouched s (respond site escaping r s) ∧ (respond site escaping r s).mem = s.mem ∧
    (respond site escaping r s).bus.cs = s.bus.cs ∧ (respond site escaping r s).bus.tRdy = s.bus.tRdy ∧
    (respond site escaping r s).work.res = some r ∧ (respond site escaping r s).work.n = s.work.n ∧
    ∀ site' e, (respond site escaping r s).seq ≠ .poll site' e := by
  simp only [respond]
  split
  · exact ⟨⟨⟨rfl, rfl⟩, rfl, rfl, rfl, rfl, rfl⟩, rfl, rfl, rfl, rfl, rfl, by intro _ _ h; cases h⟩
  · obtain ⟨hu, hm, hc, ht, hr, hn, hp⟩ := afterResponse_answered site r { s with work := { s.work with res := some r } }
    exact ⟨⟨hu.driver, hu.clk, hu.buf, hu.result, hu.host, hu.mode⟩, hm, hc, ht, hr, hn, hp⟩

theorem respond_error (site : Site) (escaping : Bool) (r : Byte) (s : State) (h : idleOrReady r = false) :
    (respond site escaping r s).bus = s.bus := by
  simp only [respond, h, Bool.and_false]
  exact afterResponse_error site r _ h

/-- Every error response takes the operation to the same place (R146): the caller compares with 0 and 1 only. -/
theorem respond_as_error (site : Site) (escaping : Bool) (r : Byte) (s : State) (l : Seq) (h : idleOrReady r = false) :
    respond site escaping r s = { respond site escaping 0x7F#8 { s with seq := l } with
      work := { (respond site escaping 0x7F#8 { s with seq := l }).work with res := some r } } := by
  have h0 : isReady r = false := by revert r; decide
  have h1 : isIdleResponse r = false := by revert r; decide
  have k : idleOrReady 0x7F#8 = false := rfl
  have k0 : isReady 0x7F#8 = false := rfl
  have k1 : isIdleResponse 0x7F#8 = false := rfl
  simp only [respond, h, k, Bool.and_false, Bool.false_eq_true, if_false]
  cases site <;>
    simp [afterResponse, afterCmd0, afterCmd8, afterAcmd41, afterCmd58, afterProbe, afterLoop, afterCmd16, afterCmd17,
      afterCmd18, afterCmd12, afterCmd24, afterAcmd23, afterCmd25, afterCmd9, h, h0, h1, k, k0, k1, goto, call, setTy,
      callSite, siteIsApp]

theorem sendFrame_only (idx : BitVec 6) (arg : Word) (b : Bus) : b.OnlyExchanged (sendFrame idx arg b) := by
  obtain ⟨h1, h2, h3, h4⟩ := sendBytes_only (frameBytes idx arg) b
  simp only [sendFrame]
  split <;> exact ⟨h1, h2, h3, h4⟩

/-- The frame's exchanges (R144, R145). -/
theorem sendFrame_trace (idx : BitVec 6) (arg : Word) (b : Bus) :
    ∃ es, Exchanges (frameBytes idx arg ++ if idx = 12#6 then [fill] else []) es ∧
      (sendFrame idx arg b).trace = b.trace ++ es := by
  simp only [sendFrame]
  split
  · obtain ⟨es, h1, h2⟩ := sendBytes_trace (frameBytes idx arg ++ [fill]) b
    exact ⟨es, h1, by rw [← h2, sendBytes_append]; rfl⟩
  · simpa using sendBytes_trace (frameBytes idx arg) b

/-- A command but CMD12 is issued (R140, R142, R144): selected with its frame sent and ten polls left, or a timeout. -/
theorem issueAt_spec (site : Site) (escaping : Bool) (idx : BitVec 6) (arg : Word) (s : State) (h : idx ≠ 12#6) :
    ∃ (ok : Bool) (es : List Event), ok = (select (deselect s.bus)).1 ∧ ReselectEvents ok es ∧
      Untouched s (issueAt site escaping idx arg s) ∧
      (issueAt site escaping idx arg s).mem = s.mem ∧ (issueAt site escaping idx arg s).bus.tOp = s.bus.tOp ∧
      if ok then
        (∃ fr, Exchanges (frameBytes idx arg) fr ∧
          (issueAt site escaping idx arg s).trace = s.trace ++ es ++ fr) ∧
        (issueAt site escaping idx arg s).bus.cs = .asserted ∧
        (issueAt site escaping idx arg s).seq = .poll site escaping ∧
        (issueAt site escaping idx arg s).work = { s.work with n := some 10 }
      else
        (issueAt site escaping idx arg s).trace = s.trace ++ es ∧
        issueAt site escaping idx arg s = respond site escaping 0xFF#8 { s with bus := (reselect idx s.bus).2 } ∧
        (reselect idx s.bus).2.cs = .deasserted := by
  obtain ⟨es, he, ht⟩ := reselect_events idx s.bus h
  obtain ⟨hk, ho, hc⟩ := reselect_lines idx s.bus h
  refine ⟨(reselect idx s.bus).1, es, by rw [reselect, if_neg h], he, ?_⟩
  cases hr : (reselect idx s.bus).1 with
  | true =>
    obtain ⟨h1, h2, h3, h4⟩ := sendFrame_only idx arg (reselect idx s.bus).2
    obtain ⟨fr, hf, hft⟩ := sendFrame_trace idx arg (reselect idx s.bus).2
    rw [if_neg h, List.append_nil] at hf
    simp only [issueAt, hr, if_true]
    rw [hr] at hc
    exact ⟨⟨⟨rfl, rfl⟩, h2.trans hk, rfl, rfl, rfl, rfl⟩, trivial, h3.trans ho,
      ⟨fr, hf, by simpa [State.trace, ht] using hft⟩, h1.trans hc, trivial, rfl⟩
  | false =>
    rw [hr] at hc
    have hb := respond_error site escaping noResponse { s with bus := (reselect idx s.bus).2 } rfl
    obtain ⟨hu, hm, -⟩ := respond_spec site escaping noResponse { s with bus := (reselect idx s.bus).2 }
    simp only [issueAt, hr, Bool.false_eq_true, if_false]
    refine ⟨⟨hu.driver, hu.clk.trans hk, hu.buf, hu.result, hu.host, hu.mode⟩, hm, ?_, ?_, rfl, hc⟩
    · rw [hb]; exact ho
    · simp only [State.trace, hb]; exact ht

/-! ## Fetch -/

theorem step_of_running {s : State} (h : s.seq ≠ .idle) (hp : overlapPending s = false) : step s = stepRun s := by
  unfold step
  split
  · exact absurd ‹s.seq = .idle› h
  · rw [hp]; rfl

/-- What the block sends decodes to what it means to send (R81, R92). -/
theorem decodeFrame_frameBytes (idx : BitVec 6) (arg : Word) (i : Instr) (rest : List Byte)
    (h : decodeIndex idx arg = .ok i) : decode .cmdFrame (frameBytes idx arg ++ rest) = .ok (i, rest) := by
  have h1 : (0x40#8 ||| idx.setWidth 8).extractLsb' 0 6 = idx := by clear h; revert idx; decide
  have h2 : (0x40#8 ||| idx.setWidth 8).extractLsb' 6 2 = 0b01#2 := by clear h h1; revert idx; decide
  simp [decode, frameBytes, beBytes4, decodeFrame, h1, h2, beWord_beBytes4, h]

theorem decodeDataResp_accepted (r : Byte) (rest : List Byte) (h : r.extractLsb' 0 5 = 0b00101#5) :
    decode .dataResp (r :: rest) = .ok (.dataRespAccepted (r.extractLsb' 5 3), rest) := by
  simp [decode, decodeDataResp, h]

theorem decodeR1_valid (r : Byte) (rest : List Byte) (h : r.extractLsb' 7 1 = 0#1) :
    decode .r1 (r :: rest) = .ok (.r1Valid (r.extractLsb' 0 7), rest) := by
  simp [decode, decodeR1, h]

end Sys2Proof.Machine
end

