-- ==== Sys2Proof/Laws/Step.lean ====
section
/-! SUPPORT. What a step is at each label of the sequencer, and what a host operation can answer at IDLE: said once, so that no
proof about steps unfolds the dispatch again. -/

namespace Sys2Proof.Machine

/-! ## Small facts -/

theorem word_pred_zero (n : Word) : n - 1#32 = 0#32 ↔ n = 1#32 :=
  ⟨fun h => sub_eq_zero.1 h, by rintro rfl; rfl⟩

theorem advanceBlock_work_of {s : State} {p : Nat} {n : Word} (hp : s.work.ptr = some p) (hn : s.work.cnt = some n) :
    (advanceBlock s).work = { s.work with ptr := some (p + 512), cnt := some (n - 1#32) } := by
  simp [Work.ptrVal, Work.cntVal, hp, hn, Config.blockSize]

theorem bufAddr_of {s : State} {b : Buf} (h : s.buf = some b) (off : Nat) :
    bufAddr (bufOf s) off = b.base.toNat + off := by simp [bufAddr, bufOf, h]

theorem inBuffer_of {s : State} {b : Buf} (h : s.buf = some b) (off n : Nat) :
    inBuffer (bufOf s) off n = decide (off + n ≤ b.len.toNat) := by simp [inBuffer, bufOf, h]

theorem ptrVal_of {w : Work} {p : Nat} (h : w.ptr = some p) : w.ptrVal = p := by simp [Work.ptrVal, h]

/-! ## Which words decode in which format -/

theorem decodeHost_format {bs rest : List Byte} {i : Instr} (h : decode .hostOp bs = .ok (i, rest)) :
    i.format = .hostOp := by
  have h1 : ∀ mk : Byte → Instr, (∀ d, (mk d).format = .hostOp) → ∀ bs, decodeDrive mk bs = .ok (i, rest) →
      i.format = .hostOp := by
    intro mk hm bs h; unfold decodeDrive at h; split at h <;> cases h; exact hm _
  have h2 : ∀ mk : Byte → Buf → Instr, (∀ d b, (mk d b).format = .hostOp) → ∀ bs, decodeDriveBuf mk bs = .ok (i, rest) →
      i.format = .hostOp := by
    intro mk hm bs h; unfold decodeDriveBuf at h; split at h <;> (try split at h) <;> cases h; exact hm _ _
  have h3 : ∀ mk : Byte → Buf → Word → Word → Instr, (∀ d b s c, (mk d b s c).format = .hostOp) → ∀ bs,
      decodeTransfer mk bs = .ok (i, rest) → i.format = .hostOp := by
    intro mk hm bs h; unfold decodeTransfer at h
    split at h <;> (try split at h) <;> (try split at h) <;> (try split at h) <;> cases h; exact hm _ _ _ _
  simp only [decode, decodeHost] at h
  split at h
  · split at h
    · cases h
    · split at h
      · split at h
        · exact h1 _ (fun _ => rfl) _ h
        · cases h
      · split at h
        · exact h1 _ (fun _ => rfl) _ h
        · cases h
      · split at h
        · exact h3 _ (fun _ _ _ _ => rfl) _ h
        · cases h
      · split at h
        · exact h3 _ (fun _ _ _ _ => rfl) _ h
        · cases h
      · simp only [decodeIoctl] at h
        split at h
        · exact h2 _ (fun _ _ => rfl) _ h
        · split at h
          · exact h2 _ (fun _ _ => rfl) _ h
          · split at h
            · exact h2 _ (fun _ _ => rfl) _ h
            · exact h2 _ (fun _ _ => rfl) _ h
      · cases h
  · cases h

/-! ## A step of the operation in progress, label by label -/

theorem noOverlap_of_next {s t : State} (h : step s = .next t) (hi : s.seq ≠ .idle) : overlapPending s = false := by
  cases hp : overlapPending s with
  | false => rfl
  | true =>
    unfold step at h
    split at h
    · exact absurd ‹s.seq = .idle› hi
    · rw [hp] at h; cases h

theorem step_idle {s : State} (h : s.seq = .idle) : step s = stepIdle s := by
  unfold step; rw [h]

/-- The index and argument a site's frame has (R83, R108). -/
theorem siteInstr_issue (site : Site) (s : State) (hs : s.seq = .frame site) :
    ∃ idx arg, exec (siteInstr site s.work) s = .next (issueAt site false idx arg s) ∧
      encode (siteInstr site s.work) = frameBytes idx arg ∧
      decode .cmdFrame (siteFrame site s) = .ok (siteInstr site s.work, []) ∧ (idx = 12#6 ↔ site = .readCmd12) := by
  cases site <;> simp only [siteFrame, siteInstr] <;> (try cases s.work.cmdSelVal) <;>
    exact ⟨_, _, by simp only [exec, execCmd0, execCmd1, execCmd8, execCmd9, execCmd12, execCmd16, execCmd17, execCmd18,
      execCmd24, execCmd25, execCmd58, execAcmd23, execAcmd41, issue, hs], rfl, decodeFrame_frameBytes _ _ _ [] rfl,
      by simp⟩

theorem step_escape {s : State} {site : Site} (hp : overlapPending s = false) (hs : s.seq = .escape site) :
    step s = .next (issueAt site true 55 0 s) := by
  rw [step_of_running (by simp [hs]) hp]
  have h : decode .cmdFrame escapeFrame = .ok (.cmd55, []) := decodeFrame_frameBytes _ _ _ [] rfl
  simp only [stepRun, hs, stepSend, h, exec, execCmd55, issueEscape]

theorem step_frame {s : State} {site : Site} (hp : overlapPending s = false) (hs : s.seq = .frame site) :
    ∃ idx arg, step s = .next (issueAt site false idx arg s) ∧ encode (siteInstr site s.work) = frameBytes idx arg ∧
      (idx = 12#6 ↔ site = .readCmd12) := by
  obtain ⟨idx, arg, h1, h2, h3, h4⟩ := siteInstr_issue site s hs
  refine ⟨idx, arg, ?_, h2, h4⟩
  rw [step_of_running (by simp [hs]) hp]
  simp only [stepRun, hs, stepSend, h3, h1]

theorem step_poll {s : State} {site : Site} {e : Bool} (hp : overlapPending s = false) (hs : s.seq = .poll site e) :
    step s = .next (if (xchg fill s.bus).1.getLsbD 7 then pollMissed site e (xchg fill s.bus).1 (pollExchange s).2
      else respond site e (xchg fill s.bus).1 (pollExchange s).2) := by
  rw [step_of_running (by simp [hs]) hp]
  have e1 : (pollExchange s).1 = (xchg fill s.bus).1 := rfl
  have hseq : (pollExchange s).2.seq = .poll site e := hs
  simp only [stepRun, hs, stepReceive, e1]
  generalize (xchg fill s.bus).1 = r
  cases h7 : r.getLsbD 7
  · have h0 : r.extractLsb' 7 1 = 0#1 := by clear * - h7; revert r; decide
    have h1 : 0#1 ++ r.extractLsb' 0 7 = r := by clear * - h7; revert r; decide
    rw [decodeR1_valid r [] h0]
    simp only [exec, execR1Valid, hseq, h1]; rfl
  · have h0 : r.extractLsb' 7 1 ≠ 0#1 := by clear * - h7; revert r; decide
    have hd : decode .r1 [r] = .error .notAResponse := by simp [decode, decodeR1, h0]
    rw [hd]; rfl

theorem step_loopHead {s : State} {kind : LoopKind} (hp : overlapPending s = false) (hs : s.seq = .loopHead kind) :
    step s = .next (loopQuery kind s) := by
  rw [step_of_running (by simp [hs]) hp]; simp only [stepRun, hs]

theorem step_token {s : State} {use : RecvUse} (hp : overlapPending s = false) (hs : s.seq = .token use) :
    step s = if (xchg fill s.bus).1 = 0xFE#8 then receiveData use (tokenExchange s).2
      else .next (tokenMissed use (xchg fill s.bus).1 (tokenExchange s).2) := by
  rw [step_of_running (by simp [hs]) hp]
  have e1 : (tokenExchange s).1 = (xchg fill s.bus).1 := rfl
  have hseq : (tokenExchange s).2.seq = .token use := hs
  simp only [stepRun, hs, stepReceive, e1]
  generalize (xchg fill s.bus).1 = r
  by_cases h : r = 0xFE#8
  · subst h
    have hd : decode .dataIn [0xFE#8] = .ok (.tokenStartBlock, []) := rfl
    rw [hd, if_pos rfl]
    simp only [exec, execTokenStartBlock, hseq]
  · have hd : decode .dataIn [r] = .error .notAToken := by simp [decode, decodeDataIn, startBlockToken, h]
    rw [hd, if_neg h]

theorem step_xmit {s : State} {use : XmitUse} (hp : overlapPending s = false) (hs : s.seq = .xmit use) :
    step s = transmitData ((xmitToken use).headD 0#8) use s := by
  rw [step_of_running (by simp [hs]) hp]
  cases use
  · have hd : decode .dataOut (xmitToken .single) = .ok (.tokenStartBlock, []) := rfl
    simp only [stepRun, hs, stepSend, hd, exec, execTokenStartBlock]; rfl
  · have hd : decode .dataOut (xmitToken .multi) = .ok (.tokenStartMultiWrite, []) := rfl
    simp only [stepRun, hs, stepSend, hd, exec, execTokenStartMultiWrite]; rfl

theorem step_dataResp {s : State} {use : XmitUse} (hp : overlapPending s = false) (hs : s.seq = .dataResp use) :
    step s = .next (if (xchg fill s.bus).1.extractLsb' 0 5 = 0b00101#5 then blockAccepted use (respExchange s).2
      else blockFailed use (respExchange s).2) := by
  rw [step_of_running (by simp [hs]) hp]
  have e1 : (respExchange s).1 = (xchg fill s.bus).1 := rfl
  have hseq : (respExchange s).2.seq = .dataResp use := hs
  simp only [stepRun, hs, stepReceive, e1]
  generalize (xchg fill s.bus).1 = r
  by_cases h : r.extractLsb' 0 5 = 0b00101#5
  · rw [decodeDataResp_accepted r [] h, if_pos h]
    simp only [exec, execDataRespAccepted, hseq]
  · have hd : decode .dataResp [r] = .error .notAccepted := by simp [decode, decodeDataResp, h]
    rw [hd, if_neg h]

theorem step_stop {s : State} (hp : overlapPending s = false) (hs : s.seq = .stop) : step s = .next (transmitStop s) := by
  rw [step_of_running (by simp [hs]) hp]
  have hd : decode .stopToken stopBytes = .ok (.tokenStopTran, []) := rfl
  simp only [stepRun, hs, stepSend, hd, exec, execTokenStopTran]

theorem step_initEnd {s : State} (hp : overlapPending s = false) (hs : s.seq = .initEnd) :
    step s = .next (finishInit s) := by
  rw [step_of_running (by simp [hs]) hp]; simp only [stepRun, hs]

theorem step_ioEnd {s : State} (hp : overlapPending s = false) (hs : s.seq = .ioEnd) : step s = .next (finishIo s) := by
  rw [step_of_running (by simp [hs]) hp]; simp only [stepRun, hs]

theorem step_countEnd {s : State} {ok : Bool} (hp : overlapPending s = false) (hs : s.seq = .countEnd ok) :
    step s = .next (finishIoctl (okOrGeneric ok) s) := by
  rw [step_of_running (by simp [hs]) hp]; simp only [stepRun, hs]

/-! ## An overlapping call behind an operation of one step (R70, R267) -/

/-- What goes on is what the operation answered, and with its return no overlapping call was pending. -/
theorem refuseOverlap_next {o : Host.Outcome State Fault Refusal} {t : State} (h : refuseOverlap o = .next t) :
    o = .next t ∧ (t.seq = .idle → overlapPending t = false) := by
  unfold refuseOverlap at h
  split at h
  · split at h
    · cases h
    · rename_i hn
      cases h
      exact ⟨rfl, fun hs => by simpa [hs] using hn⟩
  · cases h
  · cases h

/-- An outcome that leaves no overlapping call at IDLE stands. -/
theorem refuseOverlap_of_quiet {o : Host.Outcome State Fault Refusal}
    (h : ∀ t, o = .next t → t.seq = .idle → overlapPending t = false) : refuseOverlap o = o := by
  unfold refuseOverlap
  split
  · rename_i t
    rw [if_neg]
    rintro ⟨hs, hp⟩
    rw [h t rfl hs] at hp
    cases hp
  · rfl
  · rfl

/-- An operation that returned in its step under an overlapping call is refused. -/
theorem refuseOverlap_of_overlap {o : Host.Outcome State Fault Refusal} {t : State} (h : o = .next t) (hs : t.seq = .idle)
    (hp : overlapPending t = true) : refuseOverlap o = .refused .overlappingCall := by
  rw [h, refuseOverlap, if_pos ⟨hs, hp⟩]

/-- A step at IDLE on a call that decodes. -/
theorem step_call {s : State} {bytes rest : List Byte} {later : List HostEvent} {i : Instr} (hi : s.seq = .idle)
    (hh : s.host = .call bytes :: later ∨ s.host = .callNow bytes :: later) (hd : decode .hostOp bytes = .ok (i, rest)) :
    step s = refuseOverlap (exec i { s with host := later }) := by
  rw [step_idle hi]
  rcases hh with hh | hh <;> simp only [stepIdle, hh, stepCall, hd]

/-! ## A host operation at IDLE -/

/-- The next states a host operation can answer at IDLE, with the checks that were passed (R181, R211, R217, R240, R241). -/
inductive HostNext (s : State) : State → Prop
  /-- A check's error, or STATUS: nothing on the bus. -/
  | returned (v : Byte) : HostNext s (returnValue v (beginCall s))
  /-- INIT on drive 0. -/
  | poweredUp : HostNext s (powerUp (beginCall s))
  /-- READ past its checks. -/
  | reading (b : Buf) (sector count : Word) (hc : count ≠ 0#32) (hr : isNotInitialized s.status = false) :
      HostNext s (call (readSite count) (loadTransfer b sector count (beginCall s)))
  /-- WRITE past its checks. -/
  | writing (b : Buf) (sector count : Word) (hc : count ≠ 0#32) (hr : isNotInitialized s.status = false) :
      HostNext s (call (writeSite s.cardType count) (loadTransfer b sector count (beginCall s)))
  /-- Sync past its checks. -/
  | synced (hr : isNotInitialized s.status = false) : HostNext s (sync (beginCall s))
  /-- GetSectorCount past its checks. -/
  | counting (b : Buf) (hr : isNotInitialized s.status = false) :
      HostNext s (call .countCmd9 { beginCall s with buf := some b })
  /-- GetSectorSize past its checks. -/
  | sized (b : Buf) (hr : isNotInitialized s.status = false) (hb : inBuffer b 0 2 = true) :
      HostNext s (finishIoctl resOk (storeSize b (beginCall s)))
  /-- Any other ioctl command past its checks. -/
  | rejected (hr : isNotInitialized s.status = false) : HostNext s (finishIoctl resParamError (beginCall s))

theorem readCheck_none {drive : Byte} {count : Word} {s : State} (h : readCheck drive count s = none) :
    drive = 0#8 ∧ count ≠ 0#32 ∧ isNotInitialized s.status = false := by
  simp only [readCheck] at h
  split at h
  · cases h
  · rename_i h1
    split at h
    · cases h
    · rename_i h2
      exact ⟨by by_contra hd; exact h1 (.inl hd), fun hc => h1 (.inr hc), by simpa using h2⟩

theorem ioctlCheck_none {drive : Byte} {s : State} (h : ioctlCheck drive s = none) :
    drive = 0#8 ∧ isNotInitialized s.status = false := by
  simp only [ioctlCheck] at h
  split at h
  · cases h
  · rename_i h1
    split at h
    · cases h
    · rename_i h2
      exact ⟨by simpa using h1, by simpa using h2⟩

theorem hostOp_next {i : Instr} {s t : State} (hi : s.seq = .idle) (hf : i.format = .hostOp) (h : exec i s = .next t) :
    HostNext s t := by
  cases i with
  | init d =>
    simp only [exec, execInit, atIdle, hi] at h
    split at h <;> cases h
    · exact .returned _
    · exact .poweredUp
  | status d =>
    simp only [exec, execStatus, atIdle, hi] at h
    cases h
    exact .returned _
  | read d b sec cnt =>
    simp only [exec, execRead, atIdle, hi] at h
    split at h
    · cases h; exact .returned _
    · rename_i hc
      cases h
      obtain ⟨-, h1, h2⟩ := readCheck_none hc
      exact .reading b sec cnt h1 h2
  | write d b sec cnt =>
    simp only [exec, execWrite, atIdle, hi] at h
    split at h
    · cases h; exact .returned _
    · rename_i hc
      cases h
      simp only [writeCheck] at hc
      split at hc
      · cases hc
      · rename_i hr
        obtain ⟨-, h1, h2⟩ := readCheck_none hr
        exact .writing b sec cnt h1 h2
  | ioctlSync d b =>
    simp only [exec, execIoctlSync, ioctl, atIdle, hi] at h
    split at h
    · cases h; exact .returned _
    · rename_i hc
      cases h
      exact .synced (ioctlCheck_none hc).2
  | ioctlGetSectorCount d b =>
    simp only [exec, execIoctlGetSectorCount, ioctl, atIdle, hi] at h
    split at h
    · cases h; exact .returned _
    · rename_i hc
      cases h
      exact .counting b (ioctlCheck_none hc).2
  | ioctlGetSectorSize d b =>
    simp only [exec, execIoctlGetSectorSize, ioctl, atIdle, hi] at h
    split at h
    · cases h; exact .returned _
    · rename_i hc
      split at h
      · rename_i hb
        cases h
        exact .sized b (ioctlCheck_none hc).2 hb
      · cases h
  | ioctlOther k d b =>
    simp only [exec, execIoctlOther, ioctl, atIdle, hi] at h
    split at h
    · cases h; exact .returned _
    · rename_i hc
      cases h
      exact .rejected (ioctlCheck_none hc).2
  | _ => cases hf

/-- What a step at IDLE can answer: after a call that returned, no overlapping call is left behind it (R70). -/
theorem stepIdle_next {s t : State} (hi : s.seq = .idle) (h : step s = .next t) :
    (s.host = [] ∧ t = s) ∨
    (∃ bytes later, (s.host = .call bytes :: later ∨ s.host = .callNow bytes :: later) ∧
      HostNext { s with host := later } t ∧ (t.seq = .idle → overlapPending t = false)) ∨
    (∃ nd wp later, s.host = .socketUpdate nd wp :: later ∧ t = socketUpdate nd wp { s with host := later }) ∨
    (∃ a bytes later, s.host = .store a bytes :: later ∧ t = hostStore a bytes { s with host := later }) := by
  have key : ∀ bytes later, stepCall bytes { s with host := later } = .next t →
      HostNext { s with host := later } t ∧ (t.seq = .idle → overlapPending t = false) := by
    intro bytes later hc
    simp only [stepCall] at hc
    split at hc
    · rename_i i _ hd
      obtain ⟨ho, hq⟩ := refuseOverlap_next hc
      exact ⟨hostOp_next hi (decodeHost_format hd) ho, hq⟩
    · cases hc
  rw [step_idle hi] at h
  simp only [stepIdle] at h
  split at h
  · rename_i hh; cases h; exact .inl ⟨hh, rfl⟩
  · rename_i hh; exact .inr (.inl ⟨_, _, .inl hh, key _ _ h⟩)
  · rename_i hh; exact .inr (.inl ⟨_, _, .inr hh, key _ _ h⟩)
  · rename_i hh; cases h; exact .inr (.inr (.inl ⟨_, _, _, hh, rfl⟩))
  · rename_i hh; cases h; exact .inr (.inr (.inr ⟨_, _, _, hh, rfl⟩))

end Sys2Proof.Machine
end

