-- ==== Sys2Proof/Laws/Blocks.lean ====
section
/-! SUPPORT. Data blocks (43_block_io.md): everything that receiving or sending one does, with the payload and the bus after it as
variables, so that no proof unfolds 512 exchanges. -/

namespace Sys2Proof.Machine

/-- The payload and the two discarded CRC bytes (R216). -/
theorem receivePayload_spec (n : Nat) (b : Bus) :
    ∃ (p : List Byte) (b' : Bus) (c0 c1 : Byte), receivePayload n b = (p, b') ∧ p.length = n ∧ b.OnlyExchanged b' ∧
      b'.trace = b.trace ++ p.map (fun r => .x 0xFF#8 r) ++ [.x 0xFF#8 c0, .x 0xFF#8 c1] := by
  obtain ⟨c0, c1, ht⟩ := receivePayload_trace n b
  exact ⟨_, _, c0, c1, rfl, receivePayload_length n b, receivePayload_only n b, ht⟩

/-- A received block of a single-block read (R213, R216). -/
theorem receiveBlock_single (s : State) :
    ∃ (p : List Byte) (b' : Bus) (c0 c1 : Byte), p.length = 512 ∧ s.bus.OnlyExchanged b' ∧
      b'.trace = s.trace ++ p.map (fun r => .x 0xFF#8 r) ++ [.x 0xFF#8 c0, .x 0xFF#8 c1] ∧
      receiveBlock .single s =
        { s with
          seq := .ioEnd
          work := { s.work with cnt := some 0#32 }
          mem := s.mem.writeBytes (bufAddr (bufOf s) s.work.ptrVal) p
          bus := b' } := by
  obtain ⟨p, b', c0, c1, h, hl, ho, ht⟩ := receivePayload_spec Config.blockSize s.bus
  exact ⟨p, b', c0, c1, hl, ho, ht, by simp only [receiveBlock, h, blockReceived, clearCount, Machine.goto]⟩

/-- A received block of a multi-block read: CMD12 or another token wait is next (R214, R216). -/
theorem receiveBlock_multi (s : State) :
    ∃ (p : List Byte) (b' : Bus) (c0 c1 : Byte), p.length = 512 ∧ s.bus.OnlyExchanged b' ∧
      b'.trace = s.trace ++ p.map (fun r => .x 0xFF#8 r) ++ [.x 0xFF#8 c0, .x 0xFF#8 c1] ∧
      receiveBlock .multi s =
        { s with
          seq := if s.work.cntVal = 1#32 then .frame .readCmd12 else .token .multi
          work := { s.work with ptr := some (s.work.ptrVal + 512), cnt := some (s.work.cntVal - 1#32) }
          mem := s.mem.writeBytes (bufAddr (bufOf s) s.work.ptrVal) p
          bus := if s.work.cntVal = 1#32 then b' else timerStart .op 200 b' } := by
  obtain ⟨p, b', c0, c1, h, hl, ho, ht⟩ := receivePayload_spec Config.blockSize s.bus
  refine ⟨p, b', c0, c1, hl, ho, ht, ?_⟩
  simp only [receiveBlock, h, blockReceived, advanceBlock, Work.cntVal, Option.getD_some, word_pred_zero]
  by_cases hc : s.work.cnt.getD 0#32 = 1#32 <;>
    simp only [hc, if_true, if_false, Machine.goto, enterToken, Config.blockSize, Config.tokenMs]

/-- The received CSD, its parse and the count written (R243). -/
theorem countReceived_receiveCsd (s : State) :
    ∃ (csd : List Byte) (b' : Bus) (c0 c1 : Byte), csd.length = 16 ∧ s.bus.OnlyExchanged b' ∧
      b'.trace = s.trace ++ csd.map (fun r => .x 0xFF#8 r) ++ [.x 0xFF#8 c0, .x 0xFF#8 c1] ∧
      csdOf (receiveCsd s) = csd ∧
      countReceived (receiveCsd s) =
        { s with
          seq := .countEnd (parseCsd csd).isSome
          work := { s.work with csd := some csd }
          mem := match parseCsd csd with
            | some v => s.mem.writeBytes (bufAddr (bufOf s) 0) (leBytes4 v)
            | none => s.mem
          bus := b' } := by
  obtain ⟨p, b', c0, c1, h, hl, ho, ht⟩ := receivePayload_spec Config.csdSize s.bus
  have hp : csdOf (receiveCsd s) = p := by simp only [csdOf, receiveCsd, h]; rfl
  refine ⟨p, b', c0, c1, hl, ho, ht, hp, ?_⟩
  simp only [countReceived, hp]
  cases hc : parseCsd p with
  | none => simp only [receiveCsd, h, Machine.goto]; rfl
  | some v => simp only [storeCount, receiveCsd, h, Machine.goto]; rfl

/-- A data packet (R218). -/
theorem sendPacket_spec (token : Byte) (use : XmitUse) (s : State) :
    ∃ (payload : List Byte) (es : List Event) (b' : Bus), payload.length = 512 ∧
      (∀ k (h : k < payload.length), payload[k] = s.mem.read (bufAddr (bufOf s) s.work.ptrVal + k)) ∧
      Exchanges (token :: (payload ++ [0xFF#8, 0xFF#8])) es ∧ s.bus.OnlyExchanged b' ∧ b'.trace = s.trace ++ es ∧
      sendPacket token use s = { s with seq := .dataResp use, bus := b' } := by
  obtain ⟨p, hp⟩ : ∃ p, payloadOf s = p := ⟨_, rfl⟩
  have hp' : p = s.mem.readBytes (bufAddr (bufOf s) s.work.ptrVal) Config.blockSize := hp.symm
  obtain ⟨es, he, ht⟩ := sendBytes_trace (token :: (p ++ [0xFF#8, 0xFF#8])) s.bus
  refine ⟨p, es, _, ?_, ?_, he, sendBytes_only _ _, ht, ?_⟩
  · rw [hp', Memory.readBytes_length]; rfl
  · subst hp'; exact fun k h => Memory.readBytes_getElem _ _ _ k h
  · simp only [sendPacket, hp, Machine.goto]

end Sys2Proof.Machine
end

