-- ==== Sys2Proof/Laws/Invariant.lean ====
section
/-! SUPPORT. The invariant of Safety.lean kept by the shared operations: a command's answer, a command's start, and the return of
an operation. -/

namespace Sys2Proof.Machine

/-- What the invariant says at a site of an operation, whatever the label there. -/
structure At (site : Site) (s : State) : Prop where
  driver : DriverInv s
  memory : s.mem.wf = true
  clock : clockFor (some site.phase) s.bus.clk s.cardType
  ready : readyFor (some site.phase) s.cardType
  result : s.result = none
  ty : site.tyHolds s.work
  count : site.countHolds s.work
  operands : operandsFor (some site.phase) s.work s.buf
  deadline : site.deadlineHolds s.bus.tOp

theorem DriverInv.of_eq {s t : State} (h : DriverInv s) (h1 : t.status = s.status) (h2 : t.cardType = s.cardType) :
    DriverInv t := by
  obtain ⟨a, b, c⟩ := h
  exact ⟨by rw [h1]; exact a, by rw [h2]; exact b, by rw [h1, h2]; exact c⟩

theorem At.of_inv {s : State} {site : Site} (h : Inv s)
    (hs : s.seq = .escape site ∨ s.seq = .frame site ∨ ∃ e, s.seq = .poll site e) : At site s := by
  obtain ⟨hd, hm, -, -, hc, hr, hres, hty, hcnt, hop, -, -, hdl⟩ := h
  rcases hs with hs | hs | ⟨e, hs⟩ <;> rw [hs] at hc hr hty hcnt hop hdl <;>
    exact ⟨hd, hm, hc, hr, hres (by simp [hs]), hty, hcnt, hop, hdl⟩

/-- A next label of the same operation. -/
theorem At.goto {site : Site} {s : State} (h : At site s) (l : Seq) (hp : l.phase = some site.phase)
    (hsel : l.selected = true → s.bus.cs = .asserted) (hty : l.tyHolds s.work) (hcnt : l.countHolds s.work)
    (hn : l.pollHolds s.work.n) (he : l.escapeHolds s.work) (hdl : l.deadlineHolds s.bus.tOp) : Inv (goto l s) := by
  have hi : l ≠ .idle := by rintro rfl; cases hp
  refine ⟨⟨h.driver.1, h.driver.2, h.driver.3⟩, h.memory, fun hl => absurd hl hi, hsel, ?_, ?_, fun _ => h.result, hty, hcnt,
    ?_, hn, he, hdl⟩
  · show clockFor l.phase _ _; rw [hp]; exact h.clock
  · show readyFor l.phase _; rw [hp]; exact h.ready
  · show operandsFor l.phase _ _; rw [hp]; exact h.operands

/-- The command of a site is next. -/
theorem At.call {site : Site} {s : State} (h : At site s) (site' : Site) (hp : site'.phase = site.phase)
    (hf : site' ≠ .readCmd12) (hty : site'.tyHolds s.work) (hcnt : site'.countHolds s.work)
    (hdl : site'.deadlineHolds s.bus.tOp) : Inv (call site' s) := by
  simp only [Machine.call, callSite]
  split
  · rename_i ha
    exact h.goto (.escape site') (by rw [← hp]; rfl) (by intro h; cases h) hty hcnt trivial ha hdl
  · exact h.goto (.frame site') (by rw [← hp]; rfl) (by cases site' <;> simp_all [Seq.selected]) hty hcnt trivial trivial hdl

/-- The bus, and working registers no site's condition mentions, may change. -/
theorem At.update {s t : State} {site : Site} (h : At site s) (h1 : t.status = s.status) (h2 : t.cardType = s.cardType)
    (h3 : t.mem = s.mem) (h4 : t.bus.clk = s.bus.clk) (h5 : t.bus.tOp = s.bus.tOp) (h6 : t.result = s.result)
    (h7 : t.buf = s.buf) (w1 : t.work.ty = s.work.ty) (w2 : t.work.cmdSel = s.work.cmdSel) (w3 : t.work.cnt = s.work.cnt)
    (w4 : t.work.addr = s.work.addr) (w5 : t.work.ptr = s.work.ptr) : At site t := by
  obtain ⟨hd, hm, hk, hr, hres, hty, hcnt, hop, hdl⟩ := h
  refine ⟨hd.of_eq h1 h2, by rw [h3]; exact hm, by rw [h4, h2]; exact hk, by rw [h2]; exact hr, by rw [h6]; exact hres,
    ?_, ?_, ?_, by rw [h5]; exact hdl⟩
  · cases site <;> simp only [Site.tyHolds, TyNone, TyLegacy, w1, w2] at hty ⊢ <;> exact hty
  · cases site <;> simp only [Site.countHolds, CountOne, CountLeft, CountHeld, w3] at hcnt ⊢ <;> exact hcnt
  · simp only [operandsFor, w4, w5, h7] at hop ⊢; exact hop

theorem legal_sd2Type (ocr : List Byte) : LegalType (sd2Type ocr) := by unfold sd2Type; split <;> decide

theorem legal_of_legacy {w : Work} (h : TyLegacy w) : TyFinal w := by
  rcases h with ⟨h, -⟩ | ⟨h, -⟩
  · exact ⟨_, h, by decide⟩
  · exact ⟨_, h, by decide⟩

/-- `readOCR()` at a site. -/
theorem At.latchOcr {site : Site} {s : State} (h : At site s) : At site (latchOcr s) := by
  obtain ⟨-, h2, h3, -⟩ := receiveBytes_only 4 s.bus
  exact h.update rfl rfl rfl h2 h3 rfl rfl rfl rfl rfl rfl rfl

/-- INIT's finalisation is next, with a legal `ty`. -/
theorem At.toInitEnd {site : Site} {s : State} (h : At site s) (hp : site.phase = .init) (hty : TyFinal s.work) :
    Inv (Machine.goto .initEnd s) :=
  h.goto .initEnd (by rw [hp]; rfl) (by intro h; cases h) hty trivial trivial trivial trivial

/-- `ty <- v` and the finalisation. -/
theorem At.toInitEndWith {site : Site} {s : State} (h : At site s) (hp : site.phase = .init) (v : Byte) (hv : LegalType v) :
    Inv (Machine.goto .initEnd (setTy v s)) := by
  refine ⟨⟨h.driver.1, h.driver.2, h.driver.3⟩, h.memory, fun hl => (by cases hl), fun hl => (by cases hl), ?_, trivial,
    fun _ => h.result, ⟨v, rfl, hv⟩, trivial, trivial, trivial, trivial, trivial⟩
  have := h.clock; rw [hp] at this; exact this

/-- The token wait starts (R215). -/
theorem At.toToken {site : Site} {s : State} (h : At site s) (use : RecvUse) (hp : (Seq.token use).phase = some site.phase)
    (hs : s.bus.cs = .asserted) (hc : (Seq.token use).countHolds s.work) : Inv (enterToken use s) := by
  refine ⟨⟨h.driver.1, h.driver.2, h.driver.3⟩, h.memory, fun hl => (by cases hl), fun _ => hs, ?_, ?_, fun _ => h.result,
    trivial, hc, ?_, trivial, trivial, timerStart_op_tOp _ _⟩
  · show clockFor (Seq.token use).phase _ _; rw [hp]; exact h.clock
  · show readyFor (Seq.token use).phase _; rw [hp]; exact h.ready
  · show operandsFor (Seq.token use).phase _ _; rw [hp]; exact h.operands

/-- READ or WRITE ends. -/
theorem At.toIoEnd {site : Site} {s : State} (h : At site s) (hp : site.phase = .transfer) (hc : CountHeld s.work) :
    Inv (Machine.goto .ioEnd s) :=
  h.goto .ioEnd (by rw [hp]; rfl) (by intro h; cases h) trivial hc trivial trivial trivial

theorem countHeld_of_one {w : Work} (h : CountOne w) : CountHeld w := ⟨_, h⟩
theorem countHeld_of_left {w : Work} (h : CountLeft w) : CountHeld w := by obtain ⟨c, h, -⟩ := h; exact ⟨c, h⟩

/-- Every caller's branch on a response keeps the invariant (R182-R191, R213, R214, R220, R221, R243). -/
theorem afterResponse_inv (site : Site) (r : Byte) (s : State) (h : At site s)
    (hs : isReady r = true → s.bus.cs = .asserted) : Inv (afterResponse site r s) := by
  cases site <;> simp only [afterResponse]
  case initCmd0 =>
    simp only [afterCmd0]; split
    · have h1 : At .initCmd8 { s with bus := timerStart .op Config.initMs s.bus } :=
        ⟨⟨h.driver.1, h.driver.2, h.driver.3⟩, h.memory, h.clock, h.ready, h.result, h.ty, trivial, trivial,
          timerStart_op_tOp _ _⟩
      exact h1.call .initCmd8 rfl (by simp) h1.ty trivial h1.deadline
    · exact h.toInitEnd rfl ⟨_, h.ty, by decide⟩
  case initCmd8 =>
    simp only [afterCmd8]; split
    · split
      · exact h.latchOcr.goto (.loopHead .v2) rfl (by intro h; cases h) h.latchOcr.ty trivial trivial trivial
          h.latchOcr.deadline
      · exact h.latchOcr.toInitEnd rfl ⟨_, h.latchOcr.ty, by decide⟩
    · exact h.call .initProbe rfl (by simp) h.ty trivial h.deadline
  case initAcmd41 =>
    simp only [afterAcmd41]; split
    · exact h.call .initCmd58 rfl (by simp) h.ty trivial h.deadline
    · exact h.goto (.loopHead .v2) rfl (by intro h; cases h) h.ty trivial trivial trivial h.deadline
  case initCmd58 =>
    simp only [afterCmd58]; split
    · exact h.latchOcr.toInitEndWith rfl _ (legal_sd2Type _)
    · exact h.toInitEnd rfl ⟨_, h.ty, by decide⟩
  case initProbe =>
    have key : ∀ w : Work, TyLegacy w → Inv (Machine.goto (.loopHead .legacy) { s with work := w }) := by
      intro w hw
      exact ⟨⟨h.driver.1, h.driver.2, h.driver.3⟩, h.memory, fun hl => (by cases hl), fun hl => (by cases hl), h.clock, trivial,
        fun _ => h.result, hw, trivial, trivial, trivial, trivial, h.deadline⟩
    simp only [afterProbe]; split
    · exact key _ (.inl ⟨rfl, rfl⟩)
    · exact key _ (.inr ⟨rfl, rfl⟩)
  case initLoop =>
    simp only [afterLoop]; split
    · exact h.call .initCmd16 rfl (by simp) h.ty trivial h.deadline
    · exact h.goto (.loopHead .legacy) rfl (by intro h; cases h) h.ty trivial trivial trivial h.deadline
  case initCmd16 =>
    simp only [afterCmd16]; split
    · exact h.toInitEnd rfl (legal_of_legacy h.ty)
    · exact h.toInitEndWith rfl _ (by decide)
  case readCmd17 =>
    simp only [afterCmd17]; split
    · rename_i hr; exact h.toToken .single rfl (hs hr) h.count
    · exact h.toIoEnd rfl (countHeld_of_one h.count)
  case readCmd18 =>
    simp only [afterCmd18]; split
    · rename_i hr; exact h.toToken .multi rfl (hs hr) h.count
    · exact h.toIoEnd rfl (countHeld_of_left h.count)
  case readCmd12 => exact h.toIoEnd rfl h.count
  case writeCmd24 =>
    simp only [afterCmd24]; split
    · rename_i hr
      exact h.goto (.xmit .single) rfl (fun _ => hs hr) trivial h.count trivial trivial trivial
    · exact h.toIoEnd rfl (countHeld_of_one h.count)
  case writeAcmd23 => exact h.call .writeCmd25 rfl (by simp) trivial h.count trivial
  case writeCmd25 =>
    simp only [afterCmd25]; split
    · rename_i hr
      exact h.goto (.xmit .multi) rfl (fun _ => hs hr) trivial h.count trivial trivial trivial
    · exact h.toIoEnd rfl (countHeld_of_left h.count)
  case countCmd9 =>
    simp only [afterCmd9]; split
    · rename_i hr; exact h.toToken .csd rfl (hs hr) trivial
    · exact h.goto (.countEnd false) rfl (by intro h; cases h) trivial trivial trivial trivial trivial

/-- A command's answer keeps the invariant (R140, R141). -/
theorem respond_inv (site : Site) (e : Bool) (r : Byte) (s : State) (h : At site s)
    (hs : idleOrReady r = true → s.bus.cs = .asserted) : Inv (respond site e r s) := by
  have hready : isReady r = true → idleOrReady r = true := by clear * -; revert r; decide
  have h1 : At site { s with work := { s.work with res := some r } } :=
    h.update rfl rfl rfl rfl rfl rfl rfl rfl rfl rfl rfl rfl
  simp only [respond]
  split
  · rename_i hx
    simp only [Bool.and_eq_true] at hx
    exact h1.goto (.frame site) rfl (fun _ => hs hx.2) h1.ty h1.count trivial trivial h1.deadline
  · exact afterResponse_inv site r _ h1 (fun hr => hs (hready hr))

/-- A command's start keeps the invariant: its frame is sent and polled, or the selection timed out (R142, R144). -/
theorem issueAt_inv (site : Site) (e : Bool) (idx : BitVec 6) (arg : Word) (s : State) (h : At site s)
    (he : e = true → siteIsApp site s.work.cmdSelVal = true)
    (h12 : idx = 12#6 → s.bus.cs = .asserted) : Inv (issueAt site e idx arg s) := by
  have key : ∀ b : Bus, b.cs = .asserted → b.clk = s.bus.clk → b.tOp = s.bus.tOp →
      Inv { s with seq := .poll site e, work := { s.work with n := some Config.respPolls }, bus := b } := by
    intro b h1 h2 h3
    have ha : At site { s with work := { s.work with n := some Config.respPolls }, bus := b } :=
      h.update rfl rfl rfl h2 h3 rfl rfl rfl rfl rfl rfl rfl
    refine ha.goto (.poll site e) rfl (fun _ => h1) ha.ty ha.count ⟨10, rfl, by decide, by decide⟩ ?_ ha.deadline
    cases e
    · trivial
    · exact he rfl
  simp only [issueAt]
  by_cases hi : idx = 12#6
  · obtain ⟨k1, k2, k3, -⟩ := sendFrame_only idx arg s.bus
    simp only [reselect, if_pos hi, if_true]
    exact key _ (k1.trans (h12 hi)) k2 k3
  · obtain ⟨l1, l2, l3⟩ := reselect_lines idx s.bus hi
    split
    · rename_i hr
      rw [hr] at l3
      obtain ⟨k1, k2, k3, -⟩ := sendFrame_only idx arg (reselect idx s.bus).2
      exact key _ (k1.trans l3) (k2.trans l1) (k3.trans l2)
    · exact respond_inv site e _ _ (h.update rfl rfl rfl l1 l2 rfl rfl rfl rfl rfl rfl rfl) (by intro h; cases h)

/-- The invariant at IDLE. -/
theorem idle_inv (s : State) (hd : DriverInv s) (hm : s.mem.wf = true) (hi : s.seq = .idle) (hcs : s.bus.cs = .deasserted)
    (hw : s.work = Work.empty) (hb : s.buf = none) (hk : s.bus.clk = .fast ↔ s.cardType ≠ 0#8) : Inv s := by
  refine ⟨hd, hm, fun _ => ⟨hcs, hw, hb⟩, fun h => ?_, ?_, ?_, fun h => absurd hi h, ?_, ?_, ?_, ?_, ?_, ?_⟩
  · rw [hi] at h; cases h
  · rw [hi]; exact hk
  all_goals rw [hi]; trivial

end Sys2Proof.Machine
end

