-- ==== Sys2Proof/Laws/PerInstr.lean ====
section
/-! SUPPORT. What holds of every instruction as syntax, one lemma a constructor (the family EncodeFits of LAWS.json). -/

namespace Sys2Proof.Laws.EncodeFits

/-- How many bytes an instruction's encoding has: a frame six (R81), a byte on the wire one, a host word two and then the
call's arguments (R95; the model's layout, log 2). -/
def Statement (i : Instr) : Prop :=
  (encode i).length =
    match i with
    | .init _ | .status _ => 3
    | .read .. | .write .. => 27
    | .ioctlSync .. | .ioctlGetSectorCount .. | .ioctlGetSectorSize .. | .ioctlOther .. => 19
    | .cmd0 | .cmd1 | .cmd8 | .cmd9 | .cmd12 | .cmd16 | .cmd17 _ | .cmd18 _ | .cmd24 _ | .cmd25 _ | .cmd55 | .cmd58
    | .acmd23 _ | .acmd41 _ => 6
    | .tokenStartBlock | .tokenStartMultiWrite | .tokenStopTran | .dataRespAccepted _ | .r1Valid _ => 1

theorem init (d : Byte) : Statement (.init d) := rfl
theorem status (d : Byte) : Statement (.status d) := rfl
theorem read (d : Byte) (b : Buf) (sec cnt : Word) : Statement (.read d b sec cnt) := rfl
theorem write (d : Byte) (b : Buf) (sec cnt : Word) : Statement (.write d b sec cnt) := rfl
theorem ioctlSync (d : Byte) (b : Buf) : Statement (.ioctlSync d b) := rfl
theorem ioctlGetSectorCount (d : Byte) (b : Buf) : Statement (.ioctlGetSectorCount d b) := rfl
theorem ioctlGetSectorSize (d : Byte) (b : Buf) : Statement (.ioctlGetSectorSize d b) := rfl
theorem ioctlOther (k d : Byte) (b : Buf) : Statement (.ioctlOther k d b) := rfl
theorem cmd0 : Statement .cmd0 := rfl
theorem cmd1 : Statement .cmd1 := rfl
theorem cmd8 : Statement .cmd8 := rfl
theorem cmd9 : Statement .cmd9 := rfl
theorem cmd12 : Statement .cmd12 := rfl
theorem cmd16 : Statement .cmd16 := rfl
theorem cmd17 (a : Word) : Statement (.cmd17 a) := rfl
theorem cmd18 (a : Word) : Statement (.cmd18 a) := rfl
theorem cmd24 (a : Word) : Statement (.cmd24 a) := rfl
theorem cmd25 (a : Word) : Statement (.cmd25 a) := rfl
theorem cmd55 : Statement .cmd55 := rfl
theorem cmd58 : Statement .cmd58 := rfl
theorem acmd23 (c : Word) : Statement (.acmd23 c) := rfl
theorem acmd41 (hcs : Bool) : Statement (.acmd41 hcs) := rfl
theorem tokenStartBlock : Statement .tokenStartBlock := rfl
theorem tokenStartMultiWrite : Statement .tokenStartMultiWrite := rfl
theorem tokenStopTran : Statement .tokenStopTran := rfl
theorem dataRespAccepted (g : BitVec 3) : Statement (.dataRespAccepted g) := rfl
theorem r1Valid (g : BitVec 7) : Statement (.r1Valid g) := rfl

end Sys2Proof.Laws.EncodeFits
end

