-- ==== Sys2Proof/Tests/Slice0.lean ====
section
/-! SUPPORT. Tests: expected values come from spec/ (30_encoding.md, 95_test_vectors.md), never from the model; and for each
statement with hypotheses a witness that meets them. -/

namespace Sys2Proof.Tests

open Sys2Proof Sys2Proof.Machine

/-! ## WellFormed -/

theorem test_wf_other_is_not_sync : Instr.wellFormed (.ioctlOther 0 0 ⟨0, 0⟩) = false := by decide
theorem test_wf_other_is_not_count : Instr.wellFormed (.ioctlOther 1 0 ⟨0, 0⟩) = false := by decide
theorem test_wf_other_is_not_size : Instr.wellFormed (.ioctlOther 2 0 ⟨0, 0⟩) = false := by decide
theorem test_wf_other_is_from_3 : Instr.wellFormed (.ioctlOther 3 0 ⟨0, 0⟩) = true := by decide

/-! ## Decoding, from the words of R95, R108, R92, R93, R85 (and 95_test_vectors.md sections 2 and 6.7) -/

theorem test_decode_init : decoded .hostOp [0x00, 0x00, 0x01] = some (.init 1) := by decide
theorem test_decode_status : decoded .hostOp [0x01, 0x00, 0x03] = some (.status 3) := by decide
theorem test_decode_read :
    decoded .hostOp ([0x02, 0x00, 0x00] ++ [0x00, 0x10, 0, 0, 0, 0, 0, 0] ++ [0x00, 0x06, 0, 0, 0, 0, 0, 0] ++
      [0x02, 0, 0, 0] ++ [0x03, 0, 0, 0]) = some (.read 0 ⟨0x1000, 0x600⟩ 2 3) := by decide
theorem test_decode_write :
    decoded .hostOp ([0x03, 0x00, 0x00] ++ [0, 0, 0, 0, 0, 0, 0, 0x80] ++ [0x00, 0x02, 0, 0, 0, 0, 0, 0] ++
      [0x78, 0x56, 0x34, 0x12] ++ [0x01, 0, 0, 0]) = some (.write 0 ⟨0x8000000000000000, 0x200⟩ 0x12345678 1) := by decide
theorem test_decode_sync :
    decoded .hostOp ([0x04, 0x00, 0x00] ++ [1, 0, 0, 0, 0, 0, 0, 0] ++ [4, 0, 0, 0, 0, 0, 0, 0]) =
      some (.ioctlSync 0 ⟨1, 4⟩) := by decide
theorem test_decode_sector_count :
    decoded .hostOp ([0x04, 0x01, 0x00] ++ [1, 0, 0, 0, 0, 0, 0, 0] ++ [4, 0, 0, 0, 0, 0, 0, 0]) =
      some (.ioctlGetSectorCount 0 ⟨1, 4⟩) := by decide
theorem test_decode_sector_size :
    decoded .hostOp ([0x04, 0x02, 0x00] ++ [1, 0, 0, 0, 0, 0, 0, 0] ++ [4, 0, 0, 0, 0, 0, 0, 0]) =
      some (.ioctlGetSectorSize 0 ⟨1, 4⟩) := by decide
theorem test_decode_other_first :
    decoded .hostOp ([0x04, 0x03, 0x00] ++ [1, 0, 0, 0, 0, 0, 0, 0] ++ [4, 0, 0, 0, 0, 0, 0, 0]) =
      some (.ioctlOther 3 0 ⟨1, 4⟩) := by decide
theorem test_decode_other_last :
    decoded .hostOp ([0x04, 0xFF, 0x00] ++ [1, 0, 0, 0, 0, 0, 0, 0] ++ [4, 0, 0, 0, 0, 0, 0, 0]) =
      some (.ioctlOther 255 0 ⟨1, 4⟩) := by decide
theorem test_decode_cmd0 : decoded .cmdFrame [0x40, 0, 0, 0, 0, 0x95] = some .cmd0 := by decide
theorem test_decode_cmd1 : decoded .cmdFrame [0x41, 0, 0, 0, 0, 0x01] = some .cmd1 := by decide
theorem test_decode_cmd8 : decoded .cmdFrame [0x48, 0, 0, 0x01, 0xAA, 0x87] = some .cmd8 := by decide
theorem test_decode_cmd9 : decoded .cmdFrame [0x49, 0, 0, 0, 0, 0x01] = some .cmd9 := by decide
theorem test_decode_cmd12 : decoded .cmdFrame [0x4C, 0, 0, 0, 0, 0x01] = some .cmd12 := by decide
theorem test_decode_cmd16 : decoded .cmdFrame [0x50, 0, 0, 0x02, 0, 0x01] = some .cmd16 := by decide
theorem test_decode_cmd17 : decoded .cmdFrame [0x51, 0, 0, 0xC8, 0, 0x01] = some (.cmd17 0xC800) := by decide
theorem test_decode_cmd18 : decoded .cmdFrame [0x52, 0x12, 0x34, 0x56, 0x78, 0x01] = some (.cmd18 0x12345678) := by decide
theorem test_decode_cmd24 : decoded .cmdFrame [0x58, 0x12, 0x34, 0x56, 0x78, 0x01] = some (.cmd24 0x12345678) := by decide
theorem test_decode_cmd25 : decoded .cmdFrame [0x59, 0, 0, 0x0E, 0, 0x01] = some (.cmd25 0xE00) := by decide
theorem test_decode_cmd55 : decoded .cmdFrame [0x77, 0, 0, 0, 0, 0x01] = some .cmd55 := by decide
theorem test_decode_cmd58 : decoded .cmdFrame [0x7A, 0, 0, 0, 0, 0x01] = some .cmd58 := by decide
theorem test_decode_acmd23 : decoded .cmdFrame [0x57, 0, 0, 0, 0x03, 0x01] = some (.acmd23 3) := by decide
theorem test_decode_acmd41_hcs : decoded .cmdFrame [0x69, 0x40, 0, 0, 0, 0x01] = some (.acmd41 true) := by decide
theorem test_decode_acmd41 : decoded .cmdFrame [0x69, 0, 0, 0, 0, 0x01] = some (.acmd41 false) := by decide
theorem test_decode_start_block : decoded .dataIn [0xFE] = some .tokenStartBlock := by decide
theorem test_decode_start_multi : decoded .dataOut [0xFC] = some .tokenStartMultiWrite := by decide
theorem test_decode_stop_tran : decoded .stopToken [0xFD] = some .tokenStopTran := by decide
theorem test_decode_accepted : decoded .dataResp [0xE5] = some (.dataRespAccepted 7) := by decide
theorem test_decode_r1 : decoded .r1 [0x01] = some (.r1Valid 1) := by decide
/-- R104: the reserved words 0x0005, 0x000F, 0x0010 and 0x0102. -/
theorem test_decode_reserved : [0x0005, 0x000F, 0x0010, 0x0102].all (fun w => (decodeTableWord 16 w).isNone) = true := by
  decide
/-- R84: the CRC byte belongs to the frame. -/
theorem test_decode_wrong_crc : decoded .cmdFrame [0x40, 0, 0, 0, 0, 0x01] = none := by decide
/-- R93, vector W4: 0x0B is not accepted. -/
theorem test_decode_not_accepted : decoded .dataResp [0x0B] = none := by decide

/-! ## Small states -/

/-- Whether a step goes on to a state with a property. -/
def goesTo (o : Host.Outcome State Fault Refusal) (p : State → Bool) : Bool :=
  match o with
  | .next t => p t
  | .fault _ => false
  | .refused _ => false

/-- An initialised card at IDLE: its type, its received bytes, its expiry draws. -/
def card (type : Byte) (rx : List Byte) (draws : List Nat) : State :=
  { State.reset with
    status := 0x00
    cardType := type
    bus := { Bus.reset with clk := .fast, env := { Env.initial with rxIn := rx, expIn := draws } } }

/-- A transfer of `cnt` blocks at a step, over a 1024-byte buffer at 0x1000, with `T_OP` running. -/
def transfer (l : Seq) (cnt : Word) (rx : List Byte) (draws : List Nat) : State :=
  { card 0x0C rx draws with
    seq := l
    buf := some ⟨0x1000, 1024⟩
    work := { Work.empty with addr := some 7, cnt := some cnt, ptr := some 0, n := some 10 }
    bus := { (card 0x0C rx draws).bus with cs := .asserted, tOp := some ⟨0, 200, 3⟩ } }

/-- An INIT at a step, with `T_OP` running. -/
def initAt (l : Seq) (ty : Byte) (sel : Option CmdSel) (rx : List Byte) (draws : List Nat) : State :=
  { State.reset with
    seq := l
    work := { Work.empty with ty := some ty, cmdSel := sel, n := some 10 }
    bus := { Bus.reset with
      cs := .asserted, tOp := some ⟨0, 1000, 3⟩, env := { Env.initial with rxIn := rx, expIn := draws } } }

/-- A GetSectorCount at a step, over a four-byte buffer at 0x2000. -/
def countAt (l : Seq) (rx : List Byte) : State :=
  { card 0x0C rx [3] with
    seq := l
    buf := some ⟨0x2000, 4⟩
    work := { Work.empty with n := some 10 }
    bus := { (card 0x0C rx [3]).bus with cs := .asserted, tOp := some ⟨0, 200, 3⟩ } }

/-- The bytes received during a reselection by a ready card, and during a frame. -/
def readyRx : List Byte := List.replicate 3 0xFF
def frameRx : List Byte := List.replicate 6 0xFF

/-- The events of a reselection and a frame under them. -/
def frameEvents (a b c d e f : Byte) : List Event :=
  [.cs .deasserted, .x 0xFF 0xFF, .cs .asserted, .x 0xFF 0xFF, .tstart .rdy 500, .x 0xFF 0xFF,
    .x a 0xFF, .x b 0xFF, .x c 0xFF, .x d 0xFF, .x e 0xFF, .x f 0xFF]

/-- The CSDs K1, K2, K3, K6 and K8 of 95_test_vectors.md section 3. -/
def csdK1 : List Byte := [0x40, 0x0E, 0x00, 0x32, 0x5B, 0x59, 0x00, 0x00, 0x0E, 0xE0, 0x7F, 0x80, 0x0A, 0x40, 0x00, 0x01]
def csdK2 : List Byte := [0x00, 0x26, 0x00, 0x32, 0x5F, 0x59, 0x80, 0xEB, 0x76, 0xB6, 0xBF, 0xBF, 0x80, 0x00, 0x00, 0x01]
def csdK3 : List Byte := [0x00, 0x26, 0x00, 0x32, 0x5F, 0x50, 0x80, 0xEB, 0x76, 0xB4, 0x3F, 0xBF, 0x80, 0x00, 0x00, 0x01]
def csdK6 : List Byte := [0x80, 0x0E, 0x00, 0x32, 0x5B, 0x59, 0x00, 0x00, 0x0E, 0xE0, 0x7F, 0x80, 0x0A, 0x40, 0x00, 0x01]
def csdK8 : List Byte := [0x00, 0x26, 0x00, 0x32, 0x5F, 0x57, 0x80, 0xEB, 0x76, 0xB4, 0x3F, 0xBF, 0x80, 0x00, 0x00, 0x01]

/-! ## Operands and flags (95_test_vectors.md sections 3 and 6.7) -/

theorem test_csd_K1 : parseCsd csdK1 = some 3900416 := by decide
theorem test_csd_K2 : parseCsd csdK2 = some 120576 := by decide
theorem test_csd_K3 : parseCsd csdK3 = none := by decide
theorem test_csd_K6 : parseCsd csdK6 = some 4 := by decide
theorem test_csd_K8 : parseCsd csdK8 = some 942 := by decide
/-- K4: the version-2 count 2^32 wraps to 0. -/
theorem test_csd_K4 : parseCsd (csdK1.take 7 ++ [0x3F, 0xFF, 0xFF] ++ csdK1.drop 10) = some 0 := by decide
/-- K9: the greatest legacy count, 2^27. -/
theorem test_csd_K9 :
    parseCsd (csdK2.take 5 ++ [0x5F, 0x83, 0xFF, 0xC0, 0xB7, 0xFF] ++ csdK2.drop 11) = some 134217728 := by decide
theorem test_convert_byte_addressed : convert 0x02 100 = 0x0000C800 := by decide
theorem test_convert_wraps : convert 0x02 0x00800000 = 0 := by decide
theorem test_convert_block_addressed : convert 0x0C 0xFFFFFFFF = 0xFFFFFFFF := by decide
set_option maxRecDepth 20000 in
/-- Section 2: true CRC-7 of a CMD17 frame with argument 0x0000C800 is 0x4C. -/
theorem test_crc7_cmd17 : crc7 [0x51, 0x00, 0x00, 0xC8, 0x00] = 0x4C := by decide

/-! ## One step an instruction -/

/-- I12. -/
theorem test_init_other_drive : goesTo (exec (.init 1) State.reset)
    (fun t => decide (t.result = some 0x01 ∧ t.trace = [] ∧ t.seq = .idle)) = true := by decide
/-- I1, its first events. -/
theorem test_init_powers_up : goesTo (exec (.init 0) (card 0x0C (List.replicate 10 0xFF) []))
    (fun t => decide (t.trace = .clk .slow :: List.replicate 10 (.x 0xFF 0xFF) ∧ t.bus.clk = .slow)) = true := by decide
/-- Q12. -/
theorem test_status_other_drive : goesTo (exec (.status 3) (card 0x0C [] []))
    (fun t => decide (t.result = some 0x01 ∧ t.trace = [])) = true := by decide
/-- RD10. -/
theorem test_read_not_ready : goesTo (exec (.read 0 ⟨0x1000, 512⟩ 5 1) State.reset)
    (fun t => decide (t.result = some 3)) = true := by decide
/-- RD2: sector 100 on a byte-addressed card. -/
theorem test_read_address : goesTo (exec (.read 0 ⟨0x1000, 512⟩ 100 1) (card 0x02 [] []))
    (fun t => decide (t.work.addr = some 0xC800 ∧ t.seq = .frame .readCmd17)) = true := by decide
/-- W6. -/
theorem test_write_protected : goesTo (exec (.write 0 ⟨0x1000, 512⟩ 7 1) { card 0x0C [] [] with status := 0x04 })
    (fun t => decide (t.result = some 2 ∧ t.trace = [])) = true := by decide
/-- W3: no ACMD23 on an MMC card. -/
theorem test_write_mmc : goesTo (exec (.write 0 ⟨0x1000, 1024⟩ 7 2) (card 0x01 [] []))
    (fun t => decide (t.work.addr = some 0xE00 ∧ t.seq = .frame .writeCmd25)) = true := by decide
/-- Q1. -/
theorem test_sync : goesTo (exec (.ioctlSync 0 ⟨0, 4⟩) (card 0x0C [0xFF, 0xFF, 0xFF] [3]))
    (fun t => decide (t.result = some 0 ∧
      t.trace = [.cs .asserted, .x 0xFF 0xFF, .tstart .rdy 500, .x 0xFF 0xFF, .cs .deasserted, .x 0xFF 0xFF])) = true := by
  decide
/-- Q2. -/
theorem test_sync_stuck : goesTo (exec (.ioctlSync 0 ⟨0, 4⟩) (card 0x0C (List.replicate 7 0x00) [3]))
    (fun t => decide (t.result = some 1 ∧ t.bus.env.rxIn = [] ∧ t.trace.length = 15)) = true := by decide
/-- Q3, its beginning. -/
theorem test_sector_count_begins : goesTo (exec (.ioctlGetSectorCount 0 ⟨0x2000, 4⟩) (card 0x0C [] []))
    (fun t => decide (t.seq = .frame .countCmd9 ∧ t.trace = [])) = true := by decide
/-- Q6. -/
theorem test_sector_size : goesTo (exec (.ioctlGetSectorSize 0 ⟨0x2000, 4⟩) (card 0x0C [0xFF] []))
    (fun t => decide (t.result = some 0 ∧ t.mem = [(0x2001, 0x02)])) = true := by decide
/-- Q7. -/
theorem test_other : goesTo (exec (.ioctlOther 7 0 ⟨0x2000, 4⟩) (card 0x0C [0xFF] []))
    (fun t => decide (t.result = some 4 ∧ t.trace = [.cs .deasserted, .x 0xFF 0xFF])) = true := by decide
/-- I1: CMD0. -/
theorem test_cmd0 : goesTo (exec .cmd0 (initAt (.frame .initCmd0) 0 none (readyRx ++ frameRx) [3]))
    (fun t => decide (t.trace = frameEvents 0x40 0 0 0 0 0x95)) = true := by decide
/-- I4: CMD1. -/
theorem test_cmd1 : goesTo (exec .cmd1 (initAt (.frame .initLoop) 1 (some .cmd1) (readyRx ++ frameRx) [3]))
    (fun t => decide (t.trace = frameEvents 0x41 0 0 0 0 0x01)) = true := by decide
/-- I1: CMD8. -/
theorem test_cmd8 : goesTo (exec .cmd8 (initAt (.frame .initCmd8) 0 none (readyRx ++ frameRx) [3]))
    (fun t => decide (t.trace = frameEvents 0x48 0 0 0x01 0xAA 0x87)) = true := by decide
/-- Q3: CMD9. -/
theorem test_cmd9 : goesTo (exec .cmd9 (countAt (.frame .countCmd9) (readyRx ++ frameRx)))
    (fun t => decide (t.trace = frameEvents 0x49 0 0 0 0 0x01)) = true := by decide
/-- S6: CMD12, its frame and stuff byte. -/
theorem test_cmd12 : goesTo (exec .cmd12 (transfer (.frame .readCmd12) 0 (List.replicate 7 0xFF) []))
    (fun t => decide (t.trace = [.x 0x4C 0xFF, .x 0 0xFF, .x 0 0xFF, .x 0 0xFF, .x 0 0xFF, .x 0x01 0xFF, .x 0xFF 0xFF])) =
    true := by decide
/-- I3: CMD16. -/
theorem test_cmd16 : goesTo (exec .cmd16 (initAt (.frame .initCmd16) 2 (some .acmd41) (readyRx ++ frameRx) [3]))
    (fun t => decide (t.trace = frameEvents 0x50 0 0 0x02 0 0x01)) = true := by decide
/-- RD2: CMD17. -/
theorem test_cmd17 : goesTo (exec (.cmd17 0xC800) (transfer (.frame .readCmd17) 1 (readyRx ++ frameRx) [3]))
    (fun t => decide (t.trace = frameEvents 0x51 0 0 0xC8 0 0x01)) = true := by decide
/-- S2: a select timeout answers 0xFF with no frame byte sent. -/
theorem test_cmd17_select_timeout :
    goesTo (exec (.cmd17 5) (transfer (.frame .readCmd17) 1 (List.replicate 7 0x00) [3]))
    (fun t => decide (t.work.res = some 0xFF ∧ t.seq = .ioEnd ∧ t.bus.env.rxIn = [] ∧ t.bus.cs = .deasserted)) = true := by
  decide
/-- RD3: CMD18. -/
theorem test_cmd18 : goesTo (exec (.cmd18 2) (transfer (.frame .readCmd18) 3 (readyRx ++ frameRx) [3]))
    (fun t => decide (t.trace = frameEvents 0x52 0 0 0 2 0x01)) = true := by decide
/-- W1: CMD24. -/
theorem test_cmd24 : goesTo (exec (.cmd24 7) (transfer (.frame .writeCmd24) 1 (readyRx ++ frameRx) [3]))
    (fun t => decide (t.trace = frameEvents 0x58 0 0 0 7 0x01)) = true := by decide
/-- W3: CMD25. -/
theorem test_cmd25 : goesTo (exec (.cmd25 0xE00) (transfer (.frame .writeCmd25) 2 (readyRx ++ frameRx) [3]))
    (fun t => decide (t.trace = frameEvents 0x59 0 0 0x0E 0 0x01)) = true := by decide
/-- I1: CMD55. -/
theorem test_cmd55 : goesTo (exec .cmd55 (initAt (.escape .initAcmd41) 0 none (readyRx ++ frameRx) [3]))
    (fun t => decide (t.trace = frameEvents 0x77 0 0 0 0 0x01 ∧ t.seq = .poll .initAcmd41 true)) = true := by decide
/-- I1: CMD58. -/
theorem test_cmd58 : goesTo (exec .cmd58 (initAt (.frame .initCmd58) 0 none (readyRx ++ frameRx) [3]))
    (fun t => decide (t.trace = frameEvents 0x7A 0 0 0 0 0x01)) = true := by decide
/-- W2: ACMD23. -/
theorem test_acmd23 : goesTo (exec (.acmd23 2) (transfer (.frame .writeAcmd23) 2 (readyRx ++ frameRx) [3]))
    (fun t => decide (t.trace = frameEvents 0x57 0 0 0 2 0x01)) = true := by decide
/-- I1: ACMD41 with HCS. -/
theorem test_acmd41_hcs : goesTo (exec (.acmd41 true) (initAt (.frame .initAcmd41) 0 none (readyRx ++ frameRx) [3]))
    (fun t => decide (t.trace = frameEvents 0x69 0x40 0 0 0 0x01)) = true := by decide
/-- Q3 with K1: the CSD and its count in the buffer, 00 84 3B 00. -/
theorem test_start_block_csd :
    goesTo (exec .tokenStartBlock (countAt (.token .csd) (csdK1 ++ [0xAB, 0xCD])))
    (fun t => decide (t.seq = .countEnd true ∧ t.mem = [(0x2001, 0x84), (0x2002, 0x3B)] ∧ t.bus.env.rxIn = [])) = true := by
  decide
/-- D32: a block that does not fit the buffer. -/
theorem test_start_block_overrun :
    (match exec .tokenStartBlock { transfer (.token .single) 1 [] [] with buf := some ⟨0x1000, 511⟩ } with
      | .fault .hostBufferOverrun => true
      | .next _ => false
      | .refused _ => false) = true := by decide
/-- W9: the ready wait before a block times out, and no token is sent. -/
theorem test_start_multi_timeout :
    goesTo (exec .tokenStartMultiWrite (transfer (.xmit .multi) 1 (List.replicate 4 0x00) [3]))
    (fun t => decide (t.seq = .stop ∧ t.bus.env.rxIn = [] ∧ t.work.cnt = some 1)) = true := by decide
/-- W2: the stop token. -/
theorem test_stop_tran : goesTo (exec .tokenStopTran (transfer .stop 0 [0xFF, 0xFF] [3]))
    (fun t => decide (t.seq = .ioEnd ∧ t.work.cnt = some 0 ∧
      t.trace = [.tstart .rdy 500, .x 0xFF 0xFF, .x 0xFD 0xFF])) = true := by decide
/-- W9: no stop token on a timeout, and `cnt` becomes 1. -/
theorem test_stop_tran_timeout : goesTo (exec .tokenStopTran (transfer .stop 0 (List.replicate 4 0x00) [3]))
    (fun t => decide (t.work.cnt = some 1 ∧ t.bus.env.rxIn = [])) = true := by decide
/-- W2: the first of two blocks accepted. -/
theorem test_accepted_multi : goesTo (exec (.dataRespAccepted 7) (transfer (.dataResp .multi) 2 [] []))
    (fun t => decide (t.seq = .xmit .multi ∧ t.work.cnt = some 1 ∧ t.work.ptr = some 512)) = true := by decide
/-- I16: CMD8 answered 0x00 with a correct echo takes the version-2 path. -/
theorem test_r1_cmd8_ready :
    goesTo (exec (.r1Valid 0) (initAt (.poll .initCmd8 false) 0 none [0x00, 0x00, 0x01, 0xAA] []))
    (fun t => decide (t.seq = .loopHead .v2)) = true := by decide
/-- I1: CMD58's OCR with the capacity bit. -/
theorem test_r1_cmd58 :
    goesTo (exec (.r1Valid 0) (initAt (.poll .initCmd58 false) 0 none [0xC0, 0xFF, 0x80, 0x00] []))
    (fun t => decide (t.seq = .initEnd ∧ t.work.ty = some 0x0C)) = true := by decide

/-! ## The table's words, where step fetches them (log 17) -/

/-- The word of a row runs as the first step: a host word, a frame, a sent token, a received byte. -/
theorem test_fetch_status : goesTo (step (State.reset.withFetchWord 16 0x0001))
    (fun t => decide (t.result = some 0x01)) = true := by decide
theorem test_fetch_cmd12 : goesTo (step (State.reset.withFetchWord 48 0x4C0000000001))
    (fun t => decide (t.seq = .poll .readCmd12 false)) = true := by decide
theorem test_fetch_r1 : goesTo (step (State.reset.withFetchWord 8 0x01))
    (fun t => decide (t.seq = .frame .initCmd8)) = true := by decide

/-! ## Witnesses: for each statement with hypotheses, a state and operands that meet them, at the boundaries of its clauses -/

theorem witness_DecodeEncodeRoundTrip : Instr.wellFormed (.ioctlOther 3 0 ⟨0, 0⟩) = true := by decide

theorem witness_EncodeDecodeRoundTrip :
    ∃ i rest, decode .cmdFrame [0x51, 0xFF, 0xFF, 0xFF, 0xFF, 0x01, 0xAB] = .ok (i, rest) := ⟨_, _, rfl⟩

/-- The first reserved `op`, the reserved bits, a command field on INIT: each alone. -/
theorem witness_ReservedHostWordsRefused :
    ∀ w ∈ [((0x05 : Byte), (0 : Byte)), (0x10, 0), (0x00, 1)], ∃ s : State, s.seq = .idle ∧
      s.host = .call [w.1, w.2] :: [] ∧
      (5 ≤ (w.1.extractLsb' 0 4).toNat ∨ w.1.extractLsb' 4 4 ≠ 0#4 ∨
        (w.2 ≠ 0#8 ∧ (w.1.extractLsb' 0 4).toNat ≠ 4)) := by
  intro w hw
  refine ⟨{ State.reset with host := [.call [w.1, w.2]] }, rfl, rfl, ?_⟩
  simp only [List.mem_cons, List.not_mem_nil, or_false] at hw
  rcases hw with rfl | rfl | rfl <;> decide

/-- A call and a lone `callNow` with no overlapping call behind; an overlapping call behind an INIT, which does not return in
its step. -/
theorem witness_IdleStepRunsHostCall :
    (∃ s : State, s.seq = .idle ∧ s.host = .call [0x01, 0x00, 0x00] :: [.call []] ∧
      ∀ bytes later, [HostEvent.call []] ≠ .callNow bytes :: later) ∧
    (∃ s : State, s.seq = .idle ∧ s.host = .callNow [0x01, 0x00, 0x00] :: []) ∧
    decode .hostOp [0x01, 0x00, 0x00] = .ok (.status 0, []) ∧
    ∃ s : State, s.seq = .idle ∧ s.host = .call [0x00, 0x00, 0x00] :: [.callNow []] ∧
      decode .hostOp [0x00, 0x00, 0x00] = .ok (.init 0, []) ∧
      ∀ t, exec (.init 0) { s with host := [.callNow []] } = .next t → t.seq ≠ .idle :=
  ⟨⟨{ State.reset with host := [.call [0x01, 0x00, 0x00], .call []] }, rfl, rfl, fun _ _ h => nomatch h⟩,
    ⟨{ State.reset with host := [.callNow [0x01, 0x00, 0x00]] }, rfl, rfl⟩, rfl,
    ⟨{ State.reset with host := [.call [0x00, 0x00, 0x00], .callNow []] }, rfl, rfl, rfl,
      fun _ h => by cases h; decide⟩⟩

/-- Every label of the statement, with the address and the count in their registers; the legacy loop with either command. -/
theorem witness_SendStepRunsLabelWord :
    (∀ site : Site, ∀ l ∈ [Seq.escape site, .frame site, .xmit .single, .xmit .multi, .stop], ∃ s : State,
      overlapPending s = false ∧ s.seq = l ∧ s.work.addr = some 7 ∧ s.work.cnt = some 1) ∧
    ∀ sel : CmdSel, ∃ s : State, overlapPending s = false ∧ s.seq = .frame .initLoop ∧ s.work.cmdSel = some sel :=
  ⟨fun _ l _ => ⟨transfer l 1 [] [], rfl, rfl, rfl, rfl⟩,
    fun sel => ⟨initAt (.frame .initLoop) 1 (some sel) [] [], rfl, rfl, rfl⟩⟩

set_option maxRecDepth 20000 in
/-- W2: a write of two blocks sends ACMD23 with argument 2; I1: the negotiation's ACMD41 has HCS. -/
theorem test_site_commands :
    encode (siteInstr .writeAcmd23 (transfer .ioEnd 2 [] []).work) = [0x57, 0, 0, 0, 0x02, 0x01] ∧
    encode (siteInstr .initAcmd41 Work.empty) = [0x69, 0x40, 0, 0, 0, 0x01] := by decide

/-- The last response byte, the token, a data response with its ignored bits set. -/
theorem witness_ReceiveStepRunsByte :
    ∀ c ∈ [(Seq.poll .readCmd17 false, (0x7F : Byte)), (.poll .initProbe true, 0x00), (.token .single, 0xFE),
        (.dataResp .single, 0xE5)],
      overlapPending (transfer c.1 1 [c.2] []) = false ∧ (transfer c.1 1 [c.2] []).seq = c.1 ∧
      ∃ b, xchg 0xFF#8 (transfer c.1 1 [c.2] []).bus = (c.2, b) := fun _ _ => ⟨rfl, rfl, _, rfl⟩

/-- The record of a Sync on drive 0. -/
def syncCall : List Byte := [0x04, 0x00, 0x00] ++ List.replicate 16 0

/-- An overlapping call in an operation in progress, one behind a Sync that waits for the card, and a return with none. -/
theorem witness_OverlappingCallRefused :
    (∃ s : State, s.seq ≠ .idle ∧ s.host = .callNow [0x01, 0x00, 0x00] :: [] ∧ Instr.format (.status 0) = .hostOp) ∧
    (∃ s t : State, s.seq = .idle ∧ s.host = .call syncCall :: .callNow [0x01, 0x00, 0x00] :: [] ∧
      decode .hostOp syncCall = .ok (.ioctlSync 0 ⟨0, 0⟩, []) ∧
      exec (.ioctlSync 0 ⟨0, 0⟩) { s with host := [.callNow [0x01, 0x00, 0x00]] } = .next t ∧ t.seq = .idle) ∧
    ∃ s t : State, step s = .next t ∧ t.seq = .idle ∧ s.seq = .ioEnd :=
  ⟨⟨{ transfer .stop 0 [] [] with host := [.callNow [0x01, 0x00, 0x00]] }, by decide, rfl, rfl⟩,
    ⟨{ card 0x0C [0xFF, 0x00, 0xFF, 0xFF] [3] with host := [.call syncCall, .callNow [0x01, 0x00, 0x00]] }, _, rfl, rfl,
      rfl, rfl, rfl⟩,
    ⟨transfer .ioEnd 0 [] [], _, rfl, rfl, rfl⟩⟩

/-- R70, R267: a call that lands in Sync's ready wait is refused; one behind a Sync that has returned runs. -/
theorem test_overlap_in_sync :
    step { card 0x0C [0xFF, 0x00, 0xFF, 0xFF] [3] with host := [.call syncCall, .callNow [0x01, 0x00, 0x00]] } =
      .refused .overlappingCall ∧
    goesTo (step { card 0x0C [0xFF, 0x00, 0xFF, 0xFF] [3] with host := [.call syncCall, .call [0x01, 0x00, 0x00]] })
      (fun t => decide (t.result = some 0 ∧ t.host = [.call [0x01, 0x00, 0x00]])) = true := ⟨rfl, by decide⟩

theorem witness_StatusReturnsRegister : State.reset.seq = .idle := rfl

theorem witness_InitPowersUp : State.reset.seq = .idle ∧ (0 : Byte) = 0#8 ∧ (1 : Byte) ≠ 0#8 := by decide

/-- Each of the three grounds alone. -/
theorem witness_ReadChecks :
    ∀ c ∈ [((1 : Byte), (1 : Word), (0x00 : Byte)), (0, 0, 0x00), (0, 1, 0x01)],
      ∃ s : State, s.seq = .idle ∧ (c.1 ≠ 0#8 ∨ c.2.1 = 0#32 ∨ s.status.getLsbD 0 = true) := by
  intro c hc
  refine ⟨{ State.reset with status := c.2.2 }, rfl, ?_⟩
  simp only [List.mem_cons, List.not_mem_nil, or_false] at hc
  rcases hc with rfl | rfl | rfl <;> decide

theorem witness_ReadBegins :
    (card 0x0C [] []).seq = .idle ∧ (1 : Word) ≠ 0#32 ∧ (2 : Word) ≠ 0#32 ∧ (card 0x0C [] []).status.getLsbD 0 = false := by
  decide

/-- Each of the four grounds alone. -/
theorem witness_WriteChecks :
    ∀ c ∈ [((1 : Byte), (1 : Word), (0x00 : Byte)), (0, 0, 0x00), (0, 1, 0x01), (0, 1, 0x04)],
      ∃ s : State, s.seq = .idle ∧
        (c.1 ≠ 0#8 ∨ c.2.1 = 0#32 ∨ s.status.getLsbD 0 = true ∨ s.status.getLsbD 2 = true) := by
  intro c hc
  refine ⟨{ State.reset with status := c.2.2 }, rfl, ?_⟩
  simp only [List.mem_cons, List.not_mem_nil, or_false] at hc
  rcases hc with rfl | rfl | rfl | rfl <;> decide

/-- An SD card and an MMC card. -/
theorem witness_WriteBegins : ∀ type ∈ [(0x0C : Byte), 0x02, 0x01], (card type [] []).seq = .idle ∧ (2 : Word) ≠ 0#32 ∧
    (card type [] []).status.getLsbD 0 = false ∧ (card type [] []).status.getLsbD 2 = false := by decide

theorem witness_IoctlChecks :
    (State.reset.seq = .idle ∧ (1 : Byte) ≠ 0#8 ∧ State.reset.status.getLsbD 0 = true) ∧
    Instr.ioctlOther 255 0 ⟨0, 0⟩ ∈
      [Instr.ioctlSync 0 ⟨0, 0⟩, .ioctlGetSectorCount 0 ⟨0, 0⟩, .ioctlGetSectorSize 0 ⟨0, 0⟩, .ioctlOther 255 0 ⟨0, 0⟩] := by
  decide

theorem witness_SyncWaitsForReady : (card 0x0C [] []).seq = .idle ∧ (card 0x0C [] []).status.getLsbD 0 = false := by decide
theorem witness_SectorCountBegins : (card 0x01 [] []).seq = .idle ∧ (card 0x01 [] []).status.getLsbD 0 = false := by decide

/-- The shortest buffer that holds the size, and the longest that does not. -/
theorem witness_SectorSizeReported : (card 0x0C [] []).seq = .idle ∧ (card 0x0C [] []).status.getLsbD 0 = false ∧
    2 ≤ (Buf.mk 0 2).len.toNat ∧ (Buf.mk 0 1).len.toNat < 2 := by decide

theorem witness_UnknownIoctlRejected : (card 0x0C [] []).seq = .idle ∧ (card 0x0C [] []).status.getLsbD 0 = false := by decide

/-- Both outcomes of the reselection: a ready card, and one that stays busy until the deadline. -/
theorem witness_CommandFrameIssued :
    (Instr.format (.cmd17 0) = .cmdFrame ∧ Instr.cmd17 0 ≠ .cmd12 ∧ Instr.cmd17 0 ≠ .cmd55) ∧
    (∃ s : State, s.seq = .frame .readCmd17 ∧ (select (deselect s.bus)).1 = true) ∧
    (∃ s : State, s.seq = .frame .readCmd17 ∧ (select (deselect s.bus)).1 = false) :=
  ⟨by decide, ⟨transfer (.frame .readCmd17) 1 readyRx [0], rfl, by decide⟩,
    ⟨transfer (.frame .readCmd17) 1 (List.replicate 3 0x00) [0], rfl, by decide⟩⟩

theorem witness_EscapeCommandIssued :
    (∃ s : State, s.seq = .escape .initProbe ∧ (select (deselect s.bus)).1 = true) ∧
    (∃ s : State, s.seq = .escape .initProbe ∧ (select (deselect s.bus)).1 = false) :=
  ⟨⟨initAt (.escape .initProbe) 0 none readyRx [0], rfl, by decide⟩,
    ⟨initAt (.escape .initProbe) 0 none (List.replicate 3 0x00) [0], rfl, by decide⟩⟩

theorem witness_StopCommandIssued : (transfer (.frame .readCmd12) 0 [] []).seq = .frame .readCmd12 := rfl

/-- The last response that lets the command follow, and the first that does not. -/
theorem witness_EscapeResponse : (initAt (.poll .initProbe true) 0 none [] []).seq = .poll .initProbe true ∧
    (1 : BitVec 7).toNat ≤ 1 ∧ 1 < (2 : BitVec 7).toNat := by decide

theorem witness_ResetCommandResponse :
    (initAt (.poll .initCmd0 false) 0 none [] []).seq = .poll .initCmd0 false ∧ (1 : BitVec 7) = 1#7 ∧ (0 : BitVec 7) ≠ 1#7 := by
  decide

theorem witness_VoltageCheckResponse : (initAt (.poll .initCmd8 false) 0 none [] []).seq = .poll .initCmd8 false ∧
    (1 : BitVec 7).toNat ≤ 1 ∧ 1 < (2 : BitVec 7).toNat := by decide

theorem witness_NegotiationResponse :
    (initAt (.poll .initAcmd41 false) 0 none [] []).seq = .poll .initAcmd41 false ∧
    (initAt (.poll .initLoop false) 1 (some .cmd1) [] []).seq = .poll .initLoop false := by decide

/-- The deadline expired, and not yet: in the version-2 loop, and in the legacy loop with either command. -/
theorem witness_NegotiationLoopHead : ∀ k ∈ [0, 1],
    (∃ (s : State) (d : Deadline), overlapPending s = false ∧ s.bus.tOp = some d ∧ d.falseLeft = k ∧
      s.seq = .loopHead .v2) ∧
    ∀ sel : CmdSel, ∃ (s : State) (d : Deadline), overlapPending s = false ∧ s.bus.tOp = some d ∧ d.falseLeft = k ∧
      s.seq = .loopHead .legacy ∧ s.work.cmdSel = some sel :=
  fun k _ =>
    ⟨⟨{ initAt (.loopHead .v2) 0 none [] [] with bus := { Bus.reset with tOp := some ⟨0, 1000, k⟩ } }, ⟨0, 1000, k⟩,
      rfl, rfl, rfl, rfl⟩,
    fun sel => ⟨{ initAt (.loopHead .legacy) 2 (some sel) [] [] with bus := { Bus.reset with tOp := some ⟨0, 1000, k⟩ } },
      ⟨0, 1000, k⟩, rfl, rfl, rfl, rfl, rfl⟩⟩

theorem witness_OcrResponse : (initAt (.poll .initCmd58 false) 0 none [] []).seq = .poll .initCmd58 false ∧
    (0 : BitVec 7) = 0#7 ∧ (1 : BitVec 7) ≠ 0#7 := by decide

theorem witness_LegacyBranchResponses :
    (initAt (.poll .initProbe false) 0 none [] []).seq = .poll .initProbe false ∧
    (initAt (.poll .initCmd16 false) 1 (some .cmd1) [] []).seq = .poll .initCmd16 false := by decide

theorem witness_ReadCommandResponse :
    (transfer (.poll .readCmd17 false) 1 [] []).seq = .poll .readCmd17 false ∧
    (transfer (.poll .readCmd18 false) 2 [] []).seq = .poll .readCmd18 false ∧
    (countAt (.poll .countCmd9 false) []).seq = .poll .countCmd9 false ∧
    (transfer (.poll .readCmd12 false) 0 [] []).seq = .poll .readCmd12 false := by decide

theorem witness_WriteCommandResponse :
    (transfer (.poll .writeCmd24 false) 1 [] []).seq = .poll .writeCmd24 false ∧
    (transfer (.poll .writeCmd25 false) 2 [] []).seq = .poll .writeCmd25 false ∧
    (transfer (.poll .writeAcmd23 false) 2 [] []).seq = .poll .writeAcmd23 false := by decide

/-- The first and the tenth exchange of a poll, on the least byte that is no response. -/
theorem witness_PollGoesOn : ∀ k ∈ [9, 0], ∃ s : State, overlapPending s = false ∧ s.seq = .poll .readCmd17 false ∧
    (xchg 0xFF#8 s.bus).1 = 0x80 ∧ (0x80 : Byte).getLsbD 7 = true ∧ s.work.n = some (k + 1) := by
  intro k _
  exact ⟨{ transfer (.poll .readCmd17 false) 1 [0x80] [] with work := { Work.empty with n := some (k + 1) } },
    rfl, rfl, rfl, rfl, rfl⟩

/-- Both modes, with an error token and with 0xFF. -/
theorem witness_TokenWaitGoesOn : ∀ mode ∈ [TokenWaitMode.notFe, .ffOnly], ∀ r ∈ [(0x08 : Byte), 0xFF],
    ∃ (s : State) (d : Deadline), overlapPending s = false ∧ s.seq = .token .multi ∧ (xchg 0xFF#8 s.bus).1 = r ∧
      r ≠ 0xFE#8 ∧ s.bus.tOp = some d ∧ s.tokenWaitMode = mode := by
  intro mode _ r hr
  refine ⟨{ transfer (.token .multi) 1 [r] [] with tokenWaitMode := mode }, ⟨0, 200, 3⟩, rfl, rfl, rfl, ?_, rfl, rfl⟩
  simp only [List.mem_cons, List.not_mem_nil, or_false] at hr
  rcases hr with rfl | rfl <;> decide

/-- A buffer of exactly one block. -/
theorem witness_SingleBlockReceived : ∃ (s : State) (b : Buf) (p : Nat), s.seq = .token .single ∧ s.buf = some b ∧
    s.work.ptr = some p ∧ p + 512 ≤ b.len.toNat ∧ b.len.toNat = 512 :=
  ⟨{ transfer (.token .single) 1 [] [] with buf := some ⟨0, 512⟩ }, ⟨0, 512⟩, 0, rfl, rfl, rfl, by decide, rfl⟩

/-- The last block, and one before it. -/
theorem witness_MultiBlockReceived : ∀ n ∈ [(1 : Word), 2], ∃ (s : State) (b : Buf) (p : Nat), s.seq = .token .multi ∧
    s.buf = some b ∧ s.work.ptr = some p ∧ s.work.cnt = some n ∧ p + 512 ≤ b.len.toNat := by
  intro n _
  exact ⟨transfer (.token .multi) n [] [], ⟨0x1000, 1024⟩, 0, rfl, rfl, rfl, rfl, by decide⟩

/-- A buffer of four bytes; and one of three with K3, which does not parse. -/
theorem witness_CapacityReceived :
    (∃ s : State, s.seq = .token .csd ∧ s.buf = some ⟨0x2000, 4⟩ ∧ 4 ≤ (Buf.mk 0x2000 4).len.toNat) ∧
    ∃ s : State, s.seq = .token .csd ∧ s.buf = some ⟨0x2000, 3⟩ ∧ (Buf.mk 0x2000 3).len.toNat < 4 ∧
      parseCsd (receiveBytes 16 s.bus).1 = none :=
  ⟨⟨countAt (.token .csd) [], rfl, rfl, by decide⟩,
    ⟨{ countAt (.token .csd) csdK3 with buf := some ⟨0x2000, 3⟩ }, rfl, rfl, by decide, by decide⟩⟩

/-- A buffer one byte short of a block, received and sent, and one byte short of a capacity. -/
theorem witness_BufferOverrunStops :
    (∀ l ∈ [Seq.token .single, .token .multi, .xmit .single, .xmit .multi], ∃ s : State, s.buf = some ⟨0x1000, 511⟩ ∧
      s.work.ptr = some 0 ∧ (Buf.mk 0x1000 511).len.toNat < 0 + 512 ∧ (waitReady s.bus).1 = true ∧ s.seq = l) ∧
    (∃ s : State, s.buf = some ⟨0x2000, 3⟩ ∧ s.seq = .token .csd ∧ (Buf.mk 0x2000 3).len.toNat < 4 ∧
      (parseCsd (receiveBytes 16 s.bus).1).isSome = true) := by
  refine ⟨fun l _ => ⟨{ transfer l 1 [0xFF] [0] with buf := some ⟨0x1000, 511⟩ }, rfl, rfl, by decide, ?_, rfl⟩,
    ⟨{ countAt (.token .csd) csdK1 with buf := some ⟨0x2000, 3⟩ }, rfl, rfl, by decide, by decide⟩⟩
  exact (by decide : (waitReady (transfer .stop 1 [0xFF] [0]).bus).1 = true)

/-- A version-2 CSD; legacy CSDs with `e` = 2 (FAIL), 9 (the least that parses) and 24 (the greatest). -/
theorem witness_CapacityParse :
    (csdK1.length = 16 ∧ (csdK1.getD 0 0#8).toNat / 64 = 1) ∧
    ∀ c ∈ [(csdK3, 2), (csdK8, 9), (csdK2.take 5 ++ [0x5F, 0x83, 0xFF, 0xC0, 0xB7, 0xFF] ++ csdK2.drop 11, 24)],
      c.1.length = 16 ∧ (c.1.getD 0 0#8).toNat / 64 ≠ 1 ∧
      c.2 = (c.1.getD 5 0#8).toNat % 16 + (c.1.getD 10 0#8).toNat / 128 + (c.1.getD 9 0#8).toNat % 4 * 2 + 2 := by
  decide

/-- Both tokens: over a buffer that ends with the block, on a ready card; over one a byte too short, on a busy card. -/
theorem witness_PacketSent :
    ∀ c ∈ [(Instr.tokenStartBlock, (0xFE#8 : Byte), XmitUse.single), (.tokenStartMultiWrite, 0xFC#8, .multi)],
      (∃ s : State, s.seq = .xmit c.2.2 ∧ s.buf = some ⟨0x1000, 512⟩ ∧ s.work.ptr = some 0 ∧
        0 + 512 ≤ (Buf.mk 0x1000 512).len.toNat ∧ (waitReady s.bus).1 = true) ∧
      ∃ s : State, s.seq = .xmit c.2.2 ∧ s.buf = some ⟨0x1000, 511⟩ ∧ s.work.ptr = some 0 ∧
        (Buf.mk 0x1000 511).len.toNat < 0 + 512 ∧ (waitReady s.bus).1 = false :=
  fun c _ =>
    ⟨⟨{ transfer (.xmit c.2.2) 1 [0xFF] [0] with buf := some ⟨0x1000, 512⟩ }, rfl, rfl, rfl, by decide,
      (by decide : (waitReady (transfer .stop 1 [0xFF] [0]).bus).1 = true)⟩,
    ⟨{ transfer (.xmit c.2.2) 1 [0x00] [0] with buf := some ⟨0x1000, 511⟩ }, rfl, rfl, rfl, by decide,
      (by decide : (waitReady (transfer .stop 1 [0x00] [0]).bus).1 = false)⟩⟩

theorem witness_StopTokenSent : ∀ r ∈ [((0xFF : Byte), true), (0x00, false)],
    (transfer .stop 0 [r.1] [0]).seq = .stop ∧ (waitReady (transfer .stop 0 [r.1] [0]).bus).1 = r.2 := by
  intro r hr
  simp only [List.mem_cons, List.not_mem_nil, or_false] at hr
  rcases hr with rfl | rfl <;> decide

theorem witness_DataResponse :
    (transfer (.dataResp .single) 1 [] []).seq = .dataResp .single ∧
    (∀ n ∈ [(1 : Word), 2], ∃ s : State, s.seq = .dataResp .multi ∧ s.work.ptr = some 0 ∧ s.work.cnt = some n) ∧
    ∃ s : State, overlapPending s = false ∧ s.seq = .dataResp .multi ∧ (xchg 0xFF#8 s.bus).1 = 0x0B ∧
      (0x0B : Byte).toNat % 32 ≠ 5 :=
  ⟨rfl, fun n _ => ⟨transfer (.dataResp .multi) n [] [], rfl, rfl, rfl⟩,
    ⟨transfer (.dataResp .multi) 2 [0x0B] [], rfl, rfl, rfl, by decide⟩⟩

/-- A failed and a successful INIT. -/
theorem witness_InitFinalisation : ∀ ty ∈ [(0x00 : Byte), 0x0C], overlapPending (initAt .initEnd ty none [] []) = false ∧
    (initAt .initEnd ty none [] []).seq = .initEnd ∧ (initAt .initEnd ty none [] []).work.ty = some ty :=
  fun _ _ => ⟨rfl, rfl, rfl⟩

theorem witness_TransferEnds :
    (∀ n ∈ [(0 : Word), 1], overlapPending (transfer .ioEnd n [] []) = false ∧ (transfer .ioEnd n [] []).seq = .ioEnd ∧
      (transfer .ioEnd n [] []).work.cnt = some n) ∧
    ∀ ok : Bool, overlapPending (countAt (.countEnd ok) []) = false ∧ (countAt (.countEnd ok) []).seq = .countEnd ok :=
  ⟨fun _ _ => ⟨rfl, rfl, rfl⟩, fun _ => ⟨rfl, rfl⟩⟩

theorem witness_TransportPrimitives : ∃ (b : Bus) (r : Byte) (later : List Byte), b.env.rxIn = r :: later :=
  ⟨(card 0x0C [0x5A] []).bus, 0x5A, [], rfl⟩

/-- 0xFF after as many busy bytes as the deadline allows, and one busy byte more. -/
theorem witness_ReadyWaitOutcome :
    (∃ b : Bus, b.env.expIn = 2 :: [] ∧ b.env.rxIn = [(0x00 : Byte), 0x00] ++ 0xFF#8 :: []) ∧
    (∃ b : Bus, b.env.expIn = 2 :: [] ∧ b.env.rxIn = [(0x00 : Byte), 0x00] ++ 0x00 :: []) ∧
    (∀ d ∈ [(0x00 : Byte), 0x00], d ≠ 0xFF#8) :=
  ⟨⟨(card 0 [0x00, 0x00, 0xFF] [2]).bus, rfl, rfl⟩, ⟨(card 0 [0x00, 0x00, 0x00] [2]).bus, rfl, rfl⟩, by decide⟩

/-- The invariant holds in a multi-block read that waits for a token, and the state has a successor. -/
theorem witness_StepKeepsInvariant :
    Inv (transfer (.token .multi) 2 [0xFF] []) ∧ ∃ t, step (transfer (.token .multi) 2 [0xFF] []) = .next t :=
  ⟨{ driver := ⟨by decide, by decide, by decide⟩
     memory := by decide
     idle := fun h => nomatch h
     select := fun _ => rfl
     clock := ⟨fun _ => by decide, fun _ => rfl⟩
     ready := by show (0x0C : Byte) ≠ 0#8; decide
     result := fun _ => rfl
     ty := trivial
     count := ⟨2, rfl, by decide⟩
     operands := ⟨⟨_, rfl⟩, ⟨0, rfl⟩, ⟨_, rfl⟩⟩
     poll := trivial
     escape := trivial
     deadline := ⟨_, rfl, rfl⟩ },
   ⟨_, rfl⟩⟩

/-- A step of an operation, INIT's finalisation, an idle step, and SocketUpdate. -/
theorem witness_OnlyInitWritesDriverState :
    (∃ s t : State, step s = .next t ∧ s.seq ≠ .initEnd ∧ s.seq ≠ .idle) ∧
    (∃ s t : State, step s = .next t ∧ s.seq = .initEnd) ∧
    (∃ s t : State, step s = .next t ∧ s.seq = .idle ∧ ∀ nd wp later, s.host ≠ .socketUpdate nd wp :: later) ∧
    ∃ s t : State, step s = .next t ∧ s.seq = .idle ∧ s.host = .socketUpdate true true :: [] :=
  ⟨⟨transfer .ioEnd 0 [] [], _, rfl, by decide, by decide⟩, ⟨initAt .initEnd 0x0C none [0xFF] [], _, rfl, rfl⟩,
    ⟨card 0x0C [] [], _, rfl, rfl, fun _ _ _ h => nomatch h⟩,
    ⟨{ State.reset with host := [.socketUpdate true true] }, _, rfl, rfl, rfl⟩⟩

/-- At IDLE, and in an operation that goes on (INIT's finalisation, which writes `status`). -/
theorem witness_SocketUpdateWritesTwoBits :
    (∃ s : State, s.host = .socketUpdate true false :: [] ∧ s.seq = .idle) ∧
    ∃ s t : State, s.host = .socketUpdate true false :: [] ∧ s.seq ≠ .idle ∧ step s = .next t :=
  ⟨⟨{ State.reset with host := [.socketUpdate true false] }, rfl, rfl⟩,
    ⟨{ initAt .initEnd 0x0C none [0xFF] [] with host := [.socketUpdate true false] }, _, rfl, by decide, rfl⟩⟩

/-- INIT slows a fast clock; its finalisation makes a slow one fast. -/
theorem witness_OnlyInitChangesClock :
    (∃ s t : State, step s = .next t ∧ t.bus.clk ≠ s.bus.clk ∧ s.seq = .idle) ∧
    ∃ s t : State, step s = .next t ∧ t.bus.clk ≠ s.bus.clk ∧ s.seq = .initEnd :=
  ⟨⟨{ card 0x0C (List.replicate 10 0xFF) [] with host := [.call [0, 0, 0]] }, _, rfl, by decide, rfl⟩,
    ⟨initAt .initEnd 0x0C none [0xFF] [], _, rfl, by decide, rfl⟩⟩

/-- The end of an INIT in progress; and GetSectorSize, called at IDLE, which returns in its one step. -/
theorem witness_BusReleasedAtReturn :
    (∃ s t : State, step s = .next t ∧ t.seq = .idle ∧ s.seq ≠ .idle) ∧
    ∃ (s t : State) (bytes : List Byte), step s = .next t ∧ t.seq = .idle ∧ s.seq = .idle ∧ s.host = .call bytes :: [] ∧
      t.trace ≠ [] :=
  ⟨⟨initAt .initEnd 0x0C none [0xFF] [], _, rfl, rfl, by decide⟩,
    ⟨{ card 0x0C [0xFF] [] with host := [.call ([0x04, 0x02, 0x00] ++ List.replicate 8 0 ++ [2, 0, 0, 0, 0, 0, 0, 0])] }, _,
      _, rfl, rfl, rfl, rfl, by decide⟩⟩

/-- A step that writes memory (the CSD of K1 with its token), and addresses just outside the buffer; a step at no token
label; a token wait's step on a byte that is not the token. -/
theorem witness_MemoryWrittenOnlyInBuffer :
    (∃ (s t : State) (b : Buf), step s = .next t ∧ s.seq ≠ .idle ∧ s.buf = some b ∧
      0x1FFF < b.base.toNat ∧ b.base.toNat + b.len.toNat ≤ 0x2004) ∧
    (∃ s t : State, step s = .next t ∧ s.seq ≠ .idle ∧ ∀ use, s.seq ≠ .token use) ∧
    ∃ s t : State, step s = .next t ∧ s.seq = .token .single ∧ (xchg 0xFF#8 s.bus).1 ≠ 0xFE#8 :=
  ⟨⟨countAt (.token .csd) (0xFE :: (csdK1 ++ [0xAB, 0xCD])), _, ⟨0x2000, 4⟩, rfl, by decide, rfl, by decide, by decide⟩,
    ⟨transfer .ioEnd 0 [] [], _, rfl, by decide, fun _ h => nomatch h⟩,
    ⟨transfer (.token .single) 1 [0xFF] [], _, rfl, rfl, by decide⟩⟩

/-- An operation in progress with a call waiting for it. -/
theorem witness_EveryOperationReturns : ∃ s : State, overlapPending s = false ∧ s.seq ≠ .idle ∧ s.host = [.call [1, 0, 0]] :=
  ⟨{ transfer (.token .multi) 2 [] [] with host := [.call [1, 0, 0]] }, rfl, by decide, rfl⟩

/-- The record of a call: READ or WRITE of sector 7, one block, a 512-byte buffer at 0x1000. -/
def oneBlockCall (op : Byte) : List Byte :=
  [op, 0, 0] ++ [0, 0x10, 0, 0, 0, 0, 0, 0] ++ [0, 2, 0, 0, 0, 0, 0, 0] ++ [7, 0, 0, 0] ++ [1, 0, 0, 0]

theorem witness_SingleBlockReadRun : ∃ s : State, s.seq = .idle ∧ s.host = [.call (oneBlockCall 2)] ∧
    decode .hostOp (oneBlockCall 2) = .ok (.read 0#8 ⟨0x1000, 512⟩ 7 1#32, []) ∧ s.status.getLsbD 0 = false ∧
    512 ≤ (Buf.mk 0x1000 512).len.toNat ∧ (List.replicate 512 (0x5A : Byte)).length = 512 ∧
    s.bus.env.rxIn = [0xFF, 0xFF, 0xFF#8, 0xFF, 0xFF, 0xFF, 0xFF, 0xFF, 0xFF, 0x00#8, 0xFE#8] ++
      List.replicate 512 (0x5A : Byte) ++ 0x12 :: 0x34 :: 0xFF :: [] :=
  ⟨{ card 0x0C ([0xFF, 0xFF, 0xFF, 0xFF, 0xFF, 0xFF, 0xFF, 0xFF, 0xFF, 0x00, 0xFE] ++
        List.replicate 512 0x5A ++ [0x12, 0x34, 0xFF]) [] with host := [.call (oneBlockCall 2)] },
    rfl, rfl, rfl, by decide, by decide, List.length_replicate, rfl⟩

theorem witness_SingleBlockWriteRun : ∃ s : State, s.seq = .idle ∧ s.host = [.call (oneBlockCall 3)] ∧
    decode .hostOp (oneBlockCall 3) = .ok (.write 0#8 ⟨0x1000, 512⟩ 7 1#32, []) ∧ s.status.getLsbD 0 = false ∧
    s.status.getLsbD 2 = false ∧ 512 ≤ (Buf.mk 0x1000 512).len.toNat ∧
    (List.replicate 515 (0xFF : Byte)).length = 515 ∧ (0xE5 : Byte).toNat % 32 = 5 ∧
    s.bus.env.rxIn = [0xFF, 0xFF, 0xFF#8, 0xFF, 0xFF, 0xFF, 0xFF, 0xFF, 0xFF, 0x00#8, 0xFF#8] ++
      List.replicate 515 (0xFF : Byte) ++ 0xE5 :: 0xFF :: [] :=
  ⟨{ card 0x0C ([0xFF, 0xFF, 0xFF, 0xFF, 0xFF, 0xFF, 0xFF, 0xFF, 0xFF, 0x00, 0xFF] ++
        List.replicate 515 0xFF ++ [0xE5, 0xFF]) [] with host := [.call (oneBlockCall 3)] },
    rfl, rfl, rfl, by decide, by decide, by decide, List.length_replicate, by decide, rfl⟩

theorem witness_AbsentCardInitFails : ∃ s : State, s.seq = .idle ∧ s.host = [.call [0, 0, 0]] ∧
    decode .hostOp [0, 0, 0] = .ok (.init 0#8, []) ∧ s.bus.env.rxIn = List.replicate 30 0xFF#8 ++ [] :=
  ⟨{ State.reset with
      host := [.call [0, 0, 0]]
      bus := { Bus.reset with env := { Env.initial with rxIn := List.replicate 30 0xFF#8 } } }, rfl, rfl, rfl, rfl⟩

end Sys2Proof.Tests
end

section

/-! PROOF of O57. A rank that every step of an operation lowers: the blocks left (R214, R221), then the false answers `T_OP` has
left (R124 b), then the label's place within its stage. The ready wait (R127) loops inside a step and needs no part of it. -/

namespace Sys2Proof.Machine

/-! ## The rank -/

/-- How far a site's operation still is from its end: 4 before its deadline is started or its first block is moved, 3 in INIT
once the deadline runs, 2 at the command that closes a multi-block read (R184, R213-R215, R220, R221). -/
def Site.stage : Site → ℕ
  | .initCmd0 | .readCmd17 | .readCmd18 | .writeCmd24 | .writeAcmd23 | .writeCmd25 | .countCmd9 => 4
  | .initCmd8 | .initAcmd41 | .initCmd58 | .initProbe | .initLoop | .initCmd16 => 3
  | .readCmd12 => 2

/-- The stage of a label: 3 while blocks are left to move, 2 at the stop token, 1 at an end, 0 at IDLE. -/
def Seq.stage : Seq → ℕ
  | .escape site | .frame site | .poll site _ => site.stage
  | .loopHead _ | .token _ | .xmit _ | .dataResp _ => 3
  | .stop => 2
  | .initEnd | .ioEnd | .countEnd _ => 1
  | .idle => 0

/-- The commands of one stage in reverse order; the head of a negotiation loop, which sends the loop's command, has place 1
(R185-R191, R221). -/
def Site.order : Site → ℕ
  | .initCmd8 => 3
  | .initProbe | .initAcmd41 | .initLoop => 2
  | .writeAcmd23 => 1
  | .initCmd0 | .initCmd58 | .initCmd16 | .readCmd17 | .readCmd18 | .readCmd12 | .writeCmd24 | .writeCmd25
  | .countCmd9 => 0

/-- Where a label stands within its stage, with `n` poll exchanges left: a command has 30 places, of which each of its two
polls, entered with ten exchanges left, takes as many as it has exchanges left (R141, R146). -/
def Seq.place (n : ℕ) : Seq → ℕ
  | .escape site => 30 * site.order + 24
  | .poll site true => 30 * site.order + 13 + n
  | .frame site => 30 * site.order + 12
  | .poll site false => 30 * site.order + 1 + n
  | .loopHead _ => 30
  | .xmit _ => 1
  | .token _ | .dataResp _ | .stop | .initEnd | .ioEnd | .countEnd _ | .idle => 0

/-- The stage, and while blocks may be moved how many follow the next one. -/
def blocksLeft (stage : ℕ) (cnt : Word) : ℕ := stage + if stage < 3 then 0 else (cnt - 1#32).toNat

/-- How many queries of `T_OP` still answer `false` (R124). -/
def opLeft (b : Bus) : ℕ :=
  match b.tOp with
  | some d => d.falseLeft
  | none => 0

/-- What every step of an operation makes smaller: the blocks, then the false answers of `T_OP`, then the place. -/
def rank (s : State) : ℕ ×ₗ ℕ ×ₗ ℕ :=
  toLex (blocksLeft s.seq.stage s.work.cntVal, toLex (opLeft s.bus, s.seq.place s.work.nVal))

theorem rank_lt_iff {s t : State} : rank t < rank s ↔
    blocksLeft t.seq.stage t.work.cntVal < blocksLeft s.seq.stage s.work.cntVal ∨
    blocksLeft t.seq.stage t.work.cntVal = blocksLeft s.seq.stage s.work.cntVal ∧
      (opLeft t.bus < opLeft s.bus ∨
        opLeft t.bus = opLeft s.bus ∧ t.seq.place t.work.nVal < s.seq.place s.work.nVal) := by
  simp only [rank, Prod.Lex.toLex_lt_toLex]

/-- One step's progress in an operation: the host's queue is kept and the rank falls. -/
structure Descends (s t : State) : Prop where
  host : t.host = s.host
  rank : rank t < rank s

/-- Only the bus and registers the rank does not read have changed between `s` and `s'`. -/
theorem Descends.of_same {s s' t : State} (h : Descends s' t) (hh : s'.host = s.host)
    (hr : Machine.rank s' = Machine.rank s) : Descends s t :=
  ⟨h.host.trans hh, hr ▸ h.rank⟩

/-- A lower stage; the count may change where the rank no longer reads it. -/
theorem Descends.of_stage {s t : State} (hh : t.host = s.host) (h : t.seq.stage < s.seq.stage)
    (hc : 3 ≤ t.seq.stage → t.work.cntVal = s.work.cntVal) : Descends s t := by
  refine ⟨hh, rank_lt_iff.2 (.inl ?_)⟩
  simp only [blocksLeft]
  split
  · omega
  · rw [hc (by omega), if_neg (by omega)]; omega

/-- The waits are over: the operation goes on to a closing command or an end, whatever the count is then. -/
theorem Descends.of_closing {s t : State} (hh : t.host = s.host) (hs : s.seq.stage = 3) (ht : t.seq.stage ≤ 2) :
    Descends s t :=
  .of_stage hh (by omega) (by omega)

/-- One block fewer to move (R210, R217), the last of them not reached. -/
theorem Descends.of_count {s t : State} (hh : t.host = s.host) (ht : t.seq.stage = 3) (hs : s.seq.stage = 3)
    (hc : t.work.cntVal = s.work.cntVal - 1#32) (h1 : s.work.cntVal ≠ 1#32) : Descends s t := by
  refine ⟨hh, rank_lt_iff.2 (.inl ?_)⟩
  simp only [blocksLeft, ht, hs, hc, Nat.lt_irrefl, if_false]
  bv_omega

/-- A query of `T_OP` has used up a false answer (R124). -/
theorem Descends.of_query {s t : State} (hh : t.host = s.host) (hs : t.seq.stage = s.seq.stage)
    (hc : t.work.cntVal = s.work.cntVal) (h : opLeft t.bus < opLeft s.bus) : Descends s t :=
  ⟨hh, rank_lt_iff.2 (.inr ⟨by rw [hs, hc], .inl h⟩)⟩

theorem Descends.of_place {s t : State} (hh : t.host = s.host) (hs : t.seq.stage = s.seq.stage)
    (hc : t.work.cntVal = s.work.cntVal) (ho : t.bus.tOp = s.bus.tOp)
    (h : t.seq.place t.work.nVal < s.seq.place s.work.nVal) : Descends s t :=
  ⟨hh, rank_lt_iff.2 (.inr ⟨by rw [hs, hc], .inr ⟨by rw [opLeft, ho, opLeft], h⟩⟩)⟩

theorem callSite_stage (site : Site) (w : Work) : (callSite site w).stage = site.stage := by
  simp only [callSite]; split <;> rfl

theorem callSite_place_le (site : Site) (w : Work) (n : ℕ) : (callSite site w).place n ≤ 30 * site.order + 24 := by
  simp only [callSite]; split <;> simp [Seq.place]

/-! ## Commands (R140-R146) -/

/-- The sequencer is at a label of a site's command: before its frame, at it, or polling. -/
structure InCommand (site : Site) (s : State) : Prop where
  stage : s.seq.stage = site.stage
  place : 30 * site.order < s.seq.place s.work.nVal

/-- The operation goes on to a label of a lower stage. -/
theorem InCommand.toStage {site : Site} {s t : State} (h : InCommand site s) (l : Seq) (ht : t.seq = l)
    (hl : l.stage < site.stage) (hh : t.host = s.host) (hc : t.work.cntVal = s.work.cntVal) : Descends s t :=
  .of_stage hh (by rw [ht, h.stage]; exact hl) fun _ => hc

/-- The operation goes on to a later command of the stage. -/
theorem InCommand.toCall {site : Site} {s t : State} (h : InCommand site s) (site' : Site)
    (ht : t.seq = callSite site' t.work) (hs : site'.stage = site.stage) (hl : site'.order < site.order)
    (hh : t.host = s.host) (hc : t.work.cntVal = s.work.cntVal) (ho : t.bus.tOp = s.bus.tOp) : Descends s t := by
  refine .of_place hh (by rw [ht, callSite_stage, hs, h.stage]) hc ho ?_
  have := callSite_place_le site' t.work t.work.nVal
  have := h.place
  rw [ht]
  omega

/-- INIT goes on to the head of a negotiation loop. -/
theorem InCommand.toLoopHead {site : Site} {s t : State} (h : InCommand site s) (kind : LoopKind)
    (ht : t.seq = .loopHead kind) (hs : site.stage = 3) (hl : 1 ≤ site.order)
    (hh : t.host = s.host) (hc : t.work.cntVal = s.work.cntVal) (ho : t.bus.tOp = s.bus.tOp) : Descends s t := by
  refine .of_place hh (by rw [ht, h.stage, hs]; rfl) hc ho ?_
  have hp := h.place
  rw [ht]
  show 30 < _
  omega

/-- Every caller's branch on a response goes on below the command's own labels (R182-R191, R213, R214, R220, R221, R243). -/
theorem afterResponse_descends (site : Site) (r : Byte) (s : State) (h : InCommand site s) :
    Descends s (afterResponse site r s) := by
  cases site <;> simp only [afterResponse]
  case initCmd0 =>
    simp only [afterCmd0]; split
    · exact h.toStage (.frame .initCmd8) rfl (by decide) rfl rfl
    · exact h.toStage .initEnd rfl (by decide) rfl rfl
  case initCmd8 =>
    simp only [afterCmd8]; split
    · split
      · exact h.toLoopHead .v2 rfl rfl (by decide) rfl rfl (latchOcr_only s).tOp
      · exact h.toStage .initEnd rfl (by decide) rfl rfl
    · exact h.toCall .initProbe rfl rfl (by decide) rfl rfl rfl
  case initAcmd41 =>
    simp only [afterAcmd41]; split
    · exact h.toCall .initCmd58 rfl rfl (by decide) rfl rfl rfl
    · exact h.toLoopHead .v2 rfl rfl (by decide) rfl rfl rfl
  case initCmd58 =>
    simp only [afterCmd58]; split <;> exact h.toStage .initEnd rfl (by decide) rfl rfl
  case initProbe =>
    simp only [afterProbe]; split <;> exact h.toLoopHead .legacy rfl rfl (by decide) rfl rfl rfl
  case initLoop =>
    simp only [afterLoop]; split
    · exact h.toCall .initCmd16 rfl rfl (by decide) rfl rfl rfl
    · exact h.toLoopHead .legacy rfl rfl (by decide) rfl rfl rfl
  case initCmd16 =>
    simp only [afterCmd16]; split <;> exact h.toStage .initEnd rfl (by decide) rfl rfl
  case readCmd17 =>
    simp only [afterCmd17]; split
    · exact h.toStage (.token .single) rfl (by decide) rfl rfl
    · exact h.toStage .ioEnd rfl (by decide) rfl rfl
  case readCmd18 =>
    simp only [afterCmd18]; split
    · exact h.toStage (.token .multi) rfl (by decide) rfl rfl
    · exact h.toStage .ioEnd rfl (by decide) rfl rfl
  case readCmd12 => exact h.toStage .ioEnd rfl (by decide) rfl rfl
  case writeCmd24 =>
    simp only [afterCmd24]; split
    · exact h.toStage (.xmit .single) rfl (by decide) rfl rfl
    · exact h.toStage .ioEnd rfl (by decide) rfl rfl
  case writeAcmd23 => exact h.toCall .writeCmd25 rfl rfl (by decide) rfl rfl rfl
  case writeCmd25 =>
    simp only [afterCmd25]; split
    · exact h.toStage (.xmit .multi) rfl (by decide) rfl rfl
    · exact h.toStage .ioEnd rfl (by decide) rfl rfl
  case countCmd9 =>
    simp only [afterCmd9]; split
    · exact h.toStage (.token .csd) rfl (by decide) rfl rfl
    · exact h.toStage (.countEnd false) rfl (by decide) rfl rfl

/-- An answered command goes on: to the site's own frame after its CMD55, else by the caller's branch (R140, R141). -/
theorem respond_descends (site : Site) (e : Bool) (r : Byte) (s : State) (h : InCommand site s)
    (he : e = true → (Seq.frame site).place s.work.nVal < s.seq.place s.work.nVal) :
    Descends s (respond site e r s) := by
  simp only [respond]
  split
  · rename_i hx
    exact .of_place rfl h.stage.symm rfl rfl (he (by simp_all))
  · have h1 : InCommand site { s with work := { s.work with res := some r } } := ⟨h.stage, h.place⟩
    exact (afterResponse_descends site r _ h1).of_same rfl rfl

/-- A command is issued (R142, R144): its poll of ten exchanges is next, or it is answered by a select timeout. -/
theorem issueAt_descends (site : Site) (e : Bool) (idx : BitVec 6) (arg : Word) (s : State)
    (hs : s.seq = if e then .escape site else .frame site) : Descends s (issueAt site e idx arg s) := by
  have ht : (reselect idx s.bus).2.tOp = s.bus.tOp := by
    by_cases hi : idx = 12#6
    · rw [reselect, if_pos hi]
    · exact (reselect_lines idx s.bus hi).2.1
  simp only [issueAt]
  split
  · have hf := (sendFrame_only idx arg (reselect idx s.bus).2).tOp.trans ht
    exact .of_place rfl (by rw [hs]; cases e <;> rfl) rfl hf
      (by rw [hs]; cases e <;> simp [Seq.place, Work.nVal, Config.respPolls])
  · have h1 : InCommand site { s with bus := (reselect idx s.bus).2 } :=
      ⟨by rw [hs]; cases e <;> rfl, by rw [hs]; cases e <;> simp [Seq.place]⟩
    exact (respond_descends site e noResponse _ h1 (by rw [hs]; rintro rfl; simp [Seq.place])).of_same rfl
      (by simp only [rank, opLeft, ht])

/-- A poll exchange uses up one of those left, and its byte ends the poll or leaves more of them (R146). -/
theorem poll_descends (site : Site) (e : Bool) (r : Byte) (s : State) (hs : s.seq = .poll site e) :
    Descends s (if r.getLsbD 7 then pollMissed site e r (pollExchange s).2 else respond site e r (pollExchange s).2) := by
  have hseq : (pollExchange s).2.seq = .poll site e := hs
  have hn : (pollExchange s).2.work.nVal = s.work.nVal - 1 := rfl
  have hle : rank (pollExchange s).2 ≤ rank s := by
    refine Prod.Lex.toLex_mono ⟨le_of_eq rfl, Prod.Lex.toLex_mono ⟨le_of_eq rfl, ?_⟩⟩
    show (pollExchange s).2.seq.place (pollExchange s).2.work.nVal ≤ s.seq.place s.work.nVal
    rw [hseq, hs, hn]
    cases e <;> simp only [Seq.place] <;> omega
  have h1 : InCommand site (pollExchange s).2 :=
    ⟨by rw [hseq]; rfl, by rw [hseq]; cases e <;> simp only [Seq.place] <;> omega⟩
  have hr : Descends s (respond site e r (pollExchange s).2) := by
    obtain ⟨hh, hr⟩ := respond_descends site e r _ h1 (by rw [hseq]; rintro rfl; simp only [Seq.place]; omega)
    exact ⟨hh, hr.trans_le hle⟩
  split
  · simp only [pollMissed]
    split
    · exact hr
    · rename_i h0
      refine .of_place rfl rfl rfl rfl ?_
      show s.seq.place (s.work.nVal - 1) < s.seq.place s.work.nVal
      rw [hs]
      cases e <;> simp only [Seq.place] <;> omega
  · exact hr

/-! ## Waits on `T_OP` (R124, R187, R190, R215) -/

theorem opLeft_expired_lt {b : Bus} (h : (expired .op b).1 = false) : opLeft (expired .op b).2 < opLeft b := by
  cases hd : b.tOp with
  | none => simp [expired, deadline, hd] at h
  | some d =>
    obtain ⟨ha, -, hk⟩ := expired_of_deadline (t := .op) (b := b) hd
    replace hk : (expired .op b).2.tOp = some { d with falseLeft := d.falseLeft - 1 } := hk
    have : d.falseLeft ≠ 0 := by simpa [ha] using h
    simp only [opLeft, hd, hk]
    omega

theorem loopQuery_descends (kind : LoopKind) (s : State) (hs : s.seq = .loopHead kind) : Descends s (loopQuery kind s) := by
  have h3 : s.seq.stage = 3 := by rw [hs]; rfl
  simp only [loopQuery]
  split
  · cases kind <;> exact .of_closing rfl h3 (Nat.le_succ 1)
  · rename_i he
    have hq := opLeft_expired_lt (b := s.bus) (by simpa using he)
    cases kind
    · exact .of_query rfl h3.symm rfl hq
    · exact .of_query rfl ((callSite_stage .initLoop _).trans h3.symm) rfl hq

theorem receiveFailed_stage_le (use : RecvUse) (s : State) : (receiveFailed use s).seq.stage ≤ 2 := by
  cases use
  · exact Nat.le_succ 1
  · exact le_rfl
  · exact Nat.le_succ 1

theorem receiveFailed_host (use : RecvUse) (s : State) : (receiveFailed use s).host = s.host := by cases use <;> rfl

theorem tokenMissed_descends (use : RecvUse) (tok : Byte) (s : State) (h3 : s.seq.stage = 3) :
    Descends s (tokenMissed use tok s) := by
  simp only [tokenMissed]
  split
  · exact .of_closing (receiveFailed_host _ _) h3 (receiveFailed_stage_le _ _)
  · split
    · exact .of_closing (receiveFailed_host _ _) h3 (receiveFailed_stage_le _ _)
    · rename_i he
      exact .of_query rfl rfl rfl (opLeft_expired_lt (by simpa using he))

/-! ## Blocks (R213-R222) -/

theorem receiveBlock_single_descends (s : State) (h3 : s.seq.stage = 3) : Descends s (receiveBlock .single s) := by
  obtain ⟨p, b', c0, c1, -, -, -, he⟩ := receiveBlock_single s
  rw [he]
  exact .of_closing rfl h3 (Nat.le_succ 1)

theorem receiveBlock_multi_descends (s : State) (h3 : s.seq.stage = 3) : Descends s (receiveBlock .multi s) := by
  obtain ⟨p, b', c0, c1, -, -, -, he⟩ := receiveBlock_multi s
  rw [he]
  by_cases h1 : s.work.cntVal = 1#32
  · exact .of_closing rfl h3 (by rw [if_pos h1]; exact le_rfl)
  · exact .of_count rfl (by rw [if_neg h1]; rfl) h3 rfl h1

theorem countReceived_descends (s : State) (h3 : s.seq.stage = 3) : Descends s (countReceived (receiveCsd s)) := by
  obtain ⟨csd, b', c0, c1, -, -, -, -, he⟩ := countReceived_receiveCsd s
  rw [he]
  exact .of_closing rfl h3 (Nat.le_succ 1)

theorem blockFailed_descends (use : XmitUse) (s s1 : State) (hh : s1.host = s.host) (h3 : s.seq.stage = 3) :
    Descends s (blockFailed use s1) := by
  cases use
  · exact .of_closing hh h3 (Nat.le_succ 1)
  · exact .of_closing hh h3 le_rfl

theorem blockAccepted_descends (use : XmitUse) (s : State) (h3 : s.seq.stage = 3) : Descends s (blockAccepted use s) := by
  cases use
  · exact .of_closing rfl h3 (Nat.le_succ 1)
  · simp only [blockAccepted]
    split
    · exact .of_closing rfl h3 le_rfl
    · rename_i h0
      exact .of_count rfl rfl h3 rfl fun h1 => h0 ((word_pred_zero _).2 h1)

/-! ## Every step -/

/-- What a step of an operation can answer: it goes on with a smaller rank, or it is stuck at a short buffer (R61; log 10). -/
def Progress (s : State) (o : Host.Outcome State Fault Refusal) : Prop :=
  o = .fault .hostBufferOverrun ∨ ∃ t, o = .next t ∧ Descends s t

theorem Progress.next {s t : State} (h : Descends s t) : Progress s (.next t) := .inr ⟨t, rfl, h⟩

theorem Progress.of_same {s s' : State} {o : Host.Outcome State Fault Refusal} (h : Progress s' o)
    (hh : s'.host = s.host) (hr : rank s' = rank s) : Progress s o :=
  h.imp_right fun ⟨t, ht, hd⟩ => ⟨t, ht, hd.of_same hh hr⟩

theorem Progress.stuck (s : State) : Progress s (.fault .hostBufferOverrun) := .inl rfl

theorem receiveData_progress (use : RecvUse) (s : State) (h3 : s.seq.stage = 3) : Progress s (receiveData use s) := by
  cases use <;> simp only [receiveData] <;> split
  case single.isTrue => exact .next (receiveBlock_single_descends s h3)
  case multi.isTrue => exact .next (receiveBlock_multi_descends s h3)
  case csd.isTrue => exact .next (countReceived_descends s h3)
  case csd.isFalse =>
    split
    · exact .next (countReceived_descends s h3)
    · exact .stuck s
  all_goals exact .stuck s

theorem transmitData_progress (token : Byte) (use : XmitUse) (s : State) (hs : s.seq = .xmit use) :
    Progress s (transmitData token use s) := by
  have h3 : s.seq.stage = 3 := by rw [hs]; rfl
  have hsent : Descends s (sendPacket token use { s with bus := (waitReady s.bus).2 }) := by
    obtain ⟨payload, es, b', -, -, -, hb, -, he⟩ := sendPacket_spec token use { s with bus := (waitReady s.bus).2 }
    rw [he]
    exact .of_place rfl h3.symm rfl (hb.tOp.trans (waitReady_lines s.bus).2.2) (by rw [hs]; exact Nat.zero_lt_one)
  have hfailed := blockFailed_descends use s { s with bus := (waitReady s.bus).2 } rfl h3
  simp only [transmitData]
  split
  · split
    · exact .next hsent
    · exact .next hfailed
  · split
    · exact .stuck s
    · exact .next hfailed

theorem transmitStop_descends (s : State) (hs : s.seq = .stop) : Descends s (transmitStop s) := by
  simp only [transmitStop]
  split <;> exact .of_stage rfl (by rw [hs]; exact Nat.one_lt_two) (by simp [Seq.stage])

/-- An operation that ends is at IDLE, with the lowest rank. -/
theorem Descends.of_end {s t : State} (hh : t.host = s.host) (hs : s.seq.stage = 1) (ht : t.seq = .idle) : Descends s t :=
  .of_stage hh (by rw [hs, ht]; exact Nat.zero_lt_one) (by rw [ht]; simp [Seq.stage])

theorem finishInit_host_seq (s : State) : (finishInit s).host = s.host ∧ (finishInit s).seq = .idle := by
  simp only [finishInit]
  split <;> exact ⟨rfl, rfl⟩

/-- Every step of an operation in progress makes progress (R6, R268). -/
theorem step_progress {s : State} (hi : s.seq ≠ .idle) (hp : overlapPending s = false) : Progress s (step s) := by
  cases hs : s.seq with
  | idle => exact absurd hs hi
  | escape site =>
    rw [step_escape hp hs]
    exact .next (issueAt_descends site true _ _ s hs)
  | frame site =>
    obtain ⟨idx, arg, h, -⟩ := step_frame hp hs
    rw [h]
    exact .next (issueAt_descends site false idx arg s hs)
  | poll site e =>
    rw [step_poll hp hs]
    exact .next (poll_descends site e _ s hs)
  | loopHead kind =>
    rw [step_loopHead hp hs]
    exact .next (loopQuery_descends kind s hs)
  | token use =>
    have h3 : (tokenExchange s).2.seq.stage = 3 := congrArg Seq.stage hs
    rw [step_token hp hs]
    refine Progress.of_same (s' := (tokenExchange s).2) ?_ rfl rfl
    split
    · exact receiveData_progress use _ h3
    · exact .next (tokenMissed_descends use _ _ h3)
  | xmit use =>
    rw [step_xmit hp hs]
    exact transmitData_progress _ use s hs
  | dataResp use =>
    rw [step_dataResp hp hs]
    have h3 : (respExchange s).2.seq.stage = 3 := congrArg Seq.stage hs
    refine .next ?_
    split
    · exact (blockAccepted_descends use _ h3).of_same rfl rfl
    · exact blockFailed_descends use s _ rfl h3
  | stop =>
    rw [step_stop hp hs]
    exact .next (transmitStop_descends s hs)
  | initEnd =>
    rw [step_initEnd hp hs]
    exact .next (.of_end (finishInit_host_seq s).1 (by rw [hs]; rfl) (finishInit_host_seq s).2)
  | ioEnd =>
    rw [step_ioEnd hp hs]
    exact .next (.of_end rfl (by rw [hs]; rfl) rfl)
  | countEnd ok =>
    rw [step_countEnd hp hs]
    exact .next (.of_end rfl (by rw [hs]; rfl) rfl)

/-! ## The statement -/

theorem run_succ_of_next {s t : State} (h : step s = .next t) (n : ℕ) :
    Host.Core.run Sys2Proof.core (n + 1) s = Host.Core.run Sys2Proof.core n t := by
  replace h : Sys2Proof.core.step s = .next t := h
  simp only [Host.Core.run, h]

theorem run_one_of_fault {s : State} {f : Fault} (h : step s = .fault f) :
    Host.Core.run Sys2Proof.core 1 s = .fault f := by
  replace h : Sys2Proof.core.step s = .fault f := h
  simp only [Host.Core.run, h]

theorem overlapPending_of_host {s t : State} (h : t.host = s.host) : overlapPending t = overlapPending s := by
  simp only [overlapPending, h]

/-- Settles O57, by induction on the rank: every step short of IDLE lowers it or is stuck at a short buffer. -/
theorem everyOperationReturns : Obligations.EveryOperationReturns := by
  unfold Obligations.EveryOperationReturns
  intro s
  induction s using (InvImage.wf rank wellFounded_lt).induction with
  | _ s ih =>
    intro hp
    by_cases hi : s.seq = .idle
    · exact ⟨0, .inl ⟨s, rfl, hi⟩⟩
    · rcases step_progress hi hp with hf | ⟨t, ht, hd⟩
      · exact ⟨1, .inr (run_one_of_fault hf)⟩
      · obtain ⟨n, hn⟩ := ih t hd.rank ((overlapPending_of_host hd.host).trans hp)
        refine ⟨n + 1, ?_⟩
        rw [run_succ_of_next ht]
        exact hn

end Sys2Proof.Machine
end

section

/-! PROOF of O52, O11, O53. Who writes the driver state: what a step of an operation in progress can answer, said once as
`RunNext`, beside `HostNext` for a step at IDLE. -/

namespace Sys2Proof.Machine

/-! ## The bits of `status` (R31, R192) -/

theorem setNotInitialized_high (v : Byte) : setNotInitialized v &&& 0xFE#8 = v &&& 0xFE#8 := by revert v; decide

theorem clearNotInitialized_high (v : Byte) : clearNotInitialized v &&& 0xFE#8 = v &&& 0xFE#8 := by revert v; decide

theorem socketStatus_bits (v : Byte) (nd wp : Bool) :
    (socketStatus v nd wp).getLsbD 1 = nd ∧ (socketStatus v nd wp).getLsbD 2 = wp ∧
    socketStatus v nd wp &&& 0xF9#8 = v &&& 0xF9#8 := by
  cases nd <;> cases wp <;> revert v <;> decide

/-- INIT's finalisation writes no bit of `status` but bit 0 (R192). -/
theorem finishInit_status_high (s : State) : (finishInit s).status &&& 0xFE#8 = s.status &&& 0xFE#8 := by
  simp only [finishInit]
  split
  · exact setNotInitialized_high s.status
  · exact clearNotInitialized_high s.status

/-! ## What the rules of one label leave untouched -/

/-- A state that differs from `s` in the label, the working registers, memory and the bus alone, at the same clock speed. -/
theorem Untouched.of_clk {s t : State} (hclk : t.bus.clk = s.bus.clk)
    (h : t = { s with seq := t.seq, work := t.work, mem := t.mem, bus := t.bus }) : Untouched s t := by
  refine ⟨⟨?_, ?_⟩, hclk, ?_, ?_, ?_, ?_⟩ <;> rw [h]

/-- Every command's start: CMD12, which is sent with no reselection, and the others (R142, R145). -/
theorem issueAt_untouched (site : Site) (e : Bool) (idx : BitVec 6) (arg : Word) (s : State) :
    Untouched s (issueAt site e idx arg s) := by
  by_cases hi : idx = 12#6
  · simp only [issueAt, reselect, if_pos hi, if_true]
    exact .of_clk (sendFrame_only idx arg s.bus).clk rfl
  · obtain ⟨_, _, -, -, hu, -⟩ := issueAt_spec site e idx arg s hi
    exact hu

theorem pollMissed_untouched (site : Site) (e : Bool) (r : Byte) (s : State) : Untouched s (pollMissed site e r s) := by
  simp only [pollMissed]
  split
  · exact (respond_spec site e r s).1
  · exact .of_clk rfl rfl

theorem loopQuery_untouched (kind : LoopKind) (s : State) : Untouched s (loopQuery kind s) := by
  have hk := expired_clk .op s.bus
  simp only [loopQuery]
  split <;> cases kind <;> exact .of_clk hk rfl

theorem receiveFailed_untouched (use : RecvUse) (s : State) : Untouched s (receiveFailed use s) := by
  cases use <;> exact .of_clk rfl rfl

theorem tokenMissed_untouched (use : RecvUse) (tok : Byte) (s : State) : Untouched s (tokenMissed use tok s) := by
  have hq : Untouched s { s with bus := (expired .op s.bus).2 } := .of_clk (expired_clk .op s.bus) rfl
  simp only [tokenMissed]
  split
  · exact receiveFailed_untouched use s
  · split
    · exact hq.trans (receiveFailed_untouched use _)
    · exact hq

theorem receiveBlock_single_untouched (s : State) : Untouched s (receiveBlock .single s) := by
  obtain ⟨p, b', -, -, -, hb, -, he⟩ := receiveBlock_single s
  rw [he]
  exact .of_clk hb.clk rfl

theorem receiveBlock_multi_untouched (s : State) : Untouched s (receiveBlock .multi s) := by
  obtain ⟨p, b', -, -, -, hb, -, he⟩ := receiveBlock_multi s
  rw [he]
  refine .of_clk ?_ rfl
  show (if s.work.cntVal = 1#32 then b' else timerStart .op 200 b').clk = s.bus.clk
  split
  · exact hb.clk
  · exact (timerStart_clk .op 200 b').trans hb.clk

theorem countReceived_untouched (s : State) : Untouched s (countReceived (receiveCsd s)) := by
  obtain ⟨csd, b', -, -, -, hb, -, -, he⟩ := countReceived_receiveCsd s
  rw [he]
  exact .of_clk hb.clk rfl

theorem receiveData_untouched {use : RecvUse} {s t : State} (h : receiveData use s = .next t) : Untouched s t := by
  cases use <;> simp only [receiveData] at h <;> split at h
  case single.isTrue => cases h; exact receiveBlock_single_untouched s
  case multi.isTrue => cases h; exact receiveBlock_multi_untouched s
  case csd.isTrue => cases h; exact countReceived_untouched s
  case csd.isFalse =>
    split at h <;> cases h
    exact countReceived_untouched s
  all_goals cases h

theorem blockFailed_untouched (use : XmitUse) (s : State) : Untouched s (blockFailed use s) := by
  cases use <;> exact .of_clk rfl rfl

theorem blockAccepted_untouched (use : XmitUse) (s : State) : Untouched s (blockAccepted use s) := by
  cases use
  · exact .of_clk rfl rfl
  · simp only [blockAccepted]
    split <;> exact .of_clk rfl rfl

theorem sendPacket_untouched (token : Byte) (use : XmitUse) (s : State) : Untouched s (sendPacket token use s) := by
  obtain ⟨_, _, b', -, -, -, hb, -, he⟩ := sendPacket_spec token use s
  rw [he]
  exact .of_clk hb.clk rfl

theorem transmitData_untouched {token : Byte} {use : XmitUse} {s t : State} (h : transmitData token use s = .next t) :
    Untouched s t := by
  have hw : Untouched s { s with bus := (waitReady s.bus).2 } := .of_clk (waitReady_lines s.bus).2.1 rfl
  have hsent := hw.trans (sendPacket_untouched token use _)
  have hfailed := hw.trans (blockFailed_untouched use _)
  simp only [transmitData] at h
  split at h
  · cases h
    split
    · exact hsent
    · exact hfailed
  · split at h <;> cases h
    exact hfailed

theorem transmitStop_untouched (s : State) : Untouched s (transmitStop s) := by
  have hw := (waitReady_lines s.bus).2.1
  simp only [transmitStop]
  split <;> exact .of_clk hw rfl

/-! ## A step of the operation in progress -/

/-- The next states a step of an operation can answer: the operation goes on, or one of its three ends returns (R192, R223,
R248). -/
inductive RunNext (s : State) : State → Prop
  /-- A command, a wait, a block or a token. -/
  | continued {t : State} (hu : Untouched s t) : RunNext s t
  /-- INIT's finalisation. -/
  | initEnded (hs : s.seq = .initEnd) : RunNext s (finishInit s)
  /-- The end of READ or WRITE. -/
  | ioEnded (hs : s.seq = .ioEnd) : RunNext s (finishIo s)
  /-- The end of GetSectorCount. -/
  | countEnded (ok : Bool) (hs : s.seq = .countEnd ok) : RunNext s (finishIoctl (okOrGeneric ok) s)

theorem stepRun_next {s t : State} (hi : s.seq ≠ .idle) (h : step s = .next t) : RunNext s t := by
  have hp := noOverlap_of_next h hi
  cases hs : s.seq with
  | idle => exact absurd hs hi
  | escape site =>
    rw [step_escape hp hs] at h
    cases h
    exact .continued (issueAt_untouched site true _ _ s)
  | frame site =>
    obtain ⟨idx, arg, hf, -⟩ := step_frame hp hs
    rw [hf] at h
    cases h
    exact .continued (issueAt_untouched site false idx arg s)
  | poll site e =>
    have hx : Untouched s (pollExchange s).2 := .of_clk rfl rfl
    rw [step_poll hp hs] at h
    cases h
    refine .continued (hx.trans ?_)
    split
    · exact pollMissed_untouched site e _ _
    · exact (respond_spec site e _ _).1
  | loopHead kind =>
    rw [step_loopHead hp hs] at h
    cases h
    exact .continued (loopQuery_untouched kind s)
  | token use =>
    have hx : Untouched s (tokenExchange s).2 := .of_clk rfl rfl
    rw [step_token hp hs] at h
    refine .continued (hx.trans ?_)
    split at h
    · exact receiveData_untouched h
    · cases h
      exact tokenMissed_untouched use _ _
  | xmit use =>
    rw [step_xmit hp hs] at h
    exact .continued (transmitData_untouched h)
  | dataResp use =>
    have hx : Untouched s (respExchange s).2 := .of_clk rfl rfl
    rw [step_dataResp hp hs] at h
    cases h
    refine .continued (hx.trans ?_)
    split
    · exact blockAccepted_untouched use _
    · exact blockFailed_untouched use _
  | stop =>
    rw [step_stop hp hs] at h
    cases h
    exact .continued (transmitStop_untouched s)
  | initEnd =>
    rw [step_initEnd hp hs] at h
    cases h
    exact .initEnded hs
  | ioEnd =>
    rw [step_ioEnd hp hs] at h
    cases h
    exact .ioEnded hs
  | countEnd ok =>
    rw [step_countEnd hp hs] at h
    cases h
    exact .countEnded ok hs

theorem RunNext.host {s t : State} (h : RunNext s t) : t.host = s.host := by
  cases h with
  | continued hu => exact hu.host
  | initEnded => exact (finishInit_host_seq s).1
  | ioEnded => rfl
  | countEnded => rfl

/-- No label but INIT's finalisation writes the driver state (R34, R266). -/
theorem RunNext.sameDriver {s t : State} (h : RunNext s t) (hs : s.seq ≠ .initEnd) : SameDriver s t := by
  cases h with
  | continued hu => exact hu.driver
  | initEnded he => exact absurd he hs
  | ioEnded => exact ⟨rfl, rfl⟩
  | countEnded => exact ⟨rfl, rfl⟩

/-- No label at all writes a bit of `status` above bit 0. -/
theorem RunNext.status_high {s t : State} (h : RunNext s t) : t.status &&& 0xFE#8 = s.status &&& 0xFE#8 := by
  by_cases hs : s.seq = .initEnd
  · cases h with
    | continued hu => rw [hu.driver.1]
    | initEnded => exact finishInit_status_high s
    | ioEnded => rfl
    | countEnded => rfl
  · rw [(h.sameDriver hs).1]

/-! ## A step at IDLE -/

/-- No host operation writes the driver state in its first step (R34, R181). -/
theorem HostNext.sameDriver {s t : State} (h : HostNext s t) : SameDriver s t := by
  cases h <;> exact ⟨rfl, rfl⟩

/-- What the host does at IDLE changes the driver state only by a SocketUpdate, in bits 1 and 2 of `status` (R31). -/
theorem stepIdle_driver {s t : State} (hi : s.seq = .idle) (h : step s = .next t) :
    SameDriver s t ∨
    ∃ nd wp later, s.host = .socketUpdate nd wp :: later ∧ t.cardType = s.cardType ∧
      t.status = socketStatus s.status nd wp := by
  rcases stepIdle_next hi h with ⟨-, rfl⟩ | ⟨_, _, -, hn, -⟩ | ⟨nd, wp, later, hh, rfl⟩ | ⟨_, _, _, -, rfl⟩
  · exact .inl ⟨rfl, rfl⟩
  · exact .inl hn.sameDriver
  · exact .inr ⟨nd, wp, later, hh, rfl, rfl⟩
  · exact .inl ⟨rfl, rfl⟩

theorem step_socketUpdate {s : State} {nd wp : Bool} {later : List HostEvent} (hi : s.seq = .idle)
    (hh : s.host = .socketUpdate nd wp :: later) : step s = .next (socketUpdate nd wp { s with host := later }) := by
  rw [step_idle hi]
  simp only [stepIdle, hh]

/-! ## The statements -/

/-- Settles O52: a step of an operation is one of `RunNext`, a step at IDLE one of `stepIdle_driver`. -/
theorem onlyInitWritesDriverState : Obligations.OnlyInitWritesDriverState := by
  unfold Obligations.OnlyInitWritesDriverState
  intro s t h
  by_cases hi : s.seq = .idle
  · refine ⟨fun hs => absurd (hi.symm.trans hs) (by decide), fun _ => ?_⟩
    rcases stepIdle_driver hi h with ⟨hst, hct⟩ | ⟨nd, wp, later, hh, hct, hst⟩
    · exact ⟨hct, fun _ => hst, fun _ => by rw [hst], fun _ _ => hst⟩
    · exact ⟨hct, fun hn => absurd hi hn, fun _ => by rw [hst, (socketStatus_bits _ nd wp).2.2],
        fun _ hq => absurd hh (hq nd wp later)⟩
  · have hr := stepRun_next hi h
    refine ⟨fun _ => hr.status_high, fun hs => ?_⟩
    obtain ⟨hst, hct⟩ := hr.sameDriver hs
    exact ⟨hct, fun _ => hst, fun hn => absurd hn hi, fun hn => absurd hn hi⟩

/-- Settles O11: the reset state is R45's table, field by field. -/
theorem resetValues : Obligations.ResetValues := by
  unfold Obligations.ResetValues
  exact ⟨rfl, rfl, rfl, rfl, rfl, rfl, rfl, rfl⟩

/-- Settles O53: the step at IDLE is `socketUpdate`, and a step of an operation keeps the queue and bits 7:1. -/
theorem socketUpdateWritesTwoBits : Obligations.SocketUpdateWritesTwoBits := by
  unfold Obligations.SocketUpdateWritesTwoBits
  intro s nd wp later hh
  constructor
  · intro hi
    obtain ⟨hnd, hwp, hrest⟩ := socketStatus_bits s.status nd wp
    exact ⟨_, step_socketUpdate hi hh, hnd, hwp, hrest, rfl⟩
  · intro hi t h
    have hr := stepRun_next hi h
    have hbits : ∀ v : Byte, v &&& 0x06#8 = v &&& 0xFE#8 &&& 0x06#8 := fun v => (BitVec.and_assoc v 0xFE#8 0x06#8).symm
    exact ⟨hr.host, by rw [hbits, hr.status_high, ← hbits]⟩

end Sys2Proof.Machine
end

section

/-! PROOF of O10, O7. What a call at IDLE runs as, and where a call that did not wait is refused (R70, R267): no step of an
operation, its first one included, touches the host's queue. -/

namespace Sys2Proof.Machine

theorem overlapPending_iff (s : State) : overlapPending s = true ↔ ∃ now later, s.host = .callNow now :: later := by
  unfold overlapPending
  split
  · rename_i now later hh
    exact ⟨fun _ => ⟨now, later, hh⟩, fun _ => rfl⟩
  · rename_i hn
    exact ⟨fun h => absurd h (by decide), fun ⟨now, later, hh⟩ => absurd hh (hn now later)⟩

/-- The first step of a host operation leaves what the host does next in its queue (R43). -/
theorem HostNext.host {s t : State} (h : HostNext s t) : t.host = s.host := by
  cases h <;> rfl

theorem host_of_decodedCall {bytes rest : List Byte} {i : Instr} {s t : State} (hd : decode .hostOp bytes = .ok (i, rest))
    (h : exec i s = .next t) (hi : s.seq = .idle) : t.host = s.host :=
  (hostOp_next hi (decodeHost_format hd) h).host

theorem atIdle_of_running {s : State} (h : s.seq ≠ .idle) (op : State → Host.Outcome State Fault Refusal) :
    atIdle s op = .refused .overlappingCall := by
  unfold atIdle
  split
  · exact absurd ‹s.seq = .idle› h
  · rfl

/-- Every host operation is `atIdle`, the ioctls through their common entry (R70). -/
theorem hostOp_of_running {i : Instr} {s : State} (h : s.seq ≠ .idle) (hf : i.format = .hostOp) :
    exec i s = .refused .overlappingCall := by
  cases i with
  | init d => simp only [exec, execInit, atIdle_of_running h]
  | status d => simp only [exec, execStatus, atIdle_of_running h]
  | read d b sec cnt => simp only [exec, execRead, atIdle_of_running h]
  | write d b sec cnt => simp only [exec, execWrite, atIdle_of_running h]
  | ioctlSync d b => simp only [exec, execIoctlSync, ioctl, atIdle_of_running h]
  | ioctlGetSectorCount d b => simp only [exec, execIoctlGetSectorCount, ioctl, atIdle_of_running h]
  | ioctlGetSectorSize d b => simp only [exec, execIoctlGetSectorSize, ioctl, atIdle_of_running h]
  | ioctlOther k d b => simp only [exec, execIoctlOther, ioctl, atIdle_of_running h]
  | _ => cases hf

theorem step_of_overlap {s : State} (h : s.seq ≠ .idle) (hp : overlapPending s = true) :
    step s = .refused .overlappingCall := by
  unfold step
  split
  · exact absurd ‹s.seq = .idle› h
  · rw [if_pos hp]

/-- A step that returns from an operation leaves no overlapping call at the head of the queue. -/
theorem overlapPending_of_return {s t : State} (h : step s = .next t) (ht : t.seq = .idle)
    (hop : s.seq ≠ .idle ∨ ∃ bytes later, s.host = .call bytes :: later ∨ s.host = .callNow bytes :: later) :
    overlapPending t = false := by
  by_cases hi : s.seq = .idle
  · obtain ⟨bytes, later, hcall⟩ := hop.resolve_left (not_not_intro hi)
    rcases stepIdle_next hi h with ⟨hh, -⟩ | ⟨_, _, -, -, hq⟩ | ⟨_, _, _, hh, -⟩ | ⟨_, _, _, hh, -⟩
    · simp [hh] at hcall
    · exact hq ht
    · simp [hh] at hcall
    · simp [hh] at hcall
  · rw [overlapPending_of_host (stepRun_next hi h).host]
    exact noOverlap_of_next h hi

/-- Settles O10: a host operation runs through `atIdle`, and a step refuses what is first in the queue it returns with. -/
theorem overlappingCallRefused : Obligations.OverlappingCallRefused := by
  unfold Obligations.OverlappingCallRefused
  intro s
  refine ⟨fun i hi hf => hostOp_of_running hi hf,
    fun bytes later hi hh => step_of_overlap hi ((overlapPending_iff s).2 ⟨bytes, later, hh⟩), ?_,
    fun t h ht hop => overlapPending_of_return h ht hop⟩
  intro bytes rest now later i t hi hh hd he ht
  have hhost := host_of_decodedCall hd he hi
  rw [step_call hi hh hd]
  exact refuseOverlap_of_overlap he ht ((overlapPending_iff t).2 ⟨now, later, hhost⟩)

/-- Settles O7: the step is `refuseOverlap` of the decoded call, which stands where no overlapping call is left at IDLE. -/
theorem idleStepRunsHostCall : Obligations.IdleStepRunsHostCall := by
  unfold Obligations.IdleStepRunsHostCall
  intro s bytes rest later i hi hh hd hquiet
  rw [step_call hi hh hd]
  refine refuseOverlap_of_quiet fun t he ht => ?_
  rcases hquiet with hnow | hgoes
  · have hhost := host_of_decodedCall hd he hi
    rw [← Bool.not_eq_true, overlapPending_iff]
    rintro ⟨now, later', hl⟩
    exact hnow now later' (hhost.symm.trans hl)
  · exact absurd ht (hgoes t he)

end Sys2Proof.Machine
end

section

/-! PROOF of O41, O56. The host buffer (R61, R62, R224): a block or a count that does not fit it stops, and one that fits is all
that an operation in progress writes to host memory. -/

namespace Sys2Proof.Machine

/-! ## The data tokens by label -/

theorem exec_tokenStartBlock_token {s : State} {use : RecvUse} (hs : s.seq = .token use) :
    exec .tokenStartBlock s = receiveData use s := by
  simp only [exec, execTokenStartBlock, hs]

theorem exec_tokenStartBlock_xmit {s : State} {use : XmitUse} (hs : s.seq = .xmit use) :
    exec .tokenStartBlock s = transmitData startBlockToken use s := by
  simp only [exec, execTokenStartBlock, hs]

theorem exec_tokenStartMultiWrite_xmit {s : State} {use : XmitUse} (hs : s.seq = .xmit use) :
    exec .tokenStartMultiWrite s = transmitData startMultiToken use s := by
  simp only [exec, execTokenStartMultiWrite, hs]

/-! ## Accesses outside the buffer (R61) -/

theorem inBuffer_eq_false {s : State} {b : Buf} {off n : Nat} (hb : s.buf = some b) (h : b.len.toNat < off + n) :
    inBuffer (bufOf s) off n = false := by
  rw [inBuffer_of hb, decide_eq_false (Nat.not_le.2 h)]

theorem receiveData_block_stuck {use : RecvUse} {s : State} (hu : use ≠ .csd)
    (h : inBuffer (bufOf s) s.work.ptrVal Config.blockSize = false) : receiveData use s = .fault .hostBufferOverrun := by
  cases use with
  | single => simp only [receiveData, h, Bool.false_eq_true, if_false]
  | multi => simp only [receiveData, h, Bool.false_eq_true, if_false]
  | csd => exact absurd rfl hu

theorem csdOf_receiveCsd (s : State) : csdOf (receiveCsd s) = (receiveBytes 16 s.bus).1 := rfl

theorem receiveData_csd_stuck {s : State} (h : inBuffer (bufOf s) 0 4 = false)
    (hc : (parseCsd (receiveBytes 16 s.bus).1).isSome = true) : receiveData .csd s = .fault .hostBufferOverrun := by
  rw [← csdOf_receiveCsd] at hc
  obtain ⟨v, hv⟩ := Option.isSome_iff_exists.1 hc
  simp only [receiveData, h, hv, Option.isNone_some, Bool.false_eq_true, if_false]

theorem transmitData_stuck {token : Byte} {use : XmitUse} {s : State}
    (h : inBuffer (bufOf s) s.work.ptrVal Config.blockSize = false) (hw : (waitReady s.bus).1 = true) :
    transmitData token use s = .fault .hostBufferOverrun := by
  simp only [transmitData, h, hw, Bool.false_eq_true, if_false, if_true]

/-- Settles O41: the check of the buffer stands before the block, the packet and the count. -/
theorem bufferOverrunStops : Obligations.BufferOverrunStops := by
  unfold Obligations.BufferOverrunStops
  intro s b hb
  constructor
  · intro p hp hlen
    have hout : inBuffer (bufOf s) s.work.ptrVal Config.blockSize = false := by
      rw [ptrVal_of hp]
      exact inBuffer_eq_false hb hlen
    refine ⟨fun use hu hs => ?_, fun hw => ⟨fun hs => ?_, fun hs => ?_⟩⟩
    · rw [exec_tokenStartBlock_token hs, receiveData_block_stuck hu hout]
    · rw [exec_tokenStartBlock_xmit hs, transmitData_stuck hout hw]
    · rw [exec_tokenStartMultiWrite_xmit hs, transmitData_stuck hout hw]
  · intro hs hlen hc
    have hout : inBuffer (bufOf s) 0 4 = false := inBuffer_eq_false hb (by rwa [Nat.zero_add])
    rw [exec_tokenStartBlock_token hs, receiveData_csd_stuck hout hc]

/-! ## What leaves memory as it is -/

theorem issueAt_mem (site : Site) (e : Bool) (idx : BitVec 6) (arg : Word) (s : State) :
    (issueAt site e idx arg s).mem = s.mem := by
  simp only [issueAt]
  split
  · rfl
  · exact (respond_spec site e noResponse _).2.1

theorem pollMissed_mem (site : Site) (e : Bool) (r : Byte) (s : State) : (pollMissed site e r s).mem = s.mem := by
  simp only [pollMissed]
  split
  · exact (respond_spec site e r s).2.1
  · rfl

theorem loopQuery_mem (kind : LoopKind) (s : State) : (loopQuery kind s).mem = s.mem := by
  simp only [loopQuery]
  split <;> cases kind <;> rfl

theorem receiveFailed_mem (use : RecvUse) (s : State) : (receiveFailed use s).mem = s.mem := by cases use <;> rfl

theorem tokenMissed_mem (use : RecvUse) (tok : Byte) (s : State) : (tokenMissed use tok s).mem = s.mem := by
  simp only [tokenMissed]
  split
  · exact receiveFailed_mem use s
  · split
    · exact receiveFailed_mem use _
    · rfl

theorem blockFailed_mem (use : XmitUse) (s : State) : (blockFailed use s).mem = s.mem := by cases use <;> rfl

theorem blockAccepted_mem (use : XmitUse) (s : State) : (blockAccepted use s).mem = s.mem := by
  cases use with
  | single => rfl
  | multi =>
    simp only [blockAccepted]
    split <;> rfl

theorem transmitData_mem {token : Byte} {use : XmitUse} {s t : State} (h : transmitData token use s = .next t) :
    t.mem = s.mem := by
  simp only [transmitData] at h
  split at h
  · cases h
    split
    · exact sendPacket_mem token use _
    · exact blockFailed_mem use _
  · split at h <;> cases h
    exact blockFailed_mem use _

theorem transmitStop_mem (s : State) : (transmitStop s).mem = s.mem := by
  simp only [transmitStop]
  split <;> rfl

theorem finishInit_mem (s : State) : (finishInit s).mem = s.mem := by
  simp only [finishInit]
  split <;> rfl

/-! ## What writes memory -/

/-- A reception that goes on has written nothing, or bytes that lie in the buffer (R62, R243). -/
theorem receiveData_mem {use : RecvUse} {s t : State} (h : receiveData use s = .next t) :
    t.mem = s.mem ∨ ∃ off bs, inBuffer (bufOf s) off bs.length = true ∧
      t.mem = s.mem.writeBytes (bufAddr (bufOf s) off) bs := by
  cases use <;> simp only [receiveData] at h <;> split at h
  case single.isTrue hin =>
    cases h
    obtain ⟨p, _, -, -, hl, -, -, he⟩ := receiveBlock_single s
    exact .inr ⟨s.work.ptrVal, p, by rw [hl]; exact hin, by rw [he]⟩
  case multi.isTrue hin =>
    cases h
    obtain ⟨p, _, -, -, hl, -, -, he⟩ := receiveBlock_multi s
    exact .inr ⟨s.work.ptrVal, p, by rw [hl]; exact hin, by rw [he]⟩
  case csd.isTrue hin =>
    cases h
    obtain ⟨csd, _, -, -, -, -, -, -, he⟩ := countReceived_receiveCsd s
    rw [he]
    cases parseCsd csd with
    | none => exact .inl rfl
    | some v => exact .inr ⟨0, leBytes4 v, hin, rfl⟩
  case csd.isFalse =>
    split at h <;> cases h
    rename_i hnone
    obtain ⟨csd, _, -, -, -, -, -, hcsd, he⟩ := countReceived_receiveCsd s
    rw [hcsd, Option.isNone_iff_eq_none] at hnone
    exact .inl (by rw [he, hnone])
  all_goals cases h

/-- Bytes that lie in the buffer change no address outside it (R61). -/
theorem read_writeBytes_bufAddr {b : Buf} {off a : Nat} {bs : List Byte} (m : Memory)
    (hin : inBuffer b off bs.length = true) (ha : a < b.base.toNat ∨ b.base.toNat + b.len.toNat ≤ a) :
    (m.writeBytes (bufAddr b off) bs).read a = m.read a := by
  replace hin : off + bs.length ≤ b.len.toNat := of_decide_eq_true hin
  refine Memory.read_writeBytes_outside bs m _ a ?_
  rw [bufAddr]
  omega

/-- A step of an operation writes memory only where it receives a data block after its token (R62, R224). -/
theorem step_mem {s t : State} (hi : s.seq ≠ .idle) (h : step s = .next t) :
    t.mem = s.mem ∨ ∃ use, s.seq = .token use ∧ (xchg fill s.bus).1 = 0xFE#8 ∧
      receiveData use (tokenExchange s).2 = .next t := by
  have hp := noOverlap_of_next h hi
  cases hs : s.seq with
  | idle => exact absurd hs hi
  | escape site =>
    rw [step_escape hp hs] at h
    cases h
    exact .inl (issueAt_mem site true _ _ s)
  | frame site =>
    obtain ⟨idx, arg, hf, -⟩ := step_frame hp hs
    rw [hf] at h
    cases h
    exact .inl (issueAt_mem site false idx arg s)
  | poll site e =>
    rw [step_poll hp hs] at h
    cases h
    left
    split
    · exact pollMissed_mem site e _ _
    · exact (respond_spec site e _ _).2.1
  | loopHead kind =>
    rw [step_loopHead hp hs] at h
    cases h
    exact .inl (loopQuery_mem kind s)
  | token use =>
    rw [step_token hp hs] at h
    split at h
    · rename_i htok
      exact .inr ⟨use, rfl, htok, h⟩
    · cases h
      exact .inl (tokenMissed_mem use _ _)
  | xmit use =>
    rw [step_xmit hp hs] at h
    exact .inl (transmitData_mem h)
  | dataResp use =>
    rw [step_dataResp hp hs] at h
    cases h
    left
    split
    · exact blockAccepted_mem use _
    · exact blockFailed_mem use _
  | stop =>
    rw [step_stop hp hs] at h
    cases h
    exact .inl (transmitStop_mem s)
  | initEnd =>
    rw [step_initEnd hp hs] at h
    cases h
    exact .inl (finishInit_mem s)
  | ioEnd =>
    rw [step_ioEnd hp hs] at h
    cases h
    exact .inl (finishIo_mem s)
  | countEnd ok =>
    rw [step_countEnd hp hs] at h
    cases h
    exact .inl (finishIoctl_mem _ s)

/-- Settles O56: only a reception writes memory (`step_mem`), and it writes inside the buffer (`receiveData_mem`). -/
theorem memoryWrittenOnlyInBuffer : Obligations.MemoryWrittenOnlyInBuffer := by
  unfold Obligations.MemoryWrittenOnlyInBuffer
  intro s t h hi
  rcases step_mem hi h with hm | ⟨use, hs, htok, hrecv⟩
  · exact ⟨fun _ => hm, fun _ _ _ _ => by rw [hm]⟩
  · refine ⟨fun hno => ?_, fun b a hb ha => ?_⟩
    · exact hno.elim (fun hn => absurd hs (hn use)) (fun hn => absurd htok hn)
    · rcases receiveData_mem hrecv with hm | ⟨off, bs, hin, hm⟩
      · rw [hm]; rfl
      · have hbuf : bufOf (tokenExchange s).2 = b := congrArg (Option.getD · _) hb
        rw [hbuf] at hin hm
        rw [hm, read_writeBytes_bufAddr _ hin ha]
        rfl

end Sys2Proof.Machine
end

section

/-! PROOF of O1, O2, O3. Each part of the decoder and the encoder's bytes of it are inverse to each other: the arguments of a call
(R95), a host operation word (R104), a command frame (R81, R108), a byte on the wire (R85, R92, R93). -/

namespace Sys2Proof

/-! ## Call arguments: what the encoder lays out, the decoder takes -/

theorem decodeDriveBuf_bufBytes (mk : Byte → Buf → Instr) (d : Byte) (b : Buf) (rest : List Byte) :
    decodeDriveBuf mk (d :: (bufBytes b ++ rest)) = .ok (mk d b, rest) := by
  simp only [decodeDriveBuf, takeBuf_bufBytes]

theorem decodeTransfer_bytes (mk : Byte → Buf → Word → Word → Instr) (d : Byte) (b : Buf) (sec cnt : Word)
    (rest : List Byte) :
    decodeTransfer mk (d :: (bufBytes b ++ (leBytes4 sec ++ leBytes4 cnt) ++ rest)) = .ok (mk d b sec cnt, rest) := by
  simp only [List.append_assoc, decodeTransfer, takeBuf_bufBytes, takeWord_leBytes4]

theorem decodeIoctl_other {k : Byte} (hk : 3 ≤ k.toNat) (bs : List Byte) :
    decodeIoctl k bs = decodeDriveBuf (.ioctlOther k) bs := by
  have h0 : k ≠ 0#8 := by rintro rfl; exact absurd hk (by decide)
  have h1 : k ≠ 1#8 := by rintro rfl; exact absurd hk (by decide)
  have h2 : k ≠ 2#8 := by rintro rfl; exact absurd hk (by decide)
  simp only [decodeIoctl, if_neg h0, if_neg h1, if_neg h2]

/-! ## Call arguments: what the decoder takes, the encoder lays out -/

theorem decodeDrive_ok {mk : Byte → Instr} {bs rest : List Byte} {i : Instr} (h : decodeDrive mk bs = .ok (i, rest)) :
    ∃ d, i = mk d ∧ bs = d :: rest := by
  cases bs with
  | nil => cases h
  | cons d bs => cases h; exact ⟨d, rfl, rfl⟩

theorem decodeDriveBuf_ok {mk : Byte → Buf → Instr} {bs rest : List Byte} {i : Instr}
    (h : decodeDriveBuf mk bs = .ok (i, rest)) : ∃ d b, i = mk d b ∧ bs = d :: (bufBytes b ++ rest) := by
  cases bs with
  | nil => cases h
  | cons d bs =>
    simp only [decodeDriveBuf] at h
    split at h <;> cases h
    rename_i b hb
    exact ⟨d, b, rfl, by rw [takeBuf_some hb]⟩

theorem decodeTransfer_ok {mk : Byte → Buf → Word → Word → Instr} {bs rest : List Byte} {i : Instr}
    (h : decodeTransfer mk bs = .ok (i, rest)) :
    ∃ d b sec cnt, i = mk d b sec cnt ∧ bs = d :: (bufBytes b ++ (leBytes4 sec ++ leBytes4 cnt) ++ rest) := by
  cases bs with
  | nil => cases h
  | cons d bs =>
    simp only [decodeTransfer] at h
    split at h
    · cases h
    rename_i b bs1 hb
    split at h
    · cases h
    rename_i sec bs2 hsec
    split at h <;> cases h
    rename_i cnt hcnt
    refine ⟨d, b, sec, cnt, rfl, ?_⟩
    rw [takeBuf_some hb, takeWord_some hsec, takeWord_some hcnt]
    simp only [List.append_assoc]

/-- The four rows of an ioctl: each is the encoding of the command field it was chosen by. -/
theorem decodeIoctl_ok {k : Byte} {bs rest : List Byte} {i : Instr} (h : decodeIoctl k bs = .ok (i, rest)) :
    i.wellFormed = true ∧ hostWord 4 k ++ bs = encode i ++ rest := by
  have hk : ∀ k : Byte, k = 0#8 ∨ k = 1#8 ∨ k = 2#8 ∨ 3 ≤ k.toNat := by decide
  rcases hk k with rfl | rfl | rfl | hk
  · obtain ⟨d, b, rfl, rfl⟩ := decodeDriveBuf_ok (mk := .ioctlSync) h; exact ⟨rfl, rfl⟩
  · obtain ⟨d, b, rfl, rfl⟩ := decodeDriveBuf_ok (mk := .ioctlGetSectorCount) h; exact ⟨rfl, rfl⟩
  · obtain ⟨d, b, rfl, rfl⟩ := decodeDriveBuf_ok (mk := .ioctlGetSectorSize) h; exact ⟨rfl, rfl⟩
  · rw [decodeIoctl_other hk] at h
    obtain ⟨d, b, rfl, rfl⟩ := decodeDriveBuf_ok h
    exact ⟨decide_eq_true hk, rfl⟩

/-! ## Host operation words (R95, R104) -/

/-- R104: an operation nibble above 4, a reserved bit set, or an ioctl command where there is no ioctl. -/
def ReservedWord (lo hi : Byte) : Prop :=
  5 ≤ (lo.extractLsb' 0 4).toNat ∨ lo.extractLsb' 4 4 ≠ 0#4 ∨ (hi ≠ 0#8 ∧ (lo.extractLsb' 0 4).toNat ≠ 4)

/-- The words that spell an operation, low byte first. -/
inductive OperationWord : Byte → Byte → Prop
  | init : OperationWord 0#8 0#8
  | status : OperationWord 1#8 0#8
  | read : OperationWord 2#8 0#8
  | write : OperationWord 3#8 0#8
  | ioctl (k : Byte) : OperationWord 4#8 k

theorem operation_or_reserved (lo hi : Byte) : OperationWord lo hi ∨ ReservedWord lo hi := by
  have hlo : ∀ lo : Byte, (5 ≤ (lo.extractLsb' 0 4).toNat ∨ lo.extractLsb' 4 4 ≠ 0#4) ∨ lo = 4#8 ∨
      (lo.extractLsb' 0 4).toNat ≠ 4 ∧ (lo = 0#8 ∨ lo = 1#8 ∨ lo = 2#8 ∨ lo = 3#8) := by decide
  rcases hlo lo with (h | h) | rfl | ⟨h4, hop⟩
  · exact .inr (.inl h)
  · exact .inr (.inr (.inl h))
  · exact .inl (.ioctl hi)
  · by_cases hhi : hi = 0#8
    · subst hhi
      rcases hop with rfl | rfl | rfl | rfl
      · exact .inl .init
      · exact .inl .status
      · exact .inl .read
      · exact .inl .write
    · exact .inr (.inr (.inr ⟨hhi, h4⟩))

theorem decodeHost_reserved {lo hi : Byte} (h : ReservedWord lo hi) (args : List Byte) :
    decode .hostOp (lo :: hi :: args) = .error .reservedWord := by
  simp only [decode, decodeHost]
  by_cases hr : lo.extractLsb' 4 4 = 0#4
  · rw [if_neg (not_not_intro hr)]
    have hop : 5 ≤ (lo.extractLsb' 0 4).toNat ∨ hi ≠ 0#8 ∧ (lo.extractLsb' 0 4).toNat ≠ 4 :=
      h.imp_right (Or.resolve_left · (not_not_intro hr))
    split
    case h_5 => omega
    case h_6 => rfl
    -- the operations 0 to 3, which have no command field
    all_goals exact if_neg (hop.resolve_left (by omega)).1
  · rw [if_pos hr]

/-- Past an operation's word the only ground for a rejection is a record cut short (log 2). -/
theorem decodeHost_operation {lo hi : Byte} (h : OperationWord lo hi) (args : List Byte) :
    decode .hostOp (lo :: hi :: args) ≠ .error .reservedWord := by
  have hdrive : ∀ mk, decodeDrive mk args ≠ .error .reservedWord := by
    intro mk; unfold decodeDrive; split <;> simp
  have hbuf : ∀ mk, decodeDriveBuf mk args ≠ .error .reservedWord := by
    intro mk; unfold decodeDriveBuf; (repeat' split) <;> simp
  have htransfer : ∀ mk, decodeTransfer mk args ≠ .error .reservedWord := by
    intro mk; unfold decodeTransfer; (repeat' split) <;> simp
  cases h with
  | init => exact hdrive _
  | status => exact hdrive _
  | read => exact htransfer _
  | write => exact htransfer _
  | ioctl =>
    show decodeIoctl hi args ≠ _
    unfold decodeIoctl
    (repeat' split) <;> exact hbuf _

theorem decodeHost_error_iff (lo hi : Byte) (args : List Byte) :
    decode .hostOp (lo :: hi :: args) = .error .reservedWord ↔ ReservedWord lo hi :=
  ⟨fun h => (operation_or_reserved lo hi).resolve_left fun hop => decodeHost_operation hop args h,
    fun h => decodeHost_reserved h args⟩

theorem decodeHost_ok {bs rest : List Byte} {i : Instr} (h : decode .hostOp bs = .ok (i, rest)) :
    i.wellFormed = true ∧ bs = encode i ++ rest := by
  match bs with
  | [] | [_] => cases h
  | lo :: hi :: args =>
    rcases operation_or_reserved lo hi with hop | hres
    · cases hop with
      | init => obtain ⟨d, rfl, rfl⟩ := decodeDrive_ok (mk := .init) h; exact ⟨rfl, rfl⟩
      | status => obtain ⟨d, rfl, rfl⟩ := decodeDrive_ok (mk := .status) h; exact ⟨rfl, rfl⟩
      | read => obtain ⟨d, b, sec, cnt, rfl, rfl⟩ := decodeTransfer_ok (mk := .read) h; exact ⟨rfl, rfl⟩
      | write => obtain ⟨d, b, sec, cnt, rfl, rfl⟩ := decodeTransfer_ok (mk := .write) h; exact ⟨rfl, rfl⟩
      | ioctl k => exact decodeIoctl_ok h
    · rw [decodeHost_reserved hres] at h; cases h

/-! ## Command frames (R81, R108) -/

theorem fixedArg_ok {arg want : Word} {i j : Instr} (h : fixedArg arg want i = .ok j) : arg = want ∧ j = i := by
  simp only [fixedArg] at h
  split at h <;> cases h
  exact ⟨‹_›, rfl⟩

/-- The catalogue read backwards: an index and an argument that spell an instruction are those of its frame. -/
theorem decodeIndex_ok {idx : BitVec 6} {arg : Word} {i : Instr} (h : decodeIndex idx arg = .ok i) :
    i.wellFormed = true ∧ frameBytes idx arg = encode i := by
  have hidx : ∀ k : Nat, idx.toNat = k → idx = BitVec.ofNat 6 k := by rintro k rfl; simp
  simp only [decodeIndex] at h
  split at h
  case h_15 => cases h
  -- CMD17, CMD18, ACMD23, CMD24, CMD25: any argument
  case h_7 | h_8 | h_9 | h_10 | h_11 => cases h; cases hidx _ ‹_›; exact ⟨rfl, rfl⟩
  -- ACMD41: HCS set or not
  case h_12 =>
    cases hidx _ ‹_›
    split at h
    · cases h; subst arg; exact ⟨rfl, rfl⟩
    · obtain ⟨rfl, rfl⟩ := fixedArg_ok h; exact ⟨rfl, rfl⟩
  -- the frames of one argument
  all_goals cases hidx _ ‹_›; obtain ⟨rfl, rfl⟩ := fixedArg_ok h; exact ⟨rfl, rfl⟩

theorem decodeFrame_ok {bs rest : List Byte} {i : Instr} (h : decode .cmdFrame bs = .ok (i, rest)) :
    i.wellFormed = true ∧ bs = encode i ++ rest := by
  have hb0 : ∀ b0 : Byte, b0.extractLsb' 6 2 = 0b01#2 → 0x40#8 ||| (b0.extractLsb' 0 6).setWidth 8 = b0 := by decide
  simp only [decode, decodeFrame] at h
  split at h
  · rename_i b0 a3 a2 a1 a0 crc tail
    split at h
    · rename_i hframe
      obtain ⟨hstart, rfl⟩ := hframe
      split at h <;> cases h
      rename_i hi
      obtain ⟨hwf, henc⟩ := decodeIndex_ok hi
      exact ⟨hwf, by rw [← henc, frameBytes, hb0 b0 hstart, beBytes4_beWord]; rfl⟩
    · cases h
  · cases h

/-! ## Bytes on the wire (R85, R92, R93) -/

theorem decodeR1_ok {bs rest : List Byte} {i : Instr} (h : decode .r1 bs = .ok (i, rest)) :
    i.wellFormed = true ∧ bs = encode i ++ rest := by
  have hr : ∀ r : Byte, r.extractLsb' 7 1 = 0#1 → r = 0#1 ++ r.extractLsb' 0 7 := by decide
  cases bs with
  | nil => cases h
  | cons r bs =>
    simp only [decode, decodeR1] at h
    split at h <;> cases h
    exact ⟨rfl, congrArg (· :: rest) (hr r ‹_›)⟩

theorem decodeDataResp_ok {bs rest : List Byte} {i : Instr} (h : decode .dataResp bs = .ok (i, rest)) :
    i.wellFormed = true ∧ bs = encode i ++ rest := by
  have hr : ∀ r : Byte, r.extractLsb' 0 5 = 0b00101#5 → r = r.extractLsb' 5 3 ++ 0b00101#5 := by decide
  cases bs with
  | nil => cases h
  | cons r bs =>
    simp only [decode, decodeDataResp] at h
    split at h <;> cases h
    exact ⟨rfl, congrArg (· :: rest) (hr r ‹_›)⟩

theorem decodeDataIn_ok {bs rest : List Byte} {i : Instr} (h : decode .dataIn bs = .ok (i, rest)) :
    i.wellFormed = true ∧ bs = encode i ++ rest := by
  cases bs with
  | nil => cases h
  | cons t bs =>
    simp only [decode, decodeDataIn] at h
    split at h <;> cases h
    subst t; exact ⟨rfl, rfl⟩

theorem decodeDataOut_ok {bs rest : List Byte} {i : Instr} (h : decode .dataOut bs = .ok (i, rest)) :
    i.wellFormed = true ∧ bs = encode i ++ rest := by
  cases bs with
  | nil => cases h
  | cons t bs =>
    simp only [decode, decodeDataOut] at h
    split at h
    · cases h; subst t; exact ⟨rfl, rfl⟩
    · split at h <;> cases h
      subst t; exact ⟨rfl, rfl⟩

theorem decodeStop_ok {bs rest : List Byte} {i : Instr} (h : decode .stopToken bs = .ok (i, rest)) :
    i.wellFormed = true ∧ bs = encode i ++ rest := by
  cases bs with
  | nil => cases h
  | cons t bs =>
    simp only [decode, decodeStop] at h
    split at h <;> cases h
    subst t; exact ⟨rfl, rfl⟩

theorem decode_dataRespAccepted (ign : BitVec 3) (rest : List Byte) :
    decode .dataResp (encode (.dataRespAccepted ign) ++ rest) = .ok (.dataRespAccepted ign, rest) := by
  have h : (ign ++ 0b00101#5).extractLsb' 0 5 = 0b00101#5 ∧ (ign ++ 0b00101#5).extractLsb' 5 3 = ign := by
    revert ign; decide
  exact (Machine.decodeDataResp_accepted _ rest h.1).trans (by rw [h.2])

theorem decode_r1Valid (flags : BitVec 7) (rest : List Byte) :
    decode .r1 (encode (.r1Valid flags) ++ rest) = .ok (.r1Valid flags, rest) := by
  have h : (0#1 ++ flags).extractLsb' 7 1 = 0#1 ∧ (0#1 ++ flags).extractLsb' 0 7 = flags := by revert flags; decide
  exact (Machine.decodeR1_valid _ rest h.1).trans (by rw [h.2])

/-! ## The statements -/

/-- Settles O1: row by row, the word or index selects the row's own decoder, and that takes the arguments back. -/
theorem decodeEncodeRoundTrip : Obligations.DecodeEncodeRoundTrip := by
  unfold Obligations.DecodeEncodeRoundTrip
  intro i rest hwf
  cases i with
  | init d => rfl
  | status d => rfl
  | read d b sec cnt => exact decodeTransfer_bytes .read d b sec cnt rest
  | write d b sec cnt => exact decodeTransfer_bytes .write d b sec cnt rest
  | ioctlSync d b => exact decodeDriveBuf_bufBytes .ioctlSync d b rest
  | ioctlGetSectorCount d b => exact decodeDriveBuf_bufBytes .ioctlGetSectorCount d b rest
  | ioctlGetSectorSize d b => exact decodeDriveBuf_bufBytes .ioctlGetSectorSize d b rest
  | ioctlOther k d b =>
    exact (decodeIoctl_other (of_decide_eq_true hwf) _).trans (decodeDriveBuf_bufBytes (.ioctlOther k) d b rest)
  | cmd0 | cmd1 | cmd8 | cmd9 | cmd12 | cmd16 | cmd17 | cmd18 | cmd24 | cmd25 | cmd55 | cmd58 | acmd23 =>
    exact Machine.decodeFrame_frameBytes _ _ _ rest rfl
  | acmd41 hcs => cases hcs <;> exact Machine.decodeFrame_frameBytes _ _ _ rest rfl
  | tokenStartBlock | tokenStartMultiWrite | tokenStopTran => rfl
  | dataRespAccepted ign => exact decode_dataRespAccepted ign rest
  | r1Valid flags => exact decode_r1Valid flags rest

/-- Settles O2: format by format, what its decoder takes is what the encoder lays out. -/
theorem encodeDecodeRoundTrip : Obligations.EncodeDecodeRoundTrip := by
  unfold Obligations.EncodeDecodeRoundTrip
  intro f bs i rest h
  cases f with
  | hostOp => exact decodeHost_ok h
  | cmdFrame => exact decodeFrame_ok h
  | r1 => exact decodeR1_ok h
  | dataIn => exact decodeDataIn_ok h
  | dataOut => exact decodeDataOut_ok h
  | stopToken => exact decodeStop_ok h
  | dataResp => exact decodeDataResp_ok h

/-- Settles O3: every word that is not reserved spells an operation, and its record is rejected only when cut short. -/
theorem reservedHostWordsRefused : Obligations.ReservedHostWordsRefused := by
  unfold Obligations.ReservedHostWordsRefused
  intro lo hi args s later
  refine ⟨decodeHost_error_iff lo hi args, fun hidle hhost hres => ?_⟩
  rw [Machine.step_idle hidle]
  simp only [Machine.stepIdle, hhost, Machine.stepCall, decodeHost_reserved hres args, Machine.callRefusal]

end Sys2Proof
end

section

/-! PROOF of O6, O5. The frames of the catalogue (R81, R83, R108) byte by byte, and the index and argument of each site's. -/

namespace Sys2Proof.Machine

/-! ## The frame of a site (R102, R105) -/

/-- The index of a site's frame (R108). -/
def siteIndex (site : Site) (sel : CmdSel) : BitVec 6 :=
  match site with
  | .initCmd0 => 0
  | .initCmd8 => 8
  | .initAcmd41 | .initProbe => 41
  | .initCmd58 => 58
  | .initLoop =>
    match sel with
    | .acmd41 => 41
    | .cmd1 => 1
  | .initCmd16 => 16
  | .readCmd17 => 17
  | .readCmd18 => 18
  | .readCmd12 => 12
  | .writeCmd24 => 24
  | .writeAcmd23 => 23
  | .writeCmd25 => 25
  | .countCmd9 => 9

/-- The working registers choose only the argument, and in the legacy loop the command. -/
theorem encode_siteInstr (site : Site) (w : Work) :
    ∃ arg, encode (siteInstr site w) = frameBytes (siteIndex site w.cmdSelVal) arg := by
  cases site
  case initLoop =>
    simp only [siteInstr, siteIndex]
    cases w.cmdSelVal <;> exact ⟨_, rfl⟩
  all_goals exact ⟨_, rfl⟩

theorem siteIndex_catalogued (site : Site) (sel : CmdSel) :
    (siteIndex site sel).toNat ∈ [0, 1, 8, 9, 12, 16, 17, 18, 24, 25, 58, 23, 41] := by
  cases site <;> cases sel <;> decide

/-- 23 and 41 are the application commands (R105). -/
theorem siteIsApp_iff (site : Site) (sel : CmdSel) :
    siteIsApp site sel = true ↔ (siteIndex site sel).toNat ∈ [23, 41] := by
  cases site <;> cases sel <;> decide

/-- Settles O6: a site's index is `siteIndex`, whatever else the working registers hold. -/
theorem onlyCataloguedFrames : Obligations.OnlyCataloguedFrames := by
  unfold Obligations.OnlyCataloguedFrames
  intro site w
  obtain ⟨arg, harg⟩ := encode_siteInstr site w
  have happ := siteIsApp_iff site w.cmdSelVal
  exact ⟨siteIndex site w.cmdSelVal, arg, harg, siteIndex_catalogued site _, happ, by simp only [callSite, happ]⟩

/-! ## The six bytes of a frame (R81, R84, R148) -/

/-- A frame whose argument is given by its bytes sends them in that order (R64, R81). -/
theorem frameBytes_append (idx : BitVec 6) (a3 a2 a1 a0 : Byte) :
    frameBytes idx (a3 ++ a2 ++ a1 ++ a0) = [0x40#8 ||| idx.setWidth 8, a3, a2, a1, a0, crcByte idx] := by
  have hbytes : beBytes4 (a3 ++ a2 ++ a1 ++ a0) = [a3, a2, a1, a0] := beBytes4_beWord a3 a2 a1 a0
  rw [frameBytes, hbytes]
  rfl

theorem crc7Byte_cmd0 : crc7Byte [0x40, 0, 0, 0, 0] = 0x95#8 := by simp [crc7Byte, crc7, bitsMsbFirst, crc7Bit]

theorem crc7Byte_cmd8 : crc7Byte [0x48, 0, 0, 0x01, 0xAA] = 0x87#8 := by simp [crc7Byte, crc7, bitsMsbFirst, crc7Bit]

/-- Settles O5: the fixed frames by evaluation, the others by `frameBytes_append`. -/
theorem commandFrameBytes : Obligations.CommandFrameBytes := by
  unfold Obligations.CommandFrameBytes
  refine ⟨rfl, rfl, rfl, rfl, rfl, rfl, rfl, rfl, rfl, rfl, crc7Byte_cmd0, crc7Byte_cmd8, fun a3 a2 a1 a0 => ?_⟩
  exact ⟨frameBytes_append 17 a3 a2 a1 a0, frameBytes_append 18 a3 a2 a1 a0, frameBytes_append 24 a3 a2 a1 a0,
    frameBytes_append 25 a3 a2 a1 a0, frameBytes_append 23 a3 a2 a1 a0⟩

end Sys2Proof.Machine
end

section

/-! PROOF of O8, O9, O45. Which instruction a step of an operation runs (R38, R103, R105): the word of a label that sends, or the
byte just received, over the state after its exchange; and what the data response does (R93, R219). -/

namespace Sys2Proof.Machine

/-! ## Words sent -/

theorem step_escape_exec {s : State} {site : Site} (hp : overlapPending s = false) (hs : s.seq = .escape site) :
    step s = exec .cmd55 s := by
  rw [step_escape hp hs]
  simp only [exec, execCmd55, issueEscape, hs]

theorem step_frame_exec {s : State} {site : Site} (hp : overlapPending s = false) (hs : s.seq = .frame site) :
    step s = exec (siteInstr site s.work) s := by
  obtain ⟨_, _, -, -, hd, -⟩ := siteInstr_issue site s hs
  rw [step_of_running (by simp [hs]) hp]
  simp only [stepRun, hs, stepSend, hd]

theorem step_xmit_single_exec {s : State} (hp : overlapPending s = false) (hs : s.seq = .xmit .single) :
    step s = exec .tokenStartBlock s :=
  (step_xmit hp hs).trans (exec_tokenStartBlock_xmit hs).symm

theorem step_xmit_multi_exec {s : State} (hp : overlapPending s = false) (hs : s.seq = .xmit .multi) :
    step s = exec .tokenStartMultiWrite s :=
  (step_xmit hp hs).trans (exec_tokenStartMultiWrite_xmit hs).symm

theorem step_stop_exec {s : State} (hp : overlapPending s = false) (hs : s.seq = .stop) :
    step s = exec .tokenStopTran s := by
  rw [step_stop hp hs]
  simp only [exec, execTokenStopTran, hs]

/-- Settles O8: the step runs the site's command, and the register the site reads fixes its argument. -/
theorem sendStepRunsLabelWord : Obligations.SendStepRunsLabelWord := by
  unfold Obligations.SendStepRunsLabelWord
  intro s hp
  have hframe : ∀ site i, siteInstr site s.work = i → s.seq = .frame site → step s = exec i s :=
    fun site i hi hs => hi ▸ step_frame_exec hp hs
  refine ⟨fun site hs => step_escape_exec hp hs, fun site hs => step_frame_exec hp hs, ?_, ?_, ?_, ?_,
    fun hs => step_xmit_single_exec hp hs, fun hs => step_xmit_multi_exec hp hs, fun hs => step_stop_exec hp hs⟩
  · simp only [List.forall_mem_cons]
    exact ⟨hframe _ _ rfl, hframe _ _ rfl, hframe _ _ rfl, hframe _ _ rfl, hframe _ _ rfl, hframe _ _ rfl,
      hframe _ _ rfl, hframe _ _ rfl, List.forall_mem_nil _⟩
  · intro sel hsel
    refine hframe _ _ ?_
    cases sel <;> simp only [siteInstr, Work.cmdSelVal, hsel, Option.getD_some]
  · intro a ha
    have haddr : s.work.addrVal = a := by rw [Work.addrVal, ha, Option.getD_some]
    subst haddr
    simp only [List.forall_mem_cons]
    exact ⟨hframe _ _ rfl, hframe _ _ rfl, hframe _ _ rfl, hframe _ _ rfl, List.forall_mem_nil _⟩
  · intro n hn
    refine hframe _ _ ?_
    rw [siteInstr, Work.cntVal, hn, Option.getD_some]

/-! ## Bytes received -/

theorem step_poll_receive {s : State} {site : Site} {e : Bool} (hp : overlapPending s = false)
    (hs : s.seq = .poll site e) : step s = stepReceive .r1 (pollExchange s) (pollMissed site e) := by
  rw [step_of_running (by simp [hs]) hp]
  simp only [stepRun, hs]

theorem step_token_receive {s : State} {use : RecvUse} (hp : overlapPending s = false) (hs : s.seq = .token use) :
    step s = stepReceive .dataIn (tokenExchange s) (tokenMissed use) := by
  rw [step_of_running (by simp [hs]) hp]
  simp only [stepRun, hs]

theorem step_dataResp_receive {s : State} {use : XmitUse} (hp : overlapPending s = false) (hs : s.seq = .dataResp use) :
    step s = stepReceive .dataResp (respExchange s) (fun _ => blockFailed use) := by
  rw [step_of_running (by simp [hs]) hp]
  simp only [stepRun, hs]

/-- A received byte that spells an instruction runs it, whatever the rule's other path is (R103). -/
theorem stepReceive_of_decode {f : Format} {d : Byte × State} {i : Instr} {rest : List Byte}
    (h : decode f [d.1] = .ok (i, rest)) (missed : Byte → State → State) : stepReceive f d missed = exec i d.2 := by
  simp only [stepReceive, h]

theorem decodeDataIn_startBlock (rest : List Byte) :
    decode .dataIn (0xFE#8 :: rest) = .ok (.tokenStartBlock, rest) := rfl

/-- Settles O9: each label that receives decodes the exchanged byte over the state `xchg` leaves. -/
theorem receiveStepRunsByte : Obligations.ReceiveStepRunsByte := by
  unfold Obligations.ReceiveStepRunsByte
  intro s r b hp hx
  obtain rfl : (xchg 0xFF#8 s.bus).1 = r := congrArg Prod.fst hx
  obtain rfl : (xchg 0xFF#8 s.bus).2 = b := congrArg Prod.snd hx
  refine ⟨⟨xchg_trace _ s.bus, rfl, rfl, rfl, rfl⟩, fun site e hs hr => ?_, fun use hs hr => ?_, fun use hs hr => ?_⟩
  · rw [step_poll_receive hp hs]
    exact stepReceive_of_decode (d := pollExchange s) (decodeR1_valid _ [] hr) _
  · have hbyte : (tokenExchange s).1 = 0xFE#8 := hr
    rw [step_token_receive hp hs, stepReceive_of_decode (hbyte ▸ decodeDataIn_startBlock []), ← hr]
    rfl
  · rw [step_dataResp_receive hp hs]
    exact stepReceive_of_decode (d := respExchange s) (decodeDataResp_accepted _ [] hr) _

/-! ## The data response (R93, R219-R221) -/

theorem exec_dataRespAccepted {s : State} {use : XmitUse} (hs : s.seq = .dataResp use) (ignored : BitVec 3) :
    exec (.dataRespAccepted ignored) s = .next (blockAccepted use s) := by
  simp only [exec, execDataRespAccepted, hs]

theorem blockAccepted_multi {s : State} {p : Nat} {n : Word} (hptr : s.work.ptr = some p) (hcnt : s.work.cnt = some n) :
    blockAccepted .multi s =
      { s with
        seq := if n = 1#32 then .stop else .xmit .multi
        work := { s.work with ptr := some (p + 512), cnt := some (n - 1#32) } } := by
  have hw := advanceBlock_work_of hptr hcnt
  have hval : (advanceBlock s).work.cntVal = n - 1#32 := by rw [hw]; rfl
  have hs : ∀ l, goto l (advanceBlock s) =
      { s with seq := l, work := { s.work with ptr := some (p + 512), cnt := some (n - 1#32) } } :=
    fun l => by rw [← hw]; rfl
  simp only [blockAccepted, hval, word_pred_zero, hs]
  split <;> rfl

theorem accepted_iff (r : Byte) : r.extractLsb' 0 5 = 0b00101#5 ↔ r.toNat % 32 = 5 := by
  revert r; decide

/-- Settles O45: an accepted block counts (`blockAccepted`), and any other byte fails it over the state after its exchange. -/
theorem dataResponse : Obligations.DataResponse := by
  unfold Obligations.DataResponse
  intro s
  refine ⟨fun ignored => ⟨fun hs => ?_, fun p n hs hptr hcnt => ?_⟩, fun use r hp hs hr hbits => ?_⟩
  · rw [exec_dataRespAccepted hs]
    rfl
  · rw [exec_dataRespAccepted hs, blockAccepted_multi hptr hcnt]
  · subst hr
    have hmissed : (xchg fill s.bus).1.extractLsb' 0 5 ≠ 0b00101#5 := mt (accepted_iff _).1 hbits
    have hstep : step s = .next (blockFailed use (respExchange s).2) := by rw [step_dataResp hp hs, if_neg hmissed]
    have hu : Untouched s (respExchange s).2 := .of_clk rfl rfl
    refine ⟨_, hstep, ?_, hu.trans (blockFailed_untouched use _), .of_eq (blockFailed_mem use _), ?_⟩
    · cases use <;> rfl
    · cases use <;> exact ⟨rfl, rfl, rfl, xchg_trace _ s.bus, rfl⟩

end Sys2Proof.Machine
end

section

/-! PROOF of O48, O49, O50. What the transport does with the environment's draws (R120-R127): a run of busy bytes takes the ready
wait through as many false answers of `T_RDY`, and a run of queries of any timer counts its draw down. -/

namespace Sys2Proof.Machine

/-! ## The primitives (R120-R123) -/

/-- Settles O48 by the laws of the primitives, the exchange's over the next byte of the script. -/
theorem transportPrimitives : Obligations.TransportPrimitives := by
  unfold Obligations.TransportPrimitives
  intro b
  refine ⟨fun tx => ⟨_, _, rfl, xchg_trace tx b, rfl, rfl, rfl, rfl, fun _ _ h => drawByte_of_script h⟩,
    ⟨rfl, csAssert_trace b, rfl⟩, ⟨rfl, csDeassert_trace b, rfl⟩, fun c => ⟨rfl, setClock_trace c b, rfl⟩, fun ms => ?_⟩
  exact ⟨timerStart_op_tOp ms b, timerStart_op_tRdy ms b, timerStart_rdy_tRdy ms b, timerStart_rdy_tOp ms b,
    fun t => ⟨timerStart_trace t ms b, timerStart_cs t ms b, timerStart_clk t ms b, timerStart_rxIn t ms b⟩⟩

/-! ## The ready wait (R126, R127) -/

/-- A started `T_RDY` answers `false` as often as the draw says (R124; log 6). -/
theorem timerStart_rdy_of_draw {b : Bus} {k : ℕ} {draws : List ℕ} (h : b.env.expIn = k :: draws) (ms : ℕ) :
    ∃ start, (timerStart .rdy ms b).tRdy = some ⟨start, ms, k⟩ := by
  have hk : (drawExpiry (readTick b.env).2).1 = k := by simp only [drawExpiry, readTick, h]
  exact ⟨(readTick b.env).1, by rw [← hk]; rfl⟩

theorem waitReady_of_draw {b : Bus} {k : ℕ} {draws : List ℕ} (h : b.env.expIn = k :: draws) :
    waitReady b = readyLoop k (timerStart .rdy Config.readyMs b) := by
  obtain ⟨start, hs⟩ := timerStart_rdy_of_draw h Config.readyMs
  simp only [waitReady, rdyLeft, hs]

/-- 0xFF ends the loop with nothing more exchanged or asked (R127). -/
theorem readyLoop_of_ready {b : Bus} {later : List Byte} (k : ℕ) (h : b.env.rxIn = 0xFF#8 :: later) :
    (readyLoop k b).1 = true ∧ (readyLoop k b).2.env.rxIn = later ∧
    (readyLoop k b).2.trace = b.trace ++ [.x fill 0xFF#8] := by
  obtain ⟨hd, hl⟩ := drawByte_of_script h
  have he : readyLoop k b = (true, (xchg fill b).2) := by cases k <;> simp only [readyLoop, xchg_fst, hd, if_true]
  rw [he]
  exact ⟨rfl, hl, by rw [xchg_trace, hd]⟩

/-- A busy byte after the last false answer ends the loop (R127). -/
theorem readyLoop_of_timeout {b : Bus} {d : Byte} {later : List Byte} {start ms : ℕ} (hd : d ≠ 0xFF#8)
    (h : b.env.rxIn = d :: later) (ht : b.tRdy = some ⟨start, ms, 0⟩) :
    (readyLoop 0 b).1 = false ∧ (readyLoop 0 b).2.env.rxIn = later ∧
    (readyLoop 0 b).2.trace = b.trace ++ [.x fill d, .exp .rdy true] := by
  obtain ⟨rfl, hl⟩ := drawByte_of_script h
  have he : readyLoop 0 b = (false, (expired .rdy (xchg fill b).2).2) := by
    simp only [readyLoop, xchg_fst, hd, if_false]
  have hq := (expired_of_deadline (t := .rdy) (b := (xchg fill b).2) ht).2.1
  rw [he]
  exact ⟨rfl, by rw [expired_env]; exact hl, by rw [hq, xchg_trace, List.append_assoc]; rfl⟩

/-- A busy byte while false answers are left: one query, and the loop goes on (R127). -/
theorem readyLoop_of_busy {b : Bus} {d : Byte} {later : List Byte} {start ms k : ℕ} (hd : d ≠ 0xFF#8)
    (h : b.env.rxIn = d :: later) (ht : b.tRdy = some ⟨start, ms, k + 1⟩) :
    ∃ b', readyLoop (k + 1) b = readyLoop k b' ∧ b'.env.rxIn = later ∧ b'.tRdy = some ⟨start, ms, k⟩ ∧
      b'.trace = b.trace ++ [.x fill d, .exp .rdy false] := by
  obtain ⟨rfl, hl⟩ := drawByte_of_script h
  obtain ⟨hq, htr, hdl⟩ := expired_of_deadline (t := .rdy) (b := (xchg fill b).2) ht
  refine ⟨(expired .rdy (xchg fill b).2).2, ?_, by rw [expired_env]; exact hl, hdl, ?_⟩
  · simp only [readyLoop, xchg_fst, hd, if_false, hq]
    rfl
  · rw [htr, xchg_trace, List.append_assoc]
    rfl

/-- A run of busy bytes uses up as many false answers, and leaves the loop where it was. -/
theorem readyLoop_busy_run {busy : List Byte} {start ms k : ℕ} {b : Bus} {later : List Byte}
    (hbusy : ∀ d ∈ busy, d ≠ 0xFF#8) (h : b.env.rxIn = busy ++ later)
    (ht : b.tRdy = some ⟨start, ms, busy.length + k⟩) :
    ∃ b', readyLoop (busy.length + k) b = readyLoop k b' ∧ b'.env.rxIn = later ∧ b'.tRdy = some ⟨start, ms, k⟩ ∧
      b'.trace = b.trace ++ busyEvents busy := by
  induction busy generalizing b with
  | nil =>
    rw [List.length_nil, Nat.zero_add] at ht ⊢
    exact ⟨b, rfl, h, ht, (List.append_nil _).symm⟩
  | cons d ds ih =>
    obtain ⟨hd, hds⟩ := List.forall_mem_cons.1 hbusy
    rw [List.length_cons, Nat.succ_add] at ht ⊢
    obtain ⟨b1, he1, hr1, ht1, htr1⟩ := readyLoop_of_busy hd h ht
    obtain ⟨b2, he2, hr2, ht2, htr2⟩ := ih hds hr1 ht1
    exact ⟨b2, he1.trans he2, hr2, ht2, by rw [htr2, htr1, List.append_assoc]; rfl⟩

/-- The answer of a selection is its ready wait's, the deselect of a timeout included (R126). -/
theorem select_fst (b : Bus) : (select b).1 = (waitReady (discard fill (csAssert b))).1 := by
  simp only [select]
  split
  · rfl
  · rename_i hw
    exact (Bool.eq_false_of_not_eq_true hw).symm

/-- Settles O49: `readyLoop_busy_run` takes the wait through the busy bytes, and the byte after them decides it. -/
theorem readyWaitOutcome : Obligations.ReadyWaitOutcome := by
  unfold Obligations.ReadyWaitOutcome
  intro b busy later k draws hk hbusy
  obtain ⟨start, ht⟩ := timerStart_rdy_of_draw hk Config.readyMs
  have htr : (timerStart .rdy Config.readyMs b).trace = b.trace ++ [.tstart .rdy 500] := timerStart_trace _ _ b
  rw [waitReady_of_draw hk]
  refine ⟨fun hlen hrx => ?_, fun d hlen hd hrx => ?_, select_fst b⟩
  · obtain ⟨j, rfl⟩ := Nat.exists_eq_add_of_le hlen
    obtain ⟨b1, he1, hr1, -, htr1⟩ := readyLoop_busy_run hbusy ((timerStart_rxIn _ _ b).trans hrx) ht
    obtain ⟨hw, hl, htr2⟩ := readyLoop_of_ready j hr1
    rw [he1]
    refine ⟨hw, hl, ?_⟩
    rw [htr2, htr1, htr]
    simp [fill]
  · subst hlen
    obtain ⟨b1, he1, hr1, ht1, htr1⟩ := readyLoop_busy_run (k := 0) hbusy ((timerStart_rxIn _ _ b).trans hrx) ht
    obtain ⟨hw, hl, htr2⟩ := readyLoop_of_timeout hd hr1 ht1
    rw [← Nat.add_zero busy.length, he1]
    refine ⟨hw, hl, ?_⟩
    rw [htr2, htr1, htr]
    simp [fill]

/-! ## Expiry (R124) -/

/-- After a start the timer has a deadline, whatever the draw. -/
theorem deadline_timerStart (t : TimerId) (ms : ℕ) (b : Bus) : ∃ d, deadline t (timerStart t ms b) = some d := by
  cases t <;> exact ⟨_, rfl⟩

/-- Each query takes one from the false answers left, down to none. -/
theorem deadline_iterate_expired {t : TimerId} {b : Bus} {d : Deadline} (h : deadline t b = some d) (j : ℕ) :
    deadline t ((fun b => (expired t b).2)^[j] b) = some { d with falseLeft := d.falseLeft - j } := by
  induction j with
  | zero => exact h
  | succ j ih =>
    rw [Function.iterate_succ_apply', (expired_of_deadline ih).2.2]
    rfl

/-- Settles O50: the number is the false answers the start drew, which `deadline_iterate_expired` counts down. -/
theorem expiryMonotoneAndFair : Obligations.ExpiryMonotoneAndFair := by
  unfold Obligations.ExpiryMonotoneAndFair
  intro t ms b
  obtain ⟨d, hd⟩ := deadline_timerStart t ms b
  refine ⟨d.falseLeft, fun j => ?_⟩
  rw [(expired_of_deadline (deadline_iterate_expired hd j)).1]
  simp only [Nat.sub_eq_zero_iff_le]

end Sys2Proof.Machine
end

section

/-! PROOF of O54. Which steps write the clock (R36, R130): by `HostNext` and `RunNext`, INIT's first step and its finalisation. -/

namespace Sys2Proof.Machine

/-- INIT begins on a slow clock (R183). -/
theorem powerUp_clk (s : State) : (powerUp s).bus.clk = .slow := (discardMany_only Config.powerUpBytes _).clk

/-- INIT's finalisation switches to the fast clock with a card type, and leaves the clock without one (R192). -/
theorem finishInit_clk (s : State) : (finishInit s).bus.clk = s.bus.clk ∨
    (finishInit s).bus.clk = .fast ∧ (finishInit s).cardType ≠ 0#8 := by
  simp only [finishInit]
  split
  · exact .inl rfl
  · exact .inr ⟨rfl, ‹_›⟩

theorem sync_clk (s : State) : (sync s).bus.clk = s.bus.clk := (select_lines s.bus).1

/-- No host operation but INIT changes the clock in its first step. -/
theorem HostNext.clk {s t : State} (h : HostNext s t) :
    t.bus.clk = s.bus.clk ∨ t.seq = .frame .initCmd0 ∧ t.bus.clk = .slow := by
  cases h with
  | poweredUp => exact .inr ⟨rfl, powerUp_clk _⟩
  | synced => exact .inl (sync_clk _)
  | _ => exact .inl rfl

/-- No label but INIT's finalisation changes the clock. -/
theorem RunNext.clk {s t : State} (h : RunNext s t) :
    t.bus.clk = s.bus.clk ∨ s.seq = .initEnd ∧ t.bus.clk = .fast ∧ t.cardType ≠ 0#8 := by
  cases h with
  | continued hu => exact .inl hu.clk
  | initEnded hs => exact (finishInit_clk s).imp_right fun hf => ⟨hs, hf⟩
  | ioEnded => exact .inl rfl
  | countEnded => exact .inl rfl

/-- Settles O54: a step of an operation is a `RunNext`, and at IDLE only a call, a `HostNext`, can touch the clock. -/
theorem onlyInitChangesClock : Obligations.OnlyInitChangesClock := by
  unfold Obligations.OnlyInitChangesClock
  intro s t h hclk
  by_cases hi : s.seq = .idle
  · left
    rcases stepIdle_next hi h with ⟨-, rfl⟩ | ⟨_, _, -, hn, -⟩ | ⟨_, _, _, -, rfl⟩ | ⟨_, _, _, -, rfl⟩
    · exact absurd rfl hclk
    · exact ⟨hi, hn.clk.resolve_left hclk⟩
    · exact absurd rfl hclk
    · exact absurd rfl hclk
  · exact .inr ((stepRun_next hi h).clk.resolve_left hclk)

end Sys2Proof.Machine
end

section

/-! PROOF of O55. How an operation returns (R35, R129): a step that does not come from one of the three ends stays in the
operation, and each end, like the one step of Sync, GetSectorSize and IOCTL_OTHER, puts the deselect last on the bus. -/

namespace Sys2Proof.Machine

/-! ## Labels an operation does not return from -/

theorem ite_ne_idle {c : Prop} [Decidable c] {t u : State} (ht : t.seq ≠ .idle) (hu : u.seq ≠ .idle) :
    (if c then t else u).seq ≠ .idle := by
  split
  · exact ht
  · exact hu

theorem call_ne_idle (site : Site) (s : State) : (call site s).seq ≠ .idle := by
  simp only [call_seq, callSite]
  split <;> nofun

/-- No caller's branch on a response returns (R182-R191, R213, R214, R220, R221, R243). -/
theorem afterResponse_ne_idle (site : Site) (r : Byte) (s : State) : (afterResponse site r s).seq ≠ .idle := by
  cases site with
  | initCmd0 => exact ite_ne_idle (call_ne_idle _ _) nofun
  | initCmd8 => exact ite_ne_idle (ite_ne_idle nofun nofun) (call_ne_idle _ _)
  | initAcmd41 => exact ite_ne_idle (call_ne_idle _ _) nofun
  | initLoop => exact ite_ne_idle (call_ne_idle _ _) nofun
  | readCmd12 => nofun
  | writeAcmd23 => exact call_ne_idle _ _
  | initCmd58 | initProbe | initCmd16 | readCmd17 | readCmd18 | writeCmd24 | writeCmd25 | countCmd9 =>
    exact ite_ne_idle nofun nofun

theorem respond_ne_idle (site : Site) (e : Bool) (r : Byte) (s : State) : (respond site e r s).seq ≠ .idle :=
  ite_ne_idle nofun (afterResponse_ne_idle site r _)

theorem issueAt_ne_idle (site : Site) (e : Bool) (idx : BitVec 6) (arg : Word) (s : State) :
    (issueAt site e idx arg s).seq ≠ .idle :=
  ite_ne_idle nofun (respond_ne_idle site e noResponse _)

theorem pollMissed_ne_idle (site : Site) (e : Bool) (r : Byte) {s : State} (hs : s.seq ≠ .idle) :
    (pollMissed site e r s).seq ≠ .idle :=
  ite_ne_idle (respond_ne_idle site e r s) hs

theorem loopQuery_ne_idle (kind : LoopKind) (s : State) : (loopQuery kind s).seq ≠ .idle := by
  cases kind <;> exact ite_ne_idle nofun (call_ne_idle _ _)

theorem receiveFailed_ne_idle (use : RecvUse) (s : State) : (receiveFailed use s).seq ≠ .idle := by
  cases use <;> nofun

theorem tokenMissed_ne_idle (use : RecvUse) (tok : Byte) {s : State} (hs : s.seq ≠ .idle) :
    (tokenMissed use tok s).seq ≠ .idle :=
  ite_ne_idle (receiveFailed_ne_idle use s) (ite_ne_idle (receiveFailed_ne_idle use _) hs)

theorem receiveBlock_ne_idle (use : RecvUse) (s : State) : (receiveBlock use s).seq ≠ .idle := by
  cases use with
  | multi => exact ite_ne_idle nofun nofun
  | _ => nofun

theorem countReceived_ne_idle (s : State) : (countReceived s).seq ≠ .idle := by
  simp only [countReceived]
  split <;> nofun

theorem receiveData_ne_idle {use : RecvUse} {s t : State} (h : receiveData use s = .next t) : t.seq ≠ .idle := by
  cases use <;> simp only [receiveData] at h <;> split at h
  case single.isTrue => cases h; exact receiveBlock_ne_idle .single s
  case multi.isTrue => cases h; exact receiveBlock_ne_idle .multi s
  case csd.isTrue => cases h; exact countReceived_ne_idle _
  case csd.isFalse =>
    split at h <;> cases h
    exact countReceived_ne_idle _
  all_goals cases h

theorem blockFailed_ne_idle (use : XmitUse) (s : State) : (blockFailed use s).seq ≠ .idle := by
  cases use <;> nofun

theorem blockAccepted_ne_idle (use : XmitUse) (s : State) : (blockAccepted use s).seq ≠ .idle := by
  cases use with
  | single => nofun
  | multi => exact ite_ne_idle nofun nofun

theorem transmitData_ne_idle {token : Byte} {use : XmitUse} {s t : State} (h : transmitData token use s = .next t) :
    t.seq ≠ .idle := by
  simp only [transmitData] at h
  split at h
  · cases h
    exact ite_ne_idle nofun (blockFailed_ne_idle use _)
  · split at h <;> cases h
    exact blockFailed_ne_idle use _

theorem transmitStop_ne_idle (s : State) : (transmitStop s).seq ≠ .idle := ite_ne_idle nofun nofun

/-- A step that ends an operation is one of its three ends (R192, R223, R248). -/
theorem step_return {s t : State} (hi : s.seq ≠ .idle) (h : step s = .next t) (ht : t.seq = .idle) :
    t = finishInit s ∨ t = finishIo s ∨ ∃ v, t = finishIoctl v s := by
  have hp := noOverlap_of_next h hi
  cases hs : s.seq with
  | idle => exact absurd hs hi
  | initEnd =>
    rw [step_initEnd hp hs] at h
    cases h
    exact .inl rfl
  | ioEnd =>
    rw [step_ioEnd hp hs] at h
    cases h
    exact .inr (.inl rfl)
  | countEnd ok =>
    rw [step_countEnd hp hs] at h
    cases h
    exact .inr (.inr ⟨_, rfl⟩)
  | escape site =>
    rw [step_escape hp hs] at h
    cases h
    exact absurd ht (issueAt_ne_idle site true _ _ s)
  | frame site =>
    obtain ⟨idx, arg, hf, -⟩ := step_frame hp hs
    rw [hf] at h
    cases h
    exact absurd ht (issueAt_ne_idle site false idx arg s)
  | poll site e =>
    rw [step_poll hp hs] at h
    cases h
    exact absurd ht (ite_ne_idle (pollMissed_ne_idle site e _ hi) (respond_ne_idle site e _ _))
  | loopHead kind =>
    rw [step_loopHead hp hs] at h
    cases h
    exact absurd ht (loopQuery_ne_idle kind s)
  | token use =>
    rw [step_token hp hs] at h
    split at h
    · exact absurd ht (receiveData_ne_idle h)
    · cases h
      exact absurd ht (tokenMissed_ne_idle use _ hi)
  | xmit use =>
    rw [step_xmit hp hs] at h
    exact absurd ht (transmitData_ne_idle h)
  | dataResp use =>
    rw [step_dataResp hp hs] at h
    cases h
    exact absurd ht (ite_ne_idle (blockAccepted_ne_idle use _) (blockFailed_ne_idle use _))
  | stop =>
    rw [step_stop hp hs] at h
    cases h
    exact absurd ht (transmitStop_ne_idle s)

/-- A step at IDLE on a call is the first step of a host operation. -/
theorem step_call_next {s t : State} (hi : s.seq = .idle) (h : step s = .next t)
    (hcall : ∃ bytes later, s.host = .call bytes :: later ∨ s.host = .callNow bytes :: later) :
    ∃ later, HostNext { s with host := later } t := by
  obtain ⟨bytes, later, hcall⟩ := hcall
  rcases stepIdle_next hi h with ⟨hh, -⟩ | ⟨_, later', -, hn, -⟩ | ⟨_, _, _, hh, -⟩ | ⟨_, _, _, hh, -⟩
  · simp [hh] at hcall
  · exact ⟨later', hn⟩
  · simp [hh] at hcall
  · simp [hh] at hcall

/-! ## The bus at a return (R35, R129) -/

/-- The card is deselected, and the deselect with its dummy byte is the last exchange; only INIT's clock switch may follow. -/
def Released (b : Bus) : Prop :=
  b.cs = .deasserted ∧ ∃ (es : List Event) (x : Byte),
    b.trace = es ++ [.cs .deasserted, .x 0xFF#8 x] ∨ b.trace = es ++ [.cs .deasserted, .x 0xFF#8 x, .clk .fast]

theorem deselect_released (b : Bus) : Released (deselect b) :=
  ⟨rfl, b.trace, _, .inl (deselect_trace b)⟩

theorem setClock_deselect_released (b : Bus) : Released (setClock .fast (deselect b)) := by
  refine ⟨rfl, b.trace, (drawByte b.env).1, .inr ?_⟩
  rw [setClock_trace, deselect_trace, List.append_assoc]
  rfl

theorem finishInit_released (s : State) : Released (finishInit s).bus := by
  simp only [finishInit]
  split
  · exact deselect_released s.bus
  · exact setClock_deselect_released s.bus

/-- A call that returns in its one step has left the bus alone, or deselected the card. -/
theorem HostNext.released {s t : State} (h : HostNext s t) (ht : t.seq = .idle) : t.trace = [] ∨ Released t.bus := by
  cases h with
  | returned v => exact .inl rfl
  | synced | sized | rejected => exact .inr (deselect_released _)
  | poweredUp => exact absurd ht nofun
  | reading | writing | counting => exact absurd ht (call_ne_idle _ _)

/-- Settles O55: the end of an operation in progress is one of `step_return`, and of a call one of `HostNext`. -/
theorem busReleasedAtReturn : Obligations.BusReleasedAtReturn := by
  unfold Obligations.BusReleasedAtReturn
  intro s t h ht hop
  show Released t.bus
  by_cases hi : s.seq = .idle
  · obtain ⟨hcall, htrace⟩ := hop.resolve_left (not_not_intro hi)
    obtain ⟨_, hn⟩ := step_call_next hi h hcall
    exact (hn.released ht).resolve_left htrace
  · rcases step_return hi h ht with rfl | rfl | ⟨v, rfl⟩
    · exact finishInit_released s
    · exact deselect_released s.bus
    · exact deselect_released s.bus

end Sys2Proof.Machine
end

section

/-! PROOF of O24, O25, O26, O27, O36. The command layer (R140-R146): every frame at its label is `issueAt`, and the answers of a
select timeout and of a tenth missed poll are error responses, which R1_VALID with 0x7F stands for. -/

namespace Sys2Proof.Machine

/-! ## Error responses (R141, R146) -/

theorem exec_r1Valid {s : State} {site : Site} {e : Bool} (hs : s.seq = .poll site e) (flags : BitVec 7) :
    exec (.r1Valid flags) s = .next (respond site e (0#1 ++ flags) s) := by
  simp only [exec, execR1Valid, hs]

theorem idleOrReady_r1 (flags : BitVec 7) : idleOrReady (0#1 ++ flags) = decide (flags.toNat ≤ 1) := by
  revert flags; decide

theorem idleOrReady_of_bit7 {r : Byte} (h : r.getLsbD 7 = true) : idleOrReady r = false := by
  revert r; decide

/-- The caller's branch does not read the label its command was polled at. -/
theorem afterResponse_seq (site : Site) (r : Byte) (s : State) (l : Seq) :
    afterResponse site r { s with seq := l } = afterResponse site r s := by
  cases site <;> rfl

/-- Any error response is answered as R1_VALID with 0x7F is, but for the byte in `res` (R146). -/
theorem respond_error_r1Valid (site : Site) (e : Bool) {r : Byte} (s : State) (hr : idleOrReady r = false) :
    ∃ u, exec (.r1Valid 0x7F#7) { s with seq := .poll site e } = .next u ∧
      respond site e r s = { u with work := { u.work with res := some r } } :=
  ⟨_, exec_r1Valid rfl _, respond_as_error site e r s (.poll site e) hr⟩

/-! ## Frames at their labels (R102, R108) -/

theorem exec_cmd55 {s : State} {site : Site} (hs : s.seq = .escape site) :
    exec .cmd55 s = .next (issueAt site true 55 0 s) := by
  simp only [exec, execCmd55, issueEscape, hs]

theorem issue_frame {s : State} {site : Site} (hs : s.seq = .frame site) (idx : BitVec 6) (arg : Word) :
    issue idx arg s = .next (issueAt site false idx arg s) := by
  simp only [issue, hs]

/-- Every frame but CMD55 is issued at a site's frame label with its own index and argument (log 12). -/
theorem exec_cmdFrame {i : Instr} {s : State} {site : Site} (hi : i.format = .cmdFrame) (h55 : i ≠ .cmd55)
    (hs : s.seq = .frame site) :
    ∃ idx arg, exec i s = .next (issueAt site false idx arg s) ∧ encode i = frameBytes idx arg ∧
      (idx = 12#6 ↔ i = .cmd12) := by
  cases i with
  | cmd55 => exact absurd rfl h55
  | cmd0 | cmd1 | cmd8 | cmd9 | cmd12 | cmd16 | cmd17 | cmd18 | cmd24 | cmd25 | cmd58 | acmd23 | acmd41 =>
    exact ⟨_, _, issue_frame hs _ _, rfl, by simp⟩
  | _ => cases hi

/-! ## Issuing a command (R140-R145) -/

/-- `issueAt_spec` with a select timeout said as the command's error response: the answer 0xFF leaves the bus as the
reselection left it. -/
theorem issueAt_outcome {site : Site} {e : Bool} {idx : BitVec 6} {arg : Word} {s t : State} (h12 : idx ≠ 12#6)
    (ht : issueAt site e idx arg s = t) :
    ∃ (ok : Bool) (es : List Event), ok = (select (deselect s.bus)).1 ∧ ReselectEvents ok es ∧ Untouched s t ∧
      SameMemory s t ∧ t.bus.tOp = s.bus.tOp ∧
      if ok then
        (∃ fr, Exchanges (frameBytes idx arg) fr ∧ t.trace = s.trace ++ es ++ fr) ∧
        t.bus.cs = .asserted ∧ t.seq = .poll site e ∧ t.work = { s.work with n := some 10 }
      else
        t.trace = s.trace ++ es ∧ t.bus.cs = .deasserted ∧
        ∃ u, exec (.r1Valid 0x7F#7) { s with seq := .poll site e, bus := t.bus } = .next u ∧
          t = { u with work := { u.work with res := some 0xFF#8 } } := by
  subst ht
  obtain ⟨ok, es, hok, hes, hu, hm, hop, hout⟩ := issueAt_spec site e idx arg s h12
  refine ⟨ok, es, hok, hes, hu, .of_eq hm, hop, ?_⟩
  cases ok with
  | true => exact hout
  | false =>
    obtain ⟨htrace, hanswer, hcs⟩ := hout
    have hbus : (issueAt site e idx arg s).bus = (reselect idx s.bus).2 := by
      rw [hanswer, respond_error site e 0xFF#8 _ rfl]
    rw [← hbus] at hanswer hcs
    obtain ⟨u, hu, ht⟩ := respond_error_r1Valid site e { s with bus := (issueAt site e idx arg s).bus }
      (r := 0xFF#8) rfl
    exact ⟨htrace, hcs, u, hu, hanswer.trans ht⟩

/-- Settles O24: each frame is `issueAt` with its own index and argument (`exec_cmdFrame`), and `issueAt_outcome`. -/
theorem commandFrameIssued : Obligations.CommandFrameIssued := by
  unfold Obligations.CommandFrameIssued
  intro i s site hi h12 h55 hs
  obtain ⟨idx, arg, hexec, hbytes, hidx⟩ := exec_cmdFrame hi h55 hs
  obtain ⟨ok, es, hout⟩ := issueAt_outcome (mt hidx.1 h12) rfl
  rw [hbytes]
  exact ⟨_, ok, es, hexec, hout⟩

/-- Settles O25: CMD55 is `issueAt` at the escape label, and `issueAt_outcome`. -/
theorem escapeCommandIssued : Obligations.EscapeCommandIssued := by
  unfold Obligations.EscapeCommandIssued
  intro s site hs
  obtain ⟨ok, es, hout⟩ := issueAt_outcome (site := site) (e := true) (idx := 55) (arg := 0) (s := s) (by decide) rfl
  exact ⟨_, ok, es, exec_cmd55 hs, hout⟩

/-- CMD12 is not reselected: its frame is sent at once (R142). -/
theorem issueAt_cmd12 (site : Site) (e : Bool) (arg : Word) (s : State) :
    issueAt site e 12 arg s =
      { s with seq := .poll site e, work := { s.work with n := some 10 }, bus := sendFrame 12 arg s.bus } := rfl

/-- Settles O26: the bus after CMD12 is that of `sendFrame`, whose stuff byte is the seventh exchange. -/
theorem stopCommandIssued : Obligations.StopCommandIssued := by
  unfold Obligations.StopCommandIssued
  intro s site hs
  have hexec : exec .cmd12 s = .next (issueAt site false 12 0 s) := issue_frame hs 12 0
  have hbus := sendFrame_only 12 0 s.bus
  obtain ⟨es, hes, htrace⟩ := sendFrame_trace 12 0 s.bus
  rw [issueAt_cmd12] at hexec
  exact ⟨_, es, hexec, hes, htrace, hbus.cs, hbus.tOp, hbus.tRdy, rfl, rfl, .of_clk hbus.clk rfl, .of_eq rfl⟩

/-! ## Responses (R141, R146) -/

theorem respond_escaping_accepted (site : Site) {r : Byte} (s : State) (hr : idleOrReady r = true) :
    respond site true r s = { s with seq := .frame site, work := { s.work with res := some r } } := by
  simp only [respond, hr, Bool.and_self, if_true]
  rfl

/-- A CMD55 response above 1 is the command's own (R141). -/
theorem respond_escaping_error (site : Site) {r : Byte} (s : State) (l : Seq) (hr : idleOrReady r = false) :
    respond site true r s = respond site false r { s with seq := l } := by
  simp only [respond, hr, Bool.and_false, Bool.false_eq_true, if_false]
  exact (afterResponse_seq site r { s with work := { s.work with res := some r } } l).symm

/-- Settles O27: `respond` after CMD55, on either side of the comparison with 1. -/
theorem escapeResponse : Obligations.EscapeResponse := by
  unfold Obligations.EscapeResponse
  intro flags s site hs
  rw [exec_r1Valid hs]
  refine ⟨fun hle => ?_, fun hgt => ?_⟩
  · have hr : idleOrReady (0#1 ++ flags) = true := by rw [idleOrReady_r1]; exact decide_eq_true hle
    rw [respond_escaping_accepted site s hr]
  · have hr : idleOrReady (0#1 ++ flags) = false := by rw [idleOrReady_r1]; exact decide_eq_false (by omega)
    rw [exec_r1Valid rfl, respond_escaping_error site s (.poll site false) hr]

/-! ## The poll (R146) -/

/-- The state after a poll exchange with `k` more to come. -/
theorem pollExchange_of {s : State} {k : Nat} (hn : s.work.n = some (k + 1)) :
    (pollExchange s).2 = { s with bus := (xchg 0xFF#8 s.bus).2, work := { s.work with n := some k } } := by
  simp only [pollExchange, Work.nVal, hn, Option.getD_some, Nat.add_sub_cancel]
  rfl

theorem pollMissed_of_left {site : Site} {e : Bool} {r : Byte} {s : State} (h : s.work.nVal ≠ 0) :
    pollMissed site e r s = { s with work := { s.work with res := some r } } := if_neg h

theorem pollMissed_of_last {site : Site} {e : Bool} {r : Byte} {s : State} (h : s.work.nVal = 0) :
    pollMissed site e r s = respond site e r s := if_pos h

/-- A missed byte is kept in `res` and puts nothing more on the bus, whether the poll goes on or ends with it. -/
theorem pollMissed_spec (site : Site) (e : Bool) {r : Byte} (s : State) (hr : idleOrReady r = false) :
    (pollMissed site e r s).work.res = some r ∧ (pollMissed site e r s).work.n = s.work.n ∧
      (pollMissed site e r s).bus = s.bus := by
  simp only [pollMissed]
  split
  · obtain ⟨-, -, -, -, hres, hn, -⟩ := respond_spec site e r s
    exact ⟨hres, hn, respond_error site e r s hr⟩
  · exact ⟨rfl, rfl, rfl⟩

/-- Settles O36: the step is `pollMissed` over the state after the exchange, which goes on or is an error response as the
exchanges left say. -/
theorem pollGoesOn : Obligations.PollGoesOn := by
  unfold Obligations.PollGoesOn
  intro s site e r k hp hs hx hbit hn
  have hr := idleOrReady_of_bit7 hbit
  have hstep : step s = .next (pollMissed site e r (pollExchange s).2) := by
    have hx' : (xchg fill s.bus).1 = r := hx
    rw [step_poll hp hs, hx', if_pos hbit]
  have hpoll := pollExchange_of hn
  obtain ⟨hres, hleft, hbus⟩ := pollMissed_spec site e (pollExchange s).2 hr
  have hu : Untouched s (pollExchange s).2 := .of_clk rfl rfl
  refine ⟨_, hstep, hres, hu.trans (pollMissed_untouched site e r _), .of_eq (pollMissed_mem site e r _), ?_, ?_, ?_,
    fun hk => ?_, fun hk => ?_⟩
  · rw [hbus]; rfl
  · rw [State.trace, hbus, ← hx]; exact xchg_trace _ s.bus
  · rw [hleft, hpoll]
  · rw [hpoll]
    exact pollMissed_of_left hk
  · subst hk
    rw [hpoll, pollMissed_of_last rfl]
    obtain ⟨u, hu, ht⟩ := respond_error_r1Valid site e
      { s with bus := (xchg 0xFF#8 s.bus).2, work := { s.work with n := some 0 } } hr
    rw [← hs] at hu
    exact ⟨u, hu, ht⟩

end Sys2Proof.Machine
end

section

/-! PROOF of O14, O46, O31, O28, O29, O30, O32, O33. INIT label by label (R180-R194): its power-up step, the finalisation, the
head of a negotiation loop, and each site's branch on a response, which `exec_r1Valid_own` reduces to the site's own rule. -/

namespace Sys2Proof.Machine

/-! ## The power-up step (R181, R183) -/

theorem exec_init_other_drive {s : State} {drive : Byte} (hi : s.seq = .idle) (hd : drive ≠ 0#8) :
    exec (.init drive) s = .next (returnValue notInitializedBit (beginCall s)) := by
  simp only [exec, execInit, atIdle, hi, if_pos hd]

theorem exec_init_drive0 {s : State} (hi : s.seq = .idle) :
    exec (.init 0#8) s = .next (powerUp (beginCall s)) := by
  simp only [exec, execInit, atIdle, hi, ne_eq, not_true_eq_false, if_false]

/-- The slow clock, then ten dummy exchanges (R128, R183). -/
theorem powerUp_trace (s : State) :
    ∃ rx : List Byte, rx.length = 10 ∧ (powerUp s).trace = s.trace ++ .clk .slow :: rx.map fun r => .x fill r := by
  obtain ⟨rx, hlen, htrace⟩ := discardMany_trace 10 (setClock .slow s.bus)
  refine ⟨rx, hlen, htrace.trans ?_⟩
  rw [setClock_trace, List.append_assoc]
  rfl

/-- Settles O14: on another drive INIT is the return of 0x01, on drive 0 the exchanges of `powerUp`. -/
theorem initPowersUp : Obligations.InitPowersUp := by
  unfold Obligations.InitPowersUp
  intro drive s hi
  refine ⟨fun hd => ?_, fun hd => ?_⟩
  · exact ⟨_, exec_init_other_drive hi hd, ⟨rfl, rfl, rfl, rfl, ⟨rfl, rfl⟩, rfl, rfl, rfl⟩, rfl, rfl, rfl, rfl, rfl,
      .of_eq rfl⟩
  · subst hd
    have hbus := discardMany_only 10 (setClock .slow (beginCall s).bus)
    exact ⟨_, exec_init_drive0 hi, powerUp_trace (beginCall s), hbus.clk, hbus.cs, hbus.tOp, hbus.tRdy,
      rfl, rfl, rfl, rfl, ⟨rfl, rfl⟩, .of_eq rfl, rfl, rfl⟩

/-! ## The finalisation (R192, R194) -/

/-- Without a card type the clock is left as it is (R192). -/
theorem finishInit_of_no_type {s : State} (h : s.work.ty = some 0#8) :
    finishInit s = returnValue (s.status ||| 0x01#8)
      { s with cardType := 0#8, bus := deselect s.bus, status := s.status ||| 0x01#8 } := by
  have hty : s.work.tyVal = 0#8 := by rw [Work.tyVal, h, Option.getD_some]
  simp only [finishInit, hty, if_true]
  rfl

theorem finishInit_of_type {s : State} {ty : Byte} (h : s.work.ty = some ty) (h0 : ty ≠ 0#8) :
    finishInit s = returnValue (s.status &&& 0xFE#8)
      { s with cardType := ty, bus := setClock .fast (deselect s.bus), status := s.status &&& 0xFE#8 } := by
  have hty : s.work.tyVal = ty := by rw [Work.tyVal, h, Option.getD_some]
  simp only [finishInit, hty, if_neg h0]
  rfl

/-- Settles O46: the two outcomes of `finishInit`, by whether a card type was established. -/
theorem initFinalisation : Obligations.InitFinalisation := by
  unfold Obligations.InitFinalisation
  intro s ty hp hs hty
  refine ⟨finishInit s, (drawByte s.bus.env).1, step_initEnd hp hs, ?_⟩
  by_cases h0 : ty = 0#8
  · subst h0
    rw [finishInit_of_no_type hty]
    refine ⟨rfl, rfl, rfl, rfl, rfl, rfl, rfl, rfl, ?_, rfl, rfl, .of_eq rfl, rfl, rfl⟩
    exact (deselect_trace s.bus).trans (List.append_nil _).symm
  · rw [finishInit_of_type hty h0]
    simp only [if_neg h0]
    refine ⟨rfl, rfl, rfl, rfl, rfl, rfl, rfl, rfl, ?_, rfl, rfl, .of_eq rfl, rfl, rfl⟩
    show (setClock .fast (deselect s.bus)).trace = _
    rw [setClock_trace, deselect_trace]
    rfl

/-! ## The head of a negotiation loop (R187, R190) -/

theorem loopQuery_bus (kind : LoopKind) (s : State) : (loopQuery kind s).bus = (expired .op s.bus).2 := by
  simp only [loopQuery]
  split <;> cases kind <;> rfl

/-- The query's answer, said by the draw, decides whether the loop ends (R124; log 6). -/
theorem loopQuery_of_deadline (kind : LoopKind) {s : State} {d : Deadline} (h : s.bus.tOp = some d) :
    loopQuery kind s =
      if d.falseLeft = 0 then loopExpired kind { s with bus := (expired .op s.bus).2 }
      else loopCommand kind { s with bus := (expired .op s.bus).2 } := by
  obtain ⟨hans, -⟩ := expired_of_deadline (t := .op) (b := s.bus) h
  simp only [loopQuery, hans, decide_eq_true_eq]

/-- What the query leaves alone and what it puts on the bus, whichever way the loop goes on. -/
theorem loopQuery_frame (kind : LoopKind) {s : State} {d : Deadline} (h : s.bus.tOp = some d) :
    Untouched s (loopQuery kind s) ∧ SameMemory s (loopQuery kind s) ∧ (loopQuery kind s).bus.cs = s.bus.cs ∧
      (loopQuery kind s).bus.tRdy = s.bus.tRdy ∧
      (loopQuery kind s).trace = s.trace ++ [.exp .op (decide (d.falseLeft = 0))] := by
  obtain ⟨-, htrace, -⟩ := expired_of_deadline (t := .op) (b := s.bus) h
  simp only [State.trace, loopQuery_bus]
  exact ⟨loopQuery_untouched kind s, .of_eq (loopQuery_mem kind s), expired_cs .op s.bus, expired_op_tRdy s.bus, htrace⟩

/-- In the legacy loop `cmdSel` says whether the escape command goes first (R141, R189, R190). -/
theorem callSite_initLoop {w : Work} {sel : CmdSel} (h : w.cmdSel = some sel) :
    callSite .initLoop w = if sel = .acmd41 then .escape .initLoop else .frame .initLoop := by
  simp only [callSite, Work.cmdSelVal, h, Option.getD_some]
  cases sel <;> rfl

/-- Settles O31: the query's frame is `loopQuery_frame`; its answer chooses between the loop's end and one more command. -/
theorem negotiationLoopHead : Obligations.NegotiationLoopHead := by
  unfold Obligations.NegotiationLoopHead
  intro s d hp hd
  refine ⟨fun hs => ?_, fun sel hs hsel => ?_⟩
  · obtain ⟨hu, hm, hcs, hrdy, htrace⟩ := loopQuery_frame .v2 hd
    refine ⟨_, step_loopHead hp hs, hu, hm, hcs, hrdy, htrace, ?_⟩
    rw [loopQuery_of_deadline .v2 hd]
    split <;> exact ⟨rfl, rfl⟩
  · obtain ⟨hu, hm, hcs, hrdy, htrace⟩ := loopQuery_frame .legacy hd
    refine ⟨_, step_loopHead hp hs, hu, hm, hcs, hrdy, htrace, ?_⟩
    rw [loopQuery_of_deadline .legacy hd]
    split
    · exact ⟨rfl, rfl⟩
    · cases sel <;> exact ⟨rfl, callSite_initLoop hsel⟩

/-! ## The branch on a response, site by site (R182-R191) -/

/-- The response to a site's own command: `res` holds it, and the site's rule follows (R140). -/
theorem exec_r1Valid_own {s : State} {site : Site} (hs : s.seq = .poll site false) (flags : BitVec 7) :
    exec (.r1Valid flags) s =
      .next (afterResponse site (0#1 ++ flags) { s with work := { s.work with res := some (0#1 ++ flags) } }) :=
  exec_r1Valid hs flags

/-- Settles O28: `afterCmd0` on either side of the comparison with 1. -/
theorem resetCommandResponse : Obligations.ResetCommandResponse := by
  unfold Obligations.ResetCommandResponse
  intro flags s hs
  refine ⟨_, exec_r1Valid_own hs flags, ?_⟩
  simp only [afterResponse, afterCmd0, isIdleResponse_valid, decide_eq_true_eq]
  split
  · exact ⟨rfl, .of_clk (timerStart_clk .op 1000 s.bus) rfl, .of_eq rfl, timerStart_cs .op 1000 s.bus,
      timerStart_op_tRdy 1000 s.bus, rfl, timerStart_trace .op 1000 s.bus, timerStart_op_tOp 1000 s.bus⟩
  · exact ⟨rfl, .of_clk rfl rfl, .of_eq rfl, rfl, rfl, rfl, rfl⟩

/-- `readOCR()` (R147): four exchanges, whose bytes are `ocr[0..3]` in arrival order. -/
theorem latchOcr_bytes (s : State) :
    ∃ (o0 o1 o2 o3 : Byte) (b : Bus),
      latchOcr s = { s with work := { s.work with ocr := some [o0, o1, o2, o3] }, bus := b } ∧
      b.trace = s.trace ++ [.x 0xFF#8 o0, .x 0xFF#8 o1, .x 0xFF#8 o2, .x 0xFF#8 o3] ∧ s.bus.OnlyExchanged b :=
  ⟨_, _, _, _, _, rfl, receiveBytes_trace 4 s.bus, receiveBytes_only 4 s.bus⟩

/-- Settles O29: `afterCmd8` reads the echo by `latchOcr_bytes` after an accepted response, and nothing after a larger one. -/
theorem voltageCheckResponse : Obligations.VoltageCheckResponse := by
  unfold Obligations.VoltageCheckResponse
  intro flags s hs
  rw [exec_r1Valid_own hs]
  simp only [afterResponse, afterCmd8, idleOrReady_valid, decide_eq_true_eq]
  refine ⟨fun hle => ?_, fun hgt => ?_⟩
  · obtain ⟨o0, o1, o2, o3, b, hocr, htrace, hbus⟩ :=
      latchOcr_bytes { s with work := { s.work with res := some (0#1 ++ flags) } }
    have hecho : echoValid [o0, o1, o2, o3] = true ↔ o2 = 0x01#8 ∧ o3 = 0xAA#8 := by simp [echoValid]
    refine ⟨_, o0, o1, o2, o3, rfl, ?_⟩
    simp only [if_pos hle, hocr, ocrOf, Option.getD_some, hecho]
    split <;> exact ⟨rfl, rfl, htrace, hbus.cs, hbus.tOp, hbus.tRdy, .of_clk hbus.clk rfl, .of_eq rfl⟩
  · rw [if_neg (by omega)]
    rfl

/-- Settles O30: `afterAcmd41` and `afterLoop` compare the response with 0. -/
theorem negotiationResponse : Obligations.NegotiationResponse := by
  unfold Obligations.NegotiationResponse
  intro flags s
  refine ⟨fun hs => ?_, fun hs => ?_⟩
  · rw [exec_r1Valid_own hs]
    simp only [afterResponse, afterAcmd41, isReady_valid, decide_eq_true_eq]
    split <;> rfl
  · rw [exec_r1Valid_own hs]
    simp only [afterResponse, afterLoop, isReady_valid, decide_eq_true_eq]
    split <;> rfl

/-- Settles O32: `afterCmd58` reads the OCR by `latchOcr_bytes` after a response of 0, and BLOCK is bit 6 of its first byte. -/
theorem ocrResponse : Obligations.OcrResponse := by
  unfold Obligations.OcrResponse
  intro flags s hs
  rw [exec_r1Valid_own hs]
  simp only [afterResponse, afterCmd58, isReady_valid, decide_eq_true_eq]
  refine ⟨fun h0 => ?_, fun h0 => ?_⟩
  · subst h0
    obtain ⟨o0, o1, o2, o3, b, hocr, htrace, hbus⟩ :=
      latchOcr_bytes { s with work := { s.work with res := some (0#1 ++ 0#7) } }
    have hty : sd2Type [o0, o1, o2, o3] = if o0.getLsbD 6 then 0x0C#8 else 0x04#8 := by
      rw [sd2Type, ocrBlock_bit]
      rfl
    refine ⟨_, o0, o1, o2, o3, rfl, ?_⟩
    simp only [if_true, hocr, ocrOf, Option.getD_some, hty]
    exact ⟨rfl, rfl, htrace, hbus.cs, hbus.tOp, hbus.tRdy, .of_clk hbus.clk rfl, .of_eq rfl⟩
  · rw [if_neg h0]
    rfl

/-- Settles O33: `afterProbe` compares the response with 1, `afterCmd16` with 0. -/
theorem legacyBranchResponses : Obligations.LegacyBranchResponses := by
  unfold Obligations.LegacyBranchResponses
  intro flags s
  refine ⟨fun hs => ?_, fun hs => ?_⟩
  · rw [exec_r1Valid_own hs]
    simp only [afterResponse, afterProbe, idleOrReady_valid, decide_eq_true_eq]
    split <;> rfl
  · rw [exec_r1Valid_own hs]
    simp only [afterResponse, afterCmd16, isReady_valid, decide_eq_true_eq]
    split <;> rfl

end Sys2Proof.Machine
end

section

/-! PROOF of O60. INIT with no card (R195, R290), stage by stage over a script of 0xFF bytes: the power-up step takes ten of
them, CMD0 nine, its ten silent polls ten, and the finalisation's deselect the last. -/

namespace Sys2Proof.Machine

/-! ## The stages over a script (log 5) -/

/-- The power-up step takes its ten dummy bytes from the script (R128, R183). -/
theorem powerUp_script {s : State} {rx later : List Byte} (h : s.bus.env.rxIn = rx ++ later) (hl : rx.length = 10) :
    (powerUp s).bus.env.rxIn = later ∧ (powerUp s).trace = s.trace ++ .clk .slow :: rx.map fun r => .x fill r := by
  obtain ⟨hrest, htrace⟩ := discardMany_script 10 rx later (setClock .slow s.bus) h hl
  refine ⟨hrest, htrace.trans ?_⟩
  rw [setClock_trace, List.append_assoc]
  rfl

/-- The events of `deselect(); select()` on a card that is ready at the first poll of the wait (R125-R127, R142). -/
def readyReselection (a0 a1 : Byte) : List Event :=
  [.cs .deasserted, .x fill a0, .cs .asserted, .x fill a1, .tstart .rdy 500, .x fill 0xFF#8]

/-- A command but CMD12 on a card that is ready at once: the reselection takes three bytes of the script and the frame six,
and its poll is next (R142, R144). -/
theorem issueAt_script {site : Site} {e : Bool} {idx : BitVec 6} {arg : Word} {s : State} {a0 a1 : Byte}
    {rx later : List Byte} (h12 : idx ≠ 12#6) (h : s.bus.env.rxIn = a0 :: a1 :: 0xFF#8 :: (rx ++ later))
    (hl : rx.length = 6) :
    ∃ b, issueAt site e idx arg s = { s with seq := .poll site e, work := { s.work with n := some 10 }, bus := b } ∧
      b.env.rxIn = later ∧ b.clk = s.bus.clk ∧
      b.trace = s.trace ++ readyReselection a0 a1 ++ List.zipWith .x (frameBytes idx arg) rx := by
  obtain ⟨hok, hrx, htrace⟩ := reselect_script idx s.bus a0 a1 (rx ++ later) h12 h
  obtain ⟨hclk, -, -⟩ := reselect_lines idx s.bus h12
  have hsend : sendFrame idx arg (reselect idx s.bus).2 = sendBytes (frameBytes idx arg) (reselect idx s.bus).2 := if_neg h12
  obtain ⟨hlater, hframe⟩ := sendBytes_script (frameBytes idx arg) rx later _ hrx hl
  refine ⟨sendFrame idx arg (reselect idx s.bus).2, by rw [issueAt, if_pos hok]; rfl, ?_, ?_, ?_⟩
  · rw [hsend, hlater]
  · rw [(sendFrame_only idx arg _).clk, hclk]
  · rw [hsend, hframe, htrace]
    rfl

/-! ## A silent poll (R146) -/

theorem step_poll_of_script {s : State} {site : Site} {e : Bool} {r : Byte} {later : List Byte}
    (hp : overlapPending s = false) (hs : s.seq = .poll site e) (h : s.bus.env.rxIn = r :: later)
    (hbit : r.getLsbD 7 = true) : step s = .next (pollMissed site e r (pollExchange s).2) := by
  have hr : (xchg fill s.bus).1 = r := (drawByte_of_script h).1
  rw [step_poll hp hs, hr, if_pos hbit]

theorem pollExchange_of_script {s : State} {r : Byte} {later : List Byte} (h : s.bus.env.rxIn = r :: later) :
    (pollExchange s).2.bus.env.rxIn = later ∧ (pollExchange s).2.trace = s.trace ++ [.x fill r] := by
  obtain ⟨hr, hl⟩ := drawByte_of_script h
  refine ⟨hl, (xchg_trace fill s.bus).trans ?_⟩
  rw [hr]
  rfl

/-- What a run of poll exchanges leaves as it was, its bytes on the trace and `later` left of the script. -/
structure PolledSilent (s u : State) (polls : ℕ) (later : List Byte) : Prop where
  untouched : Untouched s u
  mem : u.mem = s.mem
  ty : u.work.ty = s.work.ty
  rxIn : u.bus.env.rxIn = later
  trace : u.trace = s.trace ++ List.replicate polls (.x fill 0xFF#8)

theorem PolledSilent.trans {s t u : State} {m n : ℕ} {rest later : List Byte} (h : PolledSilent s t m rest)
    (k : PolledSilent t u n later) : PolledSilent s u (m + n) later :=
  ⟨h.untouched.trans k.untouched, k.mem.trans h.mem, k.ty.trans h.ty, k.rxIn,
    by rw [k.trace, h.trace, List.append_assoc, List.replicate_add]⟩

theorem PolledSilent.exchange {s : State} {later : List Byte} (h : s.bus.env.rxIn = 0xFF#8 :: later) :
    PolledSilent s (pollExchange s).2 1 later := by
  obtain ⟨hrx, htrace⟩ := pollExchange_of_script h
  exact ⟨.of_clk rfl rfl, rfl, rfl, hrx, htrace⟩

/-- While exchanges are left after it a silent byte leaves the poll where it was, with one exchange fewer (R146). -/
theorem step_silent_poll {s : State} {site : Site} {e : Bool} {k : ℕ} {later : List Byte} (hp : overlapPending s = false)
    (hs : s.seq = .poll site e) (hn : s.work.n = some (k + 2)) (h : s.bus.env.rxIn = 0xFF#8 :: later) :
    ∃ t, step s = .next t ∧ PolledSilent s t 1 later ∧ t.seq = .poll site e ∧ t.work.n = some (k + 1) := by
  have hn' : (pollExchange s).2.work.n = some (k + 1) := by rw [pollExchange_of hn]
  have hleft : (pollExchange s).2.work.nVal ≠ 0 := by rw [Work.nVal, hn']; exact Nat.succ_ne_zero k
  have hstep := step_poll_of_script hp hs h rfl
  rw [pollMissed_of_left hleft] at hstep
  obtain ⟨hu, hm, hty, hrx, htrace⟩ := PolledSilent.exchange h
  exact ⟨_, hstep, ⟨hu.trans (.of_clk rfl rfl), hm, hty, hrx, htrace⟩, hs, hn'⟩

/-- The last exchange's byte is the answer (R146). -/
theorem step_last_silent_poll {s : State} {site : Site} {e : Bool} {later : List Byte} (hp : overlapPending s = false)
    (hs : s.seq = .poll site e) (hn : s.work.n = some 1) (h : s.bus.env.rxIn = 0xFF#8 :: later) :
    ∃ u, step s = .next (respond site e 0xFF#8 u) ∧ PolledSilent s u 1 later := by
  have hlast : (pollExchange s).2.work.nVal = 0 := by rw [pollExchange_of hn]; rfl
  have hstep := step_poll_of_script hp hs h rfl
  rw [pollMissed_of_last hlast] at hstep
  exact ⟨_, hstep, .exchange h⟩

/-- A poll whose every byte is 0xFF answers 0xFF after the last of the exchanges left (R146). -/
theorem run_silent_poll {site : Site} {e : Bool} {later : List Byte} (k : ℕ) {s : State} (hp : overlapPending s = false)
    (hs : s.seq = .poll site e) (hn : s.work.n = some (k + 1))
    (h : s.bus.env.rxIn = List.replicate (k + 1) 0xFF#8 ++ later) :
    ∃ u, PolledSilent s u (k + 1) later ∧
      ∀ m, Host.Core.run Sys2Proof.core (m + (k + 1)) s = Host.Core.run Sys2Proof.core m (respond site e 0xFF#8 u) := by
  induction k generalizing s with
  | zero =>
    obtain ⟨u, hstep, hu⟩ := step_last_silent_poll hp hs hn h
    exact ⟨u, hu, fun m => run_succ_of_next hstep m⟩
  | succ k ih =>
    obtain ⟨t, hstep, ht, hseq, hleft⟩ := step_silent_poll hp hs hn h
    obtain ⟨u, hu, hrun⟩ := ih ((overlapPending_of_host ht.untouched.host).trans hp) hseq hleft ht.rxIn
    refine ⟨u, ?_, fun m => (run_succ_of_next hstep (m + (k + 1))).trans (hrun m)⟩
    rw [Nat.add_comm (k + 1) 1]
    exact ht.trans hu

/-! ## An INIT whose CMD0 meets silence (R195) -/

/-- A silent CMD0 is not the response 1: the finalisation is next (R182, R195). -/
theorem respond_cmd0_silent (s : State) :
    respond .initCmd0 false 0xFF#8 s = { s with seq := .initEnd, work := { s.work with res := some 0xFF#8 } } := rfl

/-- Without a card type the whole finalisation takes one byte of the script (R125, R192). -/
theorem step_initEnd_script {s : State} {r : Byte} {later : List Byte} (hp : overlapPending s = false)
    (hs : s.seq = .initEnd) (hty : s.work.ty = some 0#8) (h : s.bus.env.rxIn = r :: later) :
    ∃ b, step s = .next (returnValue (s.status ||| 0x01#8)
        { s with cardType := 0#8, bus := b, status := s.status ||| 0x01#8 }) ∧
      b.env.rxIn = later ∧ b.clk = s.bus.clk ∧ b.cs = .deasserted ∧ b.trace = s.trace ++ [.cs .deasserted, .x fill r] := by
  obtain ⟨hr, hl⟩ := drawByte_of_script h
  refine ⟨deselect s.bus, by rw [step_initEnd hp hs, finishInit_of_no_type hty], hl, rfl, rfl, ?_⟩
  rw [deselect_trace, hr]
  rfl

/-- A card that answers CMD0 with silence alone ends INIT twelve steps later, with one byte more for the deselect (R146, R182,
R195). -/
theorem run_silent_cmd0 {s : State} {later : List Byte} (hp : overlapPending s = false) (hs : s.seq = .frame .initCmd0)
    (hty : s.work.ty = some 0#8) (h : s.bus.env.rxIn = List.replicate 20 0xFF#8 ++ later) :
    ∃ t, Host.Core.run Sys2Proof.core 12 s = .next t ∧ t.result = some (s.status ||| 0x01#8) ∧
      t.status = s.status ||| 0x01#8 ∧ t.cardType = 0#8 ∧ t.seq = .idle ∧ t.bus.clk = s.bus.clk ∧
      t.bus.cs = .deasserted ∧ t.mem = s.mem ∧ t.bus.env.rxIn = later ∧
      t.trace = s.trace ++ readyReselection 0xFF#8 0xFF#8 ++
        List.zipWith .x (frameBytes 0 0) (List.replicate 6 0xFF#8) ++ List.replicate 10 (.x fill 0xFF#8) ++
        [.cs .deasserted, .x fill 0xFF#8] := by
  obtain ⟨b, hissue, hrx, hclk, htrace⟩ := issueAt_script (site := .initCmd0) (e := false) (idx := 0) (arg := 0) (s := s)
    (rx := List.replicate 6 0xFF#8) (later := List.replicate 11 0xFF#8 ++ later) (by decide) h rfl
  have hframe : step s = .next { s with seq := .poll .initCmd0 false, work := { s.work with n := some 10 }, bus := b } := by
    rw [step_frame_exec hp hs, ← hissue]
    exact issue_frame hs 0 0
  obtain ⟨u, hu, hpolls⟩ := run_silent_poll (site := .initCmd0) (e := false) (later := 0xFF#8 :: later) 9
    (s := { s with seq := .poll .initCmd0 false, work := { s.work with n := some 10 }, bus := b }) hp rfl rfl hrx
  simp only [respond_cmd0_silent] at hpolls
  obtain ⟨hunt, hmem, htyu, hrxu, htru⟩ := hu
  obtain ⟨b', hend, hlater, hclk', hcs, htr'⟩ := step_initEnd_script
    (s := { u with seq := .initEnd, work := { u.work with res := some 0xFF#8 } })
    ((overlapPending_of_host hunt.host).trans hp) rfl (htyu.trans hty) hrxu
  refine ⟨_, (run_succ_of_next hframe 11).trans ((hpolls 1).trans (run_succ_of_next hend 0)), ?_, ?_, rfl, rfl,
    hclk'.trans (hunt.clk.trans hclk), hcs, hmem, hlater, ?_⟩
  · exact congrArg (fun v => some (v ||| 0x01#8)) hunt.driver.1
  · exact congrArg (· ||| 0x01#8) hunt.driver.1
  · have hpolled : u.bus.trace = b.trace ++ List.replicate 10 (.x fill 0xFF#8) := htru
    rw [State.trace, returnValue_bus, htr', State.trace, hpolled, htrace]

/-- Settles O60: the power-up step of `powerUp_script`, then the silent CMD0 of `run_silent_cmd0`. -/
theorem absentCardInitFails : Obligations.AbsentCardInitFails := by
  unfold Obligations.AbsentCardInitFails
  intro s bytes more later hi hh hd hrx
  have hcall : step s = .next (powerUp (beginCall { s with host := [] })) :=
    (idleStepRunsHostCall s bytes more [] _ hi (.inl hh) hd (.inl fun _ _ => nofun)).trans (exec_init_drive0 hi)
  obtain ⟨hrx1, htr1⟩ := powerUp_script (s := beginCall { s with host := [] }) (rx := List.replicate 10 0xFF#8)
    (later := List.replicate 20 0xFF#8 ++ later) hrx rfl
  obtain ⟨t, hrun, hres, hst, hct, hseq, hclk, hcs, hmem, hlater, htrace⟩ :=
    run_silent_cmd0 (s := powerUp (beginCall { s with host := [] })) rfl rfl rfl hrx1
  refine ⟨t, (run_succ_of_next hcall 12).trans hrun, hres, hst, hct, hseq, hclk.trans (powerUp_clk _), hcs, .of_eq hmem,
    hlater, ?_⟩
  rw [htrace, htr1]
  rfl

end Sys2Proof.Machine
end

section

/-! PROOF of O15, O16, O17, O18. The first step of READ and WRITE (R210-R212, R217): each check says its error by the bits of
`status`, and past them the transfer is loaded with nothing on the bus. -/

namespace Sys2Proof.Machine

/-! ## The checks (R211, R217) -/

/-- READ's checks, ParamError before NotReady (R211). -/
theorem readCheck_eq (drive : Byte) (count : Word) (s : State) :
    readCheck drive count s =
      if drive ≠ 0#8 ∨ count = 0#32 then some 4#8 else if s.status.getLsbD 0 then some 3#8 else none := by
  simp only [readCheck, isNotInitialized_bit]
  rfl

/-- WRITE's checks are READ's, then WriteProtected (R217, R265). -/
theorem writeCheck_eq (drive : Byte) (count : Word) (s : State) :
    writeCheck drive count s =
      if drive ≠ 0#8 ∨ count = 0#32 then some 4#8 else if s.status.getLsbD 0 then some 3#8
      else if s.status.getLsbD 2 then some 2#8 else none := by
  simp only [writeCheck, readCheck_eq, isWriteProtected_bit]
  split_ifs <;> rfl

theorem exec_read_rejected {drive err : Byte} {count : Word} {s : State} (hi : s.seq = .idle)
    (h : readCheck drive count s = some err) (b : Buf) (sector : Word) :
    exec (.read drive b sector count) s = .next (returnValue err (beginCall s)) := by
  have h' : readCheck drive count (beginCall s) = some err := h
  simp only [exec, execRead, atIdle, hi, h']

theorem exec_write_rejected {drive err : Byte} {count : Word} {s : State} (hi : s.seq = .idle)
    (h : writeCheck drive count s = some err) (b : Buf) (sector : Word) :
    exec (.write drive b sector count) s = .next (returnValue err (beginCall s)) := by
  have h' : writeCheck drive count (beginCall s) = some err := h
  simp only [exec, execWrite, atIdle, hi, h']

/-- A host operation that a check turns away has put nothing on the bus and written no memory. -/
theorem returnValue_beginCall_frame (v : Byte) (s : State) :
    Returned s (returnValue v (beginCall s)) v ∧ (returnValue v (beginCall s)).trace = [] ∧
      (returnValue v (beginCall s)).bus.cs = s.bus.cs ∧ (returnValue v (beginCall s)).bus.tOp = s.bus.tOp ∧
      (returnValue v (beginCall s)).bus.tRdy = s.bus.tRdy ∧ (returnValue v (beginCall s)).bus.env = s.bus.env ∧
      SameMemory s (returnValue v (beginCall s)) :=
  ⟨⟨rfl, rfl, rfl, rfl, ⟨rfl, rfl⟩, rfl, rfl, rfl⟩, rfl, rfl, rfl, rfl, rfl, .of_eq rfl⟩

/-- Settles O15: the checks of `readCheck_eq`, each of which returns its error over the bus as it was. -/
theorem readChecks : Obligations.ReadChecks := by
  unfold Obligations.ReadChecks
  intro drive b sector count s hi hbad
  have hcheck : readCheck drive count s = some (if drive ≠ 0#8 ∨ count = 0#32 then 4#8 else 3#8) := by
    rw [readCheck_eq]
    split_ifs with hparam hready
    · rfl
    · rfl
    · tauto
  exact ⟨_, exec_read_rejected hi hcheck b sector, returnValue_beginCall_frame _ s⟩

/-- Settles O17: the checks of `writeCheck_eq`, each of which returns its error over the bus as it was. -/
theorem writeChecks : Obligations.WriteChecks := by
  unfold Obligations.WriteChecks
  intro drive b sector count s hi hbad
  have hcheck : writeCheck drive count s =
      some (if drive ≠ 0#8 ∨ count = 0#32 then 4#8 else if s.status.getLsbD 0 then 3#8 else 2#8) := by
    rw [writeCheck_eq]
    split_ifs with hparam hready hprot
    · rfl
    · rfl
    · rfl
    · tauto
  exact ⟨_, exec_write_rejected hi hcheck b sector, returnValue_beginCall_frame _ s⟩

/-! ## A transfer begins (R210, R212, R217) -/

theorem exec_read_begins {count : Word} {s : State} (hi : s.seq = .idle) (hc : count ≠ 0#32)
    (hst : s.status.getLsbD 0 = false) (b : Buf) (sector : Word) :
    exec (.read 0#8 b sector count) s = .next (call (readSite count) (loadTransfer b sector count (beginCall s))) := by
  have hcheck : readCheck 0#8 count (beginCall s) = none := by
    simp only [readCheck_eq, beginCall_status, hc, hst, ne_eq, not_true_eq_false, or_self, Bool.false_eq_true, if_false]
  simp only [exec, execRead, atIdle, hi, hcheck]

theorem exec_write_begins {count : Word} {s : State} (hi : s.seq = .idle) (hc : count ≠ 0#32)
    (hst : s.status.getLsbD 0 = false) (hwp : s.status.getLsbD 2 = false) (b : Buf) (sector : Word) :
    exec (.write 0#8 b sector count) s =
      .next (call (writeSite s.cardType count) (loadTransfer b sector count (beginCall s))) := by
  have hcheck : writeCheck 0#8 count (beginCall s) = none := by
    simp only [writeCheck_eq, beginCall_status, hc, hst, hwp, ne_eq, not_true_eq_false, or_self, Bool.false_eq_true,
      if_false]
  simp only [exec, execWrite, atIdle, hi, hcheck]
  rfl

theorem callSite_readSite (count : Word) (w : Work) :
    callSite (readSite count) w = .frame (if count = 1#32 then .readCmd17 else .readCmd18) := by
  simp only [readSite]
  split <;> rfl

/-- Of WRITE's commands only ACMD23 is sent behind CMD55 (R141, R221). -/
theorem callSite_writeSite (cardType : Byte) (count : Word) (w : Work) :
    callSite (writeSite cardType count) w =
      if count = 1#32 then .frame .writeCmd24
      else if cardType.getLsbD 1 || cardType.getLsbD 2 then .escape .writeAcmd23 else .frame .writeCmd25 := by
  simp only [writeSite, isSd_bits]
  split_ifs <;> rfl

/-- The registers a transfer begins with, the address as a number (R212). -/
theorem loadTransfer_begun_work (b : Buf) (sector count : Word) (s : State) :
    (loadTransfer b sector count (beginCall s)).work = { s.work with
      addr := some (if s.cardType.getLsbD 3 then sector else BitVec.ofNat 32 (sector.toNat * 512))
      cnt := some count
      ptr := some 0 } := by
  rw [loadTransfer_work, beginCall_cardType, convert_eq]
  rfl

/-- Settles O16: `exec_read_begins`, with `callSite_readSite` for the label and `loadTransfer_begun_work` for the registers. -/
theorem readBegins : Obligations.ReadBegins := by
  unfold Obligations.ReadBegins
  intro b sector count s hi hc hst
  exact ⟨_, exec_read_begins hi hc hst b sector, callSite_readSite count _, loadTransfer_begun_work b sector count s, rfl,
    rfl, rfl, rfl, rfl, rfl, rfl, rfl, ⟨rfl, rfl⟩, .of_eq rfl, rfl, rfl⟩

/-- Settles O18: `exec_write_begins`, with `callSite_writeSite` for the label and `loadTransfer_begun_work` for the registers. -/
theorem writeBegins : Obligations.WriteBegins := by
  unfold Obligations.WriteBegins
  intro b sector count s hi hc hst hwp
  exact ⟨_, exec_write_begins hi hc hst hwp b sector, callSite_writeSite s.cardType count _,
    loadTransfer_begun_work b sector count s, rfl, rfl, rfl, rfl, rfl, rfl, rfl, rfl, ⟨rfl, rfl⟩, .of_eq rfl, rfl, rfl⟩

end Sys2Proof.Machine
end

section

/-! PROOF of O34, O37, O38, O39. Receiving (R213-R216, R243): the token wait that a response of 0 starts, the two ways a byte
that is not the token takes, and the block written after it. -/

namespace Sys2Proof.Machine

/-! ## After the command (R213, R214, R243) -/

/-- The three commands that read a data block wait for its token after a response of 0, and end their operation after any
other. -/
theorem afterResponse_reader {site : Site} {use : RecvUse} {failed : Seq}
    (h : (site, use, failed) ∈ [(Site.readCmd17, RecvUse.single, Seq.ioEnd), (.readCmd18, .multi, .ioEnd),
      (.countCmd9, .csd, .countEnd false)]) (r : Byte) (s : State) :
    afterResponse site r s = if isReady r then enterToken use s else goto failed s := by
  simp only [List.mem_cons, List.not_mem_nil, or_false, Prod.mk.injEq] at h
  obtain ⟨rfl, rfl, rfl⟩ | ⟨rfl, rfl, rfl⟩ | ⟨rfl, rfl, rfl⟩ := h <;> rfl

/-- Settles O34: `afterResponse_reader` on either side of the comparison with 0; CMD12's rule reads no response. -/
theorem readCommandResponse : Obligations.ReadCommandResponse := by
  unfold Obligations.ReadCommandResponse
  intro flags s
  refine ⟨fun site use failed hmem hs => ?_, fun hs => exec_r1Valid_own hs flags⟩
  refine ⟨_, exec_r1Valid_own hs flags, ?_⟩
  simp only [afterResponse_reader hmem, isReady_valid, decide_eq_true_eq]
  split
  · exact ⟨rfl, .of_clk (timerStart_clk .op 200 s.bus) rfl, .of_eq rfl, timerStart_cs .op 200 s.bus,
      timerStart_op_tRdy 200 s.bus, rfl, timerStart_trace .op 200 s.bus, timerStart_op_tOp 200 s.bus⟩
  · exact ⟨rfl, .of_clk rfl rfl, .of_eq rfl, rfl, rfl, rfl, rfl⟩

/-! ## A byte that is not the token (R215) -/

theorem receiveFailed_work (use : RecvUse) (s : State) : (receiveFailed use s).work = s.work := by cases use <;> rfl

theorem receiveFailed_bus (use : RecvUse) (s : State) : (receiveFailed use s).bus = s.bus := by cases use <;> rfl

/-- Under `FF_ONLY` a byte other than 0xFF fails the wait with no query. -/
theorem tokenMissed_of_stop {tok : Byte} {s : State} (h : s.tokenWaitMode = .ffOnly ∧ tok ≠ 0xFF#8) (use : RecvUse) :
    tokenMissed use tok s = receiveFailed use s := by
  simp only [tokenMissed, endsTokenWait, decide_eq_true h, if_true]

/-- Any other byte queries the deadline, whose answer is said by its draw (log 6). -/
theorem tokenMissed_of_query {tok : Byte} {s : State} {d : Deadline} (h : ¬(s.tokenWaitMode = .ffOnly ∧ tok ≠ 0xFF#8))
    (hd : s.bus.tOp = some d) (use : RecvUse) :
    tokenMissed use tok s =
      if d.falseLeft = 0 then receiveFailed use { s with bus := (expired .op s.bus).2 }
      else { s with bus := (expired .op s.bus).2 } := by
  obtain ⟨hans, -⟩ := expired_of_deadline (t := .op) (b := s.bus) hd
  simp only [tokenMissed, endsTokenWait, decide_eq_false h, hans, decide_eq_true_eq, Bool.false_eq_true, if_false]

/-- Where a failed reception leads (R213, R214, R243). -/
theorem receiveFailed_seq (use : RecvUse) (s : State) :
    (receiveFailed use s).seq =
      (match use with | .single => .ioEnd | .multi => .frame .readCmd12 | .csd => .countEnd false) := by
  cases use <;> rfl

/-- Failing or not, a missed token leaves the registers and the card selected; a query does not reach `T_RDY`. -/
theorem tokenMissed_frame (use : RecvUse) (tok : Byte) (s : State) :
    (tokenMissed use tok s).work = s.work ∧ (tokenMissed use tok s).bus.cs = s.bus.cs ∧
      (tokenMissed use tok s).bus.tRdy = s.bus.tRdy := by
  simp only [tokenMissed]
  split
  · simp only [receiveFailed_work, receiveFailed_bus, and_self]
  · split <;> simp only [receiveFailed_work, receiveFailed_bus, expired_cs, expired_op_tRdy, and_self]

/-- Settles O37: the step is `tokenMissed` over the state after the exchange, which fails the wait or asks the deadline. -/
theorem tokenWaitGoesOn : Obligations.TokenWaitGoesOn := by
  unfold Obligations.TokenWaitGoesOn
  intro s use r d hp hs hx hr hd
  subst hx
  have hstep : step s = .next (tokenMissed use (xchg 0xFF#8 s.bus).1 (tokenExchange s).2) :=
    (step_token hp hs).trans (if_neg hr)
  have hu : Untouched s (tokenExchange s).2 := .of_clk rfl rfl
  have htrace : (tokenExchange s).2.trace = s.trace ++ [.x 0xFF#8 (xchg 0xFF#8 s.bus).1] := xchg_trace fill s.bus
  obtain ⟨hwork, hcs, hrdy⟩ := tokenMissed_frame use (xchg 0xFF#8 s.bus).1 (tokenExchange s).2
  refine ⟨_, hstep, hwork, hu.trans (tokenMissed_untouched use _ _), .of_eq (tokenMissed_mem use _ _), hcs, hrdy, ?_⟩
  split
  case isTrue hstop =>
    rw [tokenMissed_of_stop (s := (tokenExchange s).2) hstop]
    exact ⟨by rw [State.trace, receiveFailed_bus]; exact htrace, receiveFailed_seq use _⟩
  case isFalse hgoes =>
    obtain ⟨-, hquery, -⟩ := expired_of_deadline (t := .op) (b := (tokenExchange s).2.bus) hd
    rw [tokenMissed_of_query (s := (tokenExchange s).2) hgoes hd]
    have hboth : (expired .op (tokenExchange s).2.bus).2.trace =
        s.trace ++ [.x 0xFF#8 (xchg 0xFF#8 s.bus).1, .exp .op (decide (d.falseLeft = 0))] := by
      rw [hquery, ← State.trace, htrace, List.append_assoc]
      rfl
    split
    · exact ⟨by rw [State.trace, receiveFailed_bus]; exact hboth, receiveFailed_seq use _⟩
    · exact ⟨hboth, hs⟩

/-! ## A block (R62, R216) -/

theorem receiveData_single_of_fits {s : State} (h : inBuffer (bufOf s) s.work.ptrVal Config.blockSize = true) :
    receiveData .single s = .next (receiveBlock .single s) := by
  simp only [receiveData, if_pos h]

theorem receiveData_multi_of_fits {s : State} (h : inBuffer (bufOf s) s.work.ptrVal Config.blockSize = true) :
    receiveData .multi s = .next (receiveBlock .multi s) := by
  simp only [receiveData, if_pos h]

/-- A block at `buf + ptr` that ends within the buffer. -/
theorem inBuffer_block_of_fits {s : State} {b : Buf} {p : ℕ} (hb : s.buf = some b) (hptr : s.work.ptr = some p)
    (h : p + 512 ≤ b.len.toNat) : inBuffer (bufOf s) s.work.ptrVal Config.blockSize = true := by
  rw [inBuffer_of hb, ptrVal_of hptr]
  exact decide_eq_true h

/-- Bytes written from an address on are what is read there, and no other address reads differently. -/
theorem read_writeBytes (m : Memory) (a : ℕ) {bs : List Byte} {n : ℕ} (hl : bs.length = n) :
    (∀ i (h : i < bs.length), (m.writeBytes a bs).read (a + i) = bs[i]) ∧
      ∀ a', (a' < a ∨ a + n ≤ a') → (m.writeBytes a bs).read a' = m.read a' :=
  ⟨Memory.read_writeBytes_inside bs m a, fun a' ha => Memory.read_writeBytes_outside bs m a a' (hl ▸ ha)⟩

/-- Settles O38: the block of `receiveBlock_single`, written at `buf + ptr`. -/
theorem singleBlockReceived : Obligations.SingleBlockReceived := by
  unfold Obligations.SingleBlockReceived
  intro s b p hs hb hptr hfits
  have hexec : exec .tokenStartBlock s = .next (receiveBlock .single s) :=
    (exec_tokenStartBlock_token hs).trans (receiveData_single_of_fits (inBuffer_block_of_fits hb hptr hfits))
  obtain ⟨payload, b', c0, c1, hlen, hbus, htrace, hblock⟩ := receiveBlock_single s
  rw [bufAddr_of hb, ptrVal_of hptr] at hblock
  rw [hblock] at hexec
  obtain ⟨hin, hout⟩ := read_writeBytes s.mem (b.base.toNat + p) hlen
  exact ⟨_, payload, c0, c1, hexec, hlen, htrace, hin, hout, rfl, rfl, .of_clk hbus.clk rfl, hbus.cs, hbus.tOp, hbus.tRdy⟩

/-- Settles O39: the block of `receiveBlock_multi`, written at `buf + ptr`; the count decides what is next. -/
theorem multiBlockReceived : Obligations.MultiBlockReceived := by
  unfold Obligations.MultiBlockReceived
  intro s b p n hs hb hptr hcnt hfits
  have hexec : exec .tokenStartBlock s = .next (receiveBlock .multi s) :=
    (exec_tokenStartBlock_token hs).trans (receiveData_multi_of_fits (inBuffer_block_of_fits hb hptr hfits))
  have hu := receiveBlock_multi_untouched s
  obtain ⟨payload, b', c0, c1, hlen, hbus, htrace, hblock⟩ := receiveBlock_multi s
  have hn : s.work.cntVal = n := by rw [Work.cntVal, hcnt, Option.getD_some]
  rw [bufAddr_of hb, ptrVal_of hptr, hn] at hblock
  rw [hblock] at hexec hu
  obtain ⟨hin, hout⟩ := read_writeBytes s.mem (b.base.toNat + p) hlen
  refine ⟨_, payload, c0, c1, hexec, hlen, hin, hout, rfl, hu, ?_⟩
  by_cases h1 : n = 1#32
  · simp only [if_pos h1]
    exact ⟨hbus.cs, hbus.tRdy, trivial, hbus.tOp, htrace⟩
  · simp only [if_neg h1]
    refine ⟨(timerStart_cs .op 200 b').trans hbus.cs, (timerStart_op_tRdy 200 b').trans hbus.tRdy, trivial,
      timerStart_op_tOp 200 b', (timerStart_trace .op 200 b').trans ?_⟩
    rw [htrace, List.append_assoc]
    rfl

end Sys2Proof.Machine
end

section

/-! PROOF of O35, O43, O44, O47. Sending (R217-R222) and the ends of a transfer (R223, R248): a packet and the stop token stand
behind a ready wait, whose timeout sends nothing. -/

namespace Sys2Proof.Machine

/-! ## After the command (R220, R221) -/

/-- Settles O35: `afterCmd24` and `afterCmd25` compare the response with 0, `afterAcmd23` reads none. -/
theorem writeCommandResponse : Obligations.WriteCommandResponse := by
  unfold Obligations.WriteCommandResponse
  intro flags s
  refine ⟨fun hs => ?_, fun hs => ?_, fun hs => exec_r1Valid_own hs flags⟩
  · rw [exec_r1Valid_own hs]
    simp only [afterResponse, afterCmd24, isReady_valid, decide_eq_true_eq]
    split <;> rfl
  · rw [exec_r1Valid_own hs]
    simp only [afterResponse, afterCmd25, isReady_valid, decide_eq_true_eq]
    split <;> rfl

/-! ## The data packet (R218) -/

theorem transmitData_of_ready {s : State} (hin : inBuffer (bufOf s) s.work.ptrVal Config.blockSize = true)
    (hw : (waitReady s.bus).1 = true) (token : Byte) (use : XmitUse) :
    transmitData token use s = .next (sendPacket token use { s with bus := (waitReady s.bus).2 }) := by
  simp only [transmitData, if_pos hin, if_pos hw]

/-- A timeout fails the block, whether or not the buffer holds it (log 10). -/
theorem transmitData_of_timeout {s : State} (hw : (waitReady s.bus).1 = false) (token : Byte) (use : XmitUse) :
    transmitData token use s = .next (blockFailed use { s with bus := (waitReady s.bus).2 }) := by
  simp only [transmitData, hw, Bool.false_eq_true, if_false, ite_self]

theorem blockFailed_work (use : XmitUse) (s : State) : (blockFailed use s).work = s.work := by cases use <;> rfl

theorem blockFailed_bus (use : XmitUse) (s : State) : (blockFailed use s).bus = s.bus := by cases use <;> rfl

/-- Where a failed block leads: the stop token follows in a multi-block write (R220, R221). -/
theorem blockFailed_seq (use : XmitUse) (s : State) :
    (blockFailed use s).seq = (match use with | .single => .ioEnd | .multi => .stop) := by
  cases use <;> rfl

/-- Each kind of write sends its own token (R91, R218). -/
theorem exec_xmit {i : Instr} {token : Byte} {use : XmitUse} {s : State}
    (h : (i, token, use) ∈ [(Instr.tokenStartBlock, 0xFE#8, XmitUse.single), (.tokenStartMultiWrite, 0xFC#8, .multi)])
    (hs : s.seq = .xmit use) : exec i s = transmitData token use s := by
  simp only [List.mem_cons, List.not_mem_nil, or_false, Prod.mk.injEq] at h
  obtain ⟨rfl, rfl, rfl⟩ | ⟨rfl, rfl, rfl⟩ := h
  · exact exec_tokenStartBlock_xmit hs
  · exact exec_tokenStartMultiWrite_xmit hs

/-- Settles O43: the two outcomes of the ready wait, `transmitData_of_ready` with `sendPacket_spec`, and
`transmitData_of_timeout`. -/
theorem packetSent : Obligations.PacketSent := by
  unfold Obligations.PacketSent
  intro i token use s b p hmem hs hb hptr hfits
  have hexec := exec_xmit hmem hs
  obtain ⟨ready, hready, hwait⟩ := waitReady_events s.bus
  obtain ⟨hcs, hclk, hop⟩ := waitReady_lines s.bus
  cases hw : (waitReady s.bus).1 with
  | true =>
    have hin : inBuffer (bufOf s) s.work.ptrVal Config.blockSize = true :=
      inBuffer_block_of_fits hb hptr (hfits.resolve_right (by simp [hw]))
    obtain ⟨payload, es, b', hlen, hread, hes, hbus, htrace, hsent⟩ :=
      sendPacket_spec token use { s with bus := (waitReady s.bus).2 }
    have haddr : bufAddr (bufOf s) s.work.ptrVal = b.base.toNat + p := by rw [bufAddr_of hb, ptrVal_of hptr]
    rw [transmitData_of_ready hin hw, hsent] at hexec
    refine ⟨_, true, ready, hexec, rfl, hw ▸ hready, .of_clk (hbus.clk.trans hclk) rfl, .of_eq rfl, hbus.cs.trans hcs,
      hbus.tOp.trans hop, rfl, rfl, payload, es, hlen, fun k hk => haddr ▸ hread k hk, hes, ?_⟩
    exact htrace.trans (congrArg (· ++ es) hwait)
  | false =>
    rw [transmitData_of_timeout hw] at hexec
    refine ⟨_, false, ready, hexec, rfl, hw ▸ hready, transmitData_untouched (transmitData_of_timeout hw token use),
      .of_eq (blockFailed_mem use _), ?_, ?_, blockFailed_work use _, ?_, blockFailed_seq use _⟩
    · rw [blockFailed_bus]; exact hcs
    · rw [blockFailed_bus]; exact hop
    · rw [State.trace, blockFailed_bus]; exact hwait

/-! ## The stop token (R222) -/

theorem transmitStop_of_ready {s : State} (hw : (waitReady s.bus).1 = true) :
    transmitStop s = { s with seq := .ioEnd, bus := discard stopToken (waitReady s.bus).2 } := by
  simp only [transmitStop, if_pos hw]
  rfl

theorem transmitStop_of_timeout {s : State} (hw : (waitReady s.bus).1 = false) :
    transmitStop s =
      { s with seq := .ioEnd, work := { s.work with cnt := some 1#32 }, bus := (waitReady s.bus).2 } := by
  simp only [transmitStop, hw, Bool.false_eq_true, if_false]
  rfl

/-- Settles O44: the two outcomes of the ready wait, `transmitStop_of_ready` and `transmitStop_of_timeout`. -/
theorem stopTokenSent : Obligations.StopTokenSent := by
  unfold Obligations.StopTokenSent
  intro s hs
  have hexec : exec .tokenStopTran s = .next (transmitStop s) := by simp only [exec, execTokenStopTran, hs]
  obtain ⟨ready, hready, hwait⟩ := waitReady_events s.bus
  obtain ⟨hcs, hclk, hop⟩ := waitReady_lines s.bus
  cases hw : (waitReady s.bus).1 with
  | true =>
    rw [transmitStop_of_ready hw] at hexec
    refine ⟨_, true, ready, hexec, rfl, hw ▸ hready, .of_clk hclk rfl, .of_eq rfl, hcs, hop, rfl, rfl,
      (drawByte (waitReady s.bus).2.env).1, ?_⟩
    exact (discard_trace stopToken _).trans (congrArg (· ++ _) hwait)
  | false =>
    rw [transmitStop_of_timeout hw] at hexec
    exact ⟨_, false, ready, hexec, rfl, hw ▸ hready, .of_clk hclk rfl, .of_eq rfl, hcs, hop, rfl, rfl, hwait⟩

/-! ## The ends (R223, R248) -/

/-- READ and WRITE end as an ioctl does, with the result their count gives. -/
theorem finishIo_of_count {s : State} {n : Word} (h : s.work.cnt = some n) :
    finishIo s = finishIoctl (if n = 0#32 then 0#8 else 1#8) s := by
  simp only [finishIo, Work.cntVal, h, Option.getD_some, okOrGeneric, decide_eq_true_eq]
  rfl

theorem finishIoctl_returned (v : Byte) (s : State) : Returned s (finishIoctl v s) v :=
  ⟨rfl, rfl, rfl, rfl, ⟨rfl, rfl⟩, rfl, rfl, rfl⟩

/-- Settles O47: both ends are `finishIoctl` with the result. -/
theorem transferEnds : Obligations.TransferEnds := by
  unfold Obligations.TransferEnds
  intro s v hp hend
  have hstep : step s = .next (finishIoctl v s) := by
    obtain ⟨n, hs, hn, rfl⟩ | ⟨ok, hs, rfl⟩ := hend
    · rw [step_ioEnd hp hs, finishIo_of_count hn]
    · exact step_countEnd hp hs
  exact ⟨_, (drawByte s.bus.env).1, hstep, finishIoctl_returned v s, deselect_trace s.bus, rfl, rfl, rfl, .of_eq rfl⟩

end Sys2Proof.Machine
end

section

/-! PROOF of O58, O59. A one-block READ and WRITE of a ready card, stage by stage over its script: the command takes ten bytes of
it, the block its payload and two or three more, and the end one. -/

namespace Sys2Proof.Machine

/-! ## The command (R140-R146) -/

/-- The state in which a command's rule branches on its response, with `later` left of the script. -/
structure AnsweredWith (s u : State) (later : List Byte) : Prop where
  untouched : Untouched s u
  mem : u.mem = s.mem
  ptr : u.work.ptr = s.work.ptr
  rxIn : u.bus.env.rxIn = later

theorem step_poll_ready_script {site : Site} {s : State} {later : List Byte} (hp : overlapPending s = false)
    (hs : s.seq = .poll site false) (h : s.bus.env.rxIn = 0#8 :: later) :
    ∃ u, step s = .next (afterResponse site 0#8 u) ∧ AnsweredWith s u later := by
  obtain ⟨hr, hlater⟩ := drawByte_of_script h
  refine ⟨{ (pollExchange s).2 with work := { (pollExchange s).2.work with res := some 0#8 } }, ?_,
    ⟨.of_clk rfl rfl, rfl, rfl, hlater⟩⟩
  rw [step_poll hp hs, xchg_fst, hr]
  rfl

/-- A card that is ready and answers 0 at the first poll: two steps, and ten bytes of the script, take a command from its frame
to its rule's branch. -/
theorem run_ready_command {site : Site} {s : State} {a0 a1 : Byte} {rx later : List Byte} (hp : overlapPending s = false)
    (hs : s.seq = .frame site) (h12 : site ≠ .readCmd12)
    (h : s.bus.env.rxIn = a0 :: a1 :: 0xFF#8 :: (rx ++ 0#8 :: later)) (hl : rx.length = 6) :
    ∃ u, AnsweredWith s u later ∧
      ∀ m, Host.Core.run Sys2Proof.core (m + 2) s = Host.Core.run Sys2Proof.core m (afterResponse site 0#8 u) := by
  obtain ⟨idx, arg, hframe, -, hidx⟩ := step_frame hp hs
  obtain ⟨b, hissue, hrx, hclk, -⟩ := issueAt_script (site := site) (e := false) (arg := arg) (mt hidx.1 h12) h hl
  rw [hissue] at hframe
  obtain ⟨u, hpoll, hu, hmem, hptr, hlater⟩ := step_poll_ready_script
    (s := { s with seq := .poll site false, work := { s.work with n := some 10 }, bus := b }) hp rfl hrx
  have hsent : Untouched s { s with seq := .poll site false, work := { s.work with n := some 10 }, bus := b } :=
    .of_clk hclk rfl
  exact ⟨u, ⟨hsent.trans hu, hmem, hptr, hlater⟩,
    fun m => (run_succ_of_next hframe (m + 1)).trans (run_succ_of_next hpoll m)⟩

/-! ## The block of a READ (R216) -/

/-- A received block of a single-block read, said by its payload (R213, R216). -/
theorem receiveData_single_eq {s : State} {b : Buf} {p : ℕ} (hb : s.buf = some b) (hptr : s.work.ptr = some p)
    (hfits : p + 512 ≤ b.len.toNat) :
    receiveData .single s = .next { s with
      seq := .ioEnd
      work := { s.work with cnt := some 0#32 }
      mem := s.mem.writeBytes (b.base.toNat + p) (receivePayload Config.blockSize s.bus).1
      bus := (receivePayload Config.blockSize s.bus).2 } := by
  rw [receiveData_single_of_fits (inBuffer_block_of_fits hb hptr hfits)]
  simp only [receiveBlock, blockReceived, clearCount, bufAddr_of hb, ptrVal_of hptr, Machine.goto]

/-- The token and the block after it: the payload goes to `buf + ptr`. -/
theorem step_token_single_script {s : State} {b : Buf} {p : ℕ} {payload later : List Byte} {c0 c1 : Byte}
    (hp : overlapPending s = false) (hs : s.seq = .token .single) (hb : s.buf = some b) (hptr : s.work.ptr = some p)
    (hfits : p + 512 ≤ b.len.toNat) (h : s.bus.env.rxIn = 0xFE#8 :: (payload ++ c0 :: c1 :: later))
    (hl : payload.length = 512) :
    ∃ t, step s = .next t ∧ Untouched s t ∧ t.seq = .ioEnd ∧ t.work.cnt = some 0#32 ∧
      t.mem = s.mem.writeBytes (b.base.toNat + p) payload ∧ t.bus.env.rxIn = later := by
  obtain ⟨hr, hrest⟩ := drawByte_of_script h
  obtain ⟨hpayload, hlater⟩ :=
    receivePayload_script Config.blockSize payload later c0 c1 (tokenExchange s).2.bus hrest hl
  have hstep := step_token hp hs
  rw [xchg_fst, if_pos hr, receiveData_single_eq (s := (tokenExchange s).2) hb hptr hfits, hpayload] at hstep
  exact ⟨_, hstep, .of_clk (receivePayload_only _ (tokenExchange s).2.bus).clk rfl, rfl, rfl, rfl, hlater⟩

/-! ## The packet of a WRITE and its response (R218-R220) -/

theorem payloadOf_of {s : State} {b : Buf} {p : ℕ} (hb : s.buf = some b) (hptr : s.work.ptr = some p) :
    payloadOf s = s.mem.readBytes (b.base.toNat + p) 512 := by
  rw [payloadOf, bufAddr_of hb, ptrVal_of hptr]
  rfl

/-- A ready card takes the packet: its 515 bytes follow the one byte of the ready wait. -/
theorem step_xmit_single_script {s : State} {b : Buf} {p : ℕ} {echo later : List Byte}
    (hp : overlapPending s = false) (hs : s.seq = .xmit .single) (hb : s.buf = some b) (hptr : s.work.ptr = some p)
    (hfits : p + 512 ≤ b.len.toNat) (h : s.bus.env.rxIn = 0xFF#8 :: (echo ++ later)) (hl : echo.length = 515) :
    ∃ t, step s = .next t ∧ Untouched s t ∧ t.seq = .dataResp .single ∧ t.mem = s.mem ∧ t.bus.env.rxIn = later ∧
      t.trace = s.trace ++ [.tstart .rdy 500, .x fill 0xFF#8] ++ List.zipWith .x
        (0xFE#8 :: (s.mem.readBytes (b.base.toNat + p) 512 ++ [0xFF#8, 0xFF#8])) echo := by
  obtain ⟨hw, hrest, hwait⟩ := waitReady_script s.bus _ h
  have hpayload : payloadOf { s with bus := (waitReady s.bus).2 } = s.mem.readBytes (b.base.toNat + p) 512 :=
    payloadOf_of hb hptr
  have hsend := transmitData_of_ready (inBuffer_block_of_fits hb hptr hfits) hw startBlockToken .single
  obtain ⟨hlater, htrace⟩ := sendBytes_script (0xFE#8 :: (s.mem.readBytes (b.base.toNat + p) 512 ++ [0xFF#8, 0xFF#8]))
    echo later (waitReady s.bus).2 hrest (by simp [hl])
  have hbus : (sendPacket startBlockToken .single { s with bus := (waitReady s.bus).2 }).bus =
      sendBytes (0xFE#8 :: (s.mem.readBytes (b.base.toNat + p) 512 ++ [0xFF#8, 0xFF#8])) (waitReady s.bus).2 := by
    rw [sendPacket_bus, hpayload]
    rfl
  refine ⟨_, (step_xmit hp hs).trans hsend, transmitData_untouched hsend, rfl, rfl, ?_, ?_⟩
  · rw [hbus, hlater]
  · rw [State.trace, hbus, htrace, hwait]
    rfl

/-- An accepted response completes the block (R93, R219, R220). -/
theorem step_dataResp_single_script {s : State} {r : Byte} {later : List Byte} (hp : overlapPending s = false)
    (hs : s.seq = .dataResp .single) (h : s.bus.env.rxIn = r :: later) (hr : r.toNat % 32 = 5) :
    ∃ t, step s = .next t ∧ Untouched s t ∧ t.seq = .ioEnd ∧ t.work.cnt = some 0#32 ∧ t.mem = s.mem ∧
      t.bus.env.rxIn = later ∧ t.trace = s.trace ++ [.x 0xFF#8 r] := by
  obtain ⟨hd, hlater⟩ := drawByte_of_script h
  have hstep := step_dataResp hp hs
  rw [xchg_fst, hd, if_pos ((accepted_iff r).2 hr)] at hstep
  refine ⟨_, hstep, .of_clk rfl rfl, rfl, rfl, rfl, hlater, ?_⟩
  rw [← hd]
  exact xchg_trace fill s.bus

/-! ## The end (R223) -/

/-- A transfer with no block left returns `Ok`, its deselect taking one byte. -/
theorem step_ioEnd_script {s : State} {z : Byte} {later : List Byte} (hp : overlapPending s = false)
    (hs : s.seq = .ioEnd) (hcnt : s.work.cnt = some 0#32) (h : s.bus.env.rxIn = z :: later) :
    step s = .next (finishIoctl 0#8 s) ∧ (finishIoctl 0#8 s).bus.env.rxIn = later ∧
      (finishIoctl 0#8 s).trace = s.trace ++ [.cs .deasserted, .x 0xFF#8 z] := by
  obtain ⟨hz, hlater⟩ := drawByte_of_script h
  refine ⟨by rw [step_ioEnd hp hs, finishIo_of_count hcnt]; rfl, hlater, ?_⟩
  rw [← hz]
  exact deselect_trace s.bus

/-! ## The runs -/

/-- A one-block READ from its command on: the payload is in the buffer four steps later. -/
theorem run_single_read {s : State} {b : Buf} {a0 a1 c0 c1 z : Byte} {rx payload later : List Byte}
    (hp : overlapPending s = false) (hs : s.seq = .frame .readCmd17) (hb : s.buf = some b) (hptr : s.work.ptr = some 0)
    (hfits : 512 ≤ b.len.toNat) (hrx : rx.length = 6) (hl : payload.length = 512)
    (h : s.bus.env.rxIn = a0 :: a1 :: 0xFF#8 :: (rx ++ 0#8 :: 0xFE#8 :: (payload ++ c0 :: c1 :: z :: later))) :
    ∃ t, Host.Core.run Sys2Proof.core 4 s = .next t ∧ t.result = some 0#8 ∧ t.seq = .idle ∧
      t.mem = s.mem.writeBytes b.base.toNat payload ∧ SameDriver s t ∧ t.bus.cs = .deasserted ∧
      t.bus.clk = s.bus.clk ∧ t.bus.env.rxIn = later := by
  obtain ⟨u, ⟨hu, hmem, hptru, hrxu⟩, hcommand⟩ := run_ready_command hp hs nofun h hrx
  have hwait : Untouched s (enterToken .single u) := hu.trans (.of_clk (timerStart_clk .op 200 u.bus) rfl)
  obtain ⟨v, hblock, hv, hseq, hcnt, hwritten, hrxv⟩ := step_token_single_script (s := enterToken .single u) (p := 0)
    ((overlapPending_of_host hwait.host).trans hp) rfl (hwait.buf.trans hb) (hptru.trans hptr) (by omega)
    ((timerStart_rxIn .op 200 u.bus).trans hrxu) hl
  have hend := hwait.trans hv
  obtain ⟨hret, hlater, -⟩ := step_ioEnd_script ((overlapPending_of_host hend.host).trans hp) hseq hcnt hrxv
  exact ⟨_, (hcommand 2).trans ((run_succ_of_next hblock 1).trans (run_succ_of_next hret 0)), rfl, rfl,
    hwritten.trans (congrArg (fun m => Memory.writeBytes m b.base.toNat payload) hmem), hend.driver, rfl, hend.clk, hlater⟩

/-- Settles O58: the call of `exec_read_begins`, then `run_single_read`. -/
theorem singleBlockReadRun : Obligations.SingleBlockReadRun := by
  unfold Obligations.SingleBlockReadRun
  intro s b sector bytes more a0 a1 f0 f1 f2 f3 f4 f5 c0 c1 z payload later hi hh hd hst hfits hl hrx
  have hcall := (idleStepRunsHostCall s bytes more [] _ hi (.inl hh) hd (.inl fun _ _ => nofun)).trans
    (exec_read_begins (s := { s with host := [] }) (count := 1#32) hi (by decide) hst b sector)
  obtain ⟨t, hrun, hres, hseq, hmem, hdriver, hcs, hclk, hlater⟩ := run_single_read
    (s := call .readCmd17 (loadTransfer b sector 1#32 (beginCall { s with host := [] }))) (rx := [f0, f1, f2, f3, f4, f5])
    rfl rfl rfl rfl hfits rfl hl hrx
  obtain ⟨hin, hout⟩ := read_writeBytes s.mem b.base.toNat hl
  exact ⟨t, (run_succ_of_next hcall 4).trans hrun, hres, hseq, hmem ▸ hin, hmem ▸ hout, hdriver, hcs, hclk, hlater⟩

/-- A one-block WRITE from its command on: the buffer's block is sent and accepted five steps later. -/
theorem run_single_write {s : State} {b : Buf} {a0 a1 r z : Byte} {rx echo later : List Byte}
    (hp : overlapPending s = false) (hs : s.seq = .frame .writeCmd24) (hb : s.buf = some b) (hptr : s.work.ptr = some 0)
    (hfits : 512 ≤ b.len.toNat) (hrx : rx.length = 6) (hl : echo.length = 515) (hr : r.toNat % 32 = 5)
    (h : s.bus.env.rxIn = a0 :: a1 :: 0xFF#8 :: (rx ++ 0#8 :: 0xFF#8 :: (echo ++ r :: z :: later))) :
    ∃ (t : State) (es : List Event), Host.Core.run Sys2Proof.core 5 s = .next t ∧ t.result = some 0#8 ∧ t.seq = .idle ∧
      t.mem = s.mem ∧ SameDriver s t ∧ t.bus.cs = .deasserted ∧ t.bus.env.rxIn = later ∧
      t.trace = es ++ List.zipWith .x (0xFE#8 :: (s.mem.readBytes b.base.toNat 512 ++ [0xFF#8, 0xFF#8])) echo ++
        [.x 0xFF#8 r, .cs .deasserted, .x 0xFF#8 z] := by
  obtain ⟨u, ⟨hu, hmem, hptru, hrxu⟩, hcommand⟩ := run_ready_command hp hs nofun h hrx
  have hready : Untouched s (goto (.xmit .single) u) := hu.trans (.of_clk rfl rfl)
  obtain ⟨v, hpacket, hv, hseqv, hmemv, hrxv, htracev⟩ := step_xmit_single_script (s := goto (.xmit .single) u) (p := 0)
    ((overlapPending_of_host hready.host).trans hp) rfl (hready.buf.trans hb) (hptru.trans hptr) (by omega) hrxu hl
  have hsent := hready.trans hv
  obtain ⟨w, hresp, hw, hseqw, hcnt, hmemw, hrxw, htracew⟩ :=
    step_dataResp_single_script ((overlapPending_of_host hsent.host).trans hp) hseqv hrxv hr
  have hend := hsent.trans hw
  obtain ⟨hret, hlater, htrace⟩ := step_ioEnd_script ((overlapPending_of_host hend.host).trans hp) hseqw hcnt hrxw
  refine ⟨_, u.trace ++ [.tstart .rdy 500, .x fill 0xFF#8], (hcommand 3).trans ((run_succ_of_next hpacket 2).trans ((run_succ_of_next hresp 1).trans
    (run_succ_of_next hret 0))), rfl, rfl, hmemw.trans (hmemv.trans hmem), hend.driver, rfl, hlater, ?_⟩
  rw [htrace, htracew, htracev, goto_mem, hmem, List.append_assoc _ [_]]
  rfl

/-- Settles O59: the call of `exec_write_begins`, then `run_single_write`, whose payload is the buffer's block. -/
theorem singleBlockWriteRun : Obligations.SingleBlockWriteRun := by
  unfold Obligations.SingleBlockWriteRun
  intro s b sector bytes more a0 a1 f0 f1 f2 f3 f4 f5 r z echo later hi hh hd hst hwp hfits hl hr hrx
  have hcall := (idleStepRunsHostCall s bytes more [] _ hi (.inl hh) hd (.inl fun _ _ => nofun)).trans
    (exec_write_begins (s := { s with host := [] }) (count := 1#32) hi (by decide) hst hwp b sector)
  obtain ⟨t, es, hrun, hres, hseq, hmem, hdriver, hcs, hlater, htrace⟩ := run_single_write
    (s := call .writeCmd24 (loadTransfer b sector 1#32 (beginCall { s with host := [] }))) (rx := [f0, f1, f2, f3, f4, f5])
    rfl rfl rfl rfl hfits rfl hl hr hrx
  exact ⟨t, es, _, (run_succ_of_next hcall 5).trans hrun, hres, hseq, .of_eq hmem, hdriver, hcs, hlater,
    Memory.readBytes_length s.mem b.base.toNat 512, Memory.readBytes_getElem s.mem b.base.toNat 512, htrace⟩

end Sys2Proof.Machine
end

section

/-! PROOF of O13, O19, O20, O21, O22, O23. STATUS and the ioctls (R240-R243, R246-R248): the two checks that every ioctl makes
before its body, and past them each body from the state its call begins with. -/

namespace Sys2Proof.Machine

/-! ## STATUS (R240) -/

theorem exec_status {s : State} (hi : s.seq = .idle) (drive : Byte) :
    exec (.status drive) s = .next (returnValue (if drive = 0#8 then s.status else 0x01#8) (beginCall s)) := by
  simp only [exec, execStatus, atIdle, hi]
  rfl

/-- Settles O13: STATUS returns over the bus as it was, as a failed check does. -/
theorem statusReturnsRegister : Obligations.StatusReturnsRegister := by
  unfold Obligations.StatusReturnsRegister
  intro drive s hi
  exact ⟨_, exec_status hi drive, returnValue_beginCall_frame _ s⟩

/-! ## The checks (R241) -/

/-- An ioctl's checks, ParamError before NotReady (R241). -/
theorem ioctlCheck_eq (drive : Byte) (s : State) :
    ioctlCheck drive s = if drive ≠ 0#8 then some 4#8 else if s.status.getLsbD 0 then some 3#8 else none := by
  simp only [ioctlCheck, isNotInitialized_bit]
  rfl

theorem ioctl_rejected {drive err : Byte} {s : State} (hi : s.seq = .idle) (h : ioctlCheck drive s = some err)
    (op : State → Host.Outcome State Fault Refusal) : ioctl drive op s = .next (returnValue err (beginCall s)) := by
  have h' : ioctlCheck drive (beginCall s) = some err := h
  simp only [ioctl, atIdle, hi, h']

/-- Past its checks an ioctl is its body, from the state the call begins with. -/
theorem ioctl_accepted {s : State} (hi : s.seq = .idle) (hst : s.status.getLsbD 0 = false)
    (op : State → Host.Outcome State Fault Refusal) : ioctl 0#8 op s = op (beginCall s) := by
  have hcheck : ioctlCheck 0#8 (beginCall s) = none := by
    simp only [ioctlCheck_eq, beginCall_status, hst, ne_eq, not_true_eq_false, Bool.false_eq_true, if_false]
  simp only [ioctl, atIdle, hi, hcheck]

/-! Each row is the checks of its drive before a body of its own. -/

theorem exec_ioctlSync (drive : Byte) (b : Buf) (s : State) :
    exec (.ioctlSync drive b) s = ioctl drive (fun u => .next (sync u)) s := rfl

theorem exec_ioctlGetSectorCount (drive : Byte) (b : Buf) (s : State) :
    exec (.ioctlGetSectorCount drive b) s = ioctl drive (fun u => .next (call .countCmd9 { u with buf := some b })) s := rfl

theorem exec_ioctlGetSectorSize (drive : Byte) (b : Buf) (s : State) :
    exec (.ioctlGetSectorSize drive b) s = ioctl drive (fun u =>
      if inBuffer b 0 2 then .next (finishIoctl resOk (storeSize b u)) else .fault .hostBufferOverrun) s := rfl

theorem exec_ioctlOther (cmd drive : Byte) (b : Buf) (s : State) :
    exec (.ioctlOther cmd drive b) s = ioctl drive (fun u => .next (finishIoctl resParamError u)) s := rfl

/-- Whatever its command, an ioctl that fails a check returns that check's error (R241). -/
theorem exec_ioctl_rejected {i : Instr} {drive cmd err : Byte} {b : Buf} {s : State} (hi : s.seq = .idle)
    (hmem : i ∈ [.ioctlSync drive b, .ioctlGetSectorCount drive b, .ioctlGetSectorSize drive b, .ioctlOther cmd drive b])
    (h : ioctlCheck drive s = some err) : exec i s = .next (returnValue err (beginCall s)) := by
  simp only [List.mem_cons, List.not_mem_nil, or_false] at hmem
  obtain rfl | rfl | rfl | rfl := hmem
  · exact (exec_ioctlSync drive b s).trans (ioctl_rejected hi h _)
  · exact (exec_ioctlGetSectorCount drive b s).trans (ioctl_rejected hi h _)
  · exact (exec_ioctlGetSectorSize drive b s).trans (ioctl_rejected hi h _)
  · exact (exec_ioctlOther cmd drive b s).trans (ioctl_rejected hi h _)

/-- Settles O19: the checks of `ioctlCheck_eq`, each of which returns its error over the bus as it was. -/
theorem ioctlChecks : Obligations.IoctlChecks := by
  unfold Obligations.IoctlChecks
  intro i drive cmd b s hi hmem hbad
  have hcheck : ioctlCheck drive s = some (if drive ≠ 0#8 then 4#8 else 3#8) := by
    rw [ioctlCheck_eq]
    split_ifs with hdrive hready
    · rfl
    · rfl
    · tauto
  exact ⟨_, exec_ioctl_rejected hi hmem hcheck, returnValue_beginCall_frame _ s⟩

/-! ## Past the checks -/

/-- An ioctl whose body left the driver and the host alone ends as every call that returns at once does (R248). -/
theorem finishIoctl_returned_of_untouched {s u : State} (v : Byte) (h : Untouched (beginCall s) u) :
    Returned s (finishIoctl v u) v :=
  ⟨rfl, rfl, rfl, rfl, h.driver, h.clk, h.host, h.mode⟩

/-- Settles O21: GetSectorCount's body calls CMD9, which needs no CMD55, and has used no bus yet. -/
theorem sectorCountBegins : Obligations.SectorCountBegins := by
  unfold Obligations.SectorCountBegins
  intro b s hi hst
  exact ⟨_, (exec_ioctlGetSectorCount _ b s).trans (ioctl_accepted hi hst _), rfl, rfl, rfl, rfl, rfl, rfl, rfl, rfl,
    rfl, rfl, ⟨rfl, rfl⟩, .of_eq rfl, rfl, rfl⟩

/-- Settles O23: the body of an unknown command is `finishIoctl` alone. -/
theorem unknownIoctlRejected : Obligations.UnknownIoctlRejected := by
  unfold Obligations.UnknownIoctlRejected
  intro cmd b s hi hst
  exact ⟨_, (drawByte s.bus.env).1, (exec_ioctlOther cmd _ b s).trans (ioctl_accepted hi hst _),
    finishIoctl_returned_of_untouched _ (.refl _), deselect_trace (beginCall s).bus, rfl, rfl, rfl, .of_eq rfl⟩

/-! ## Sync (R242) -/

/-- `select()` (R126): its events, with the deselect a timeout adds. -/
theorem select_events (b : Bus) :
    ∃ (x : Byte) (ready : List Event), ReadyEvents (select b).1 ready ∧
      if (select b).1 then (select b).2.trace = b.trace ++ ([.cs .asserted, .x fill x] ++ ready)
      else ∃ y, (select b).2.trace = b.trace ++ ([.cs .asserted, .x fill x] ++ ready ++ [.cs .deasserted, .x fill y]) := by
  obtain ⟨ready, hready, htrace⟩ := waitReady_events (discard fill (csAssert b))
  rw [discard_trace, csAssert_trace, List.append_assoc, List.append_assoc] at htrace
  rw [← select_fst] at hready
  refine ⟨(drawByte b.env).1, ready, hready, ?_⟩
  simp only [select]
  split
  · exact htrace
  · exact ⟨_, (deselect_trace _).trans ((congrArg (· ++ _) htrace).trans (List.append_assoc ..))⟩

/-- Sync's own deselect, after the one a timeout has added (R242). -/
theorem sync_trace (s : State) :
    ∃ z : Byte, (sync s).trace = (select s.bus).2.trace ++ [.cs .deasserted, .x fill z] :=
  ⟨_, deselect_trace (select s.bus).2⟩

/-- Settles O20: the body of Sync is the ready wait of `select_events`, then the deselect of every ioctl's end. -/
theorem syncWaitsForReady : Obligations.SyncWaitsForReady := by
  unfold Obligations.SyncWaitsForReady
  intro b s hi hst
  obtain ⟨hclk, hop, -⟩ := select_lines (beginCall s).bus
  obtain ⟨x, ready, hready, htrace⟩ := select_events (beginCall s).bus
  obtain ⟨z, hend⟩ := sync_trace (beginCall s)
  have hexec := (exec_ioctlSync _ b s).trans (ioctl_accepted hi hst _)
  have hret : Returned s (sync (beginCall s)) (okOrGeneric (select (beginCall s).bus).1) :=
    finishIoctl_returned_of_untouched _ (.of_clk hclk rfl)
  cases hok : (select (beginCall s).bus).1 with
  | true =>
    rw [hok] at hready htrace hret
    refine ⟨_, true, x, z, ready, hexec, hok.symm, hready, hret, rfl, hop, .of_eq rfl, ?_⟩
    rw [hend, htrace]
    rfl
  | false =>
    rw [hok] at hready htrace hret
    obtain ⟨y, hy⟩ := htrace
    refine ⟨_, false, x, y, ready, hexec, hok.symm, hready, hret, rfl, hop, .of_eq rfl, z, ?_⟩
    rw [hend, hy, List.append_assoc, List.append_assoc]
    rfl

/-! ## GetSectorSize (R246) -/

/-- 512 least significant byte first at the start of the buffer, and no other byte written (R66). -/
theorem storeSize_reads (b : Buf) (s : State) :
    (storeSize b s).mem.read b.base.toNat = 0x00#8 ∧ (storeSize b s).mem.read (b.base.toNat + 1) = 0x02#8 ∧
      ∀ a, a ≠ b.base.toNat → a ≠ b.base.toNat + 1 → (storeSize b s).mem.read a = s.mem.read a := by
  obtain ⟨hin, hout⟩ := read_writeBytes s.mem b.base.toNat (bs := [0x00#8, 0x02#8]) (n := 2) rfl
  exact ⟨hin 0 (by decide), hin 1 (by decide), fun a h0 h1 => hout a (by omega)⟩

/-- Settles O22: the two bytes of `storeSize_reads` are written once they fit, and the call ends as every ioctl does. -/
theorem sectorSizeReported : Obligations.SectorSizeReported := by
  unfold Obligations.SectorSizeReported
  intro b s hi hst
  have hexec := (exec_ioctlGetSectorSize _ b s).trans (ioctl_accepted hi hst _)
  refine ⟨fun hfits => ?_, fun hshort => ?_⟩
  · exact ⟨_, (drawByte s.bus.env).1, hexec.trans (if_pos (decide_eq_true hfits)),
      finishIoctl_returned_of_untouched _ (.of_clk rfl rfl), deselect_trace (beginCall s).bus, rfl, rfl, rfl,
      storeSize_reads b (beginCall s)⟩
  · exact hexec.trans (if_neg (by simp only [inBuffer, decide_eq_true_eq]; omega))

end Sys2Proof.Machine
end

section

/-! PROOF of O42, O40. The capacity of GetSectorCount (R243-R245): the registers of both CSD layouts as numbers, and the count
written where a CSD that parses was received. -/

namespace Sys2Proof.Machine

/-! ## The registers of a CSD (R99-R101) -/

theorem csdIsV2_iff (csd : List Byte) : csdIsV2 csd = true ↔ (csdByte csd 0).toNat / 64 = 1 := by
  have := (csdByte csd 0).isLt
  rw [csdIsV2, decide_eq_true_eq, ← BitVec.toNat_inj, toNat_field]
  show _ / 64 % 4 = 1 ↔ _
  omega

theorem csdSizeV2_toNat (csd : List Byte) : (csdSizeV2 csd).toNat =
    (csdByte csd 7).toNat % 64 * 65536 + (csdByte csd 8).toNat * 256 + (csdByte csd 9).toNat := by
  simp only [csdSizeV2, toNat_cat, toNat_field]
  omega

theorem csdSizeLegacy_toNat (csd : List Byte) : (csdSizeLegacy csd).toNat =
    (csdByte csd 8).toNat / 64 + (csdByte csd 7).toNat * 4 + (csdByte csd 6).toNat % 4 * 1024 := by
  have := (csdByte csd 8).isLt
  simp only [csdSizeLegacy, toNat_cat, toNat_field]
  omega

theorem csdExponent_eq (csd : List Byte) : csdExponent csd =
    (csdByte csd 5).toNat % 16 + (csdByte csd 10).toNat / 128 + (csdByte csd 9).toNat % 4 * 2 + 2 := by
  have := (csdByte csd 10).isLt
  simp only [csdExponent, csdReadBlLen, csdSizeMult, toNat_cat, toNat_field]
  omega

/-- Four bits and three bits, and 2 (R245). -/
theorem csdExponent_range (csd : List Byte) : 2 ≤ csdExponent csd ∧ csdExponent csd ≤ 24 := by
  have := (csdReadBlLen csd).isLt
  have := (csdSizeMult csd).isLt
  rw [csdExponent]
  omega

/-! ## The parse (R244, R245) -/

/-- Twelve bits of size, shifted by at most 15 (R245). -/
theorem legacyCount_le (csd : List Byte) :
    ((csdSizeLegacy csd).toNat + 1) * 2 ^ (csdExponent csd - 9) ≤ 2 ^ 27 := by
  obtain ⟨-, hexp⟩ := csdExponent_range csd
  calc ((csdSizeLegacy csd).toNat + 1) * 2 ^ (csdExponent csd - 9)
      ≤ 2 ^ 12 * 2 ^ 15 := Nat.mul_le_mul (csdSizeLegacy csd).isLt (Nat.pow_le_pow_right (by omega) (by omega))
    _ = 2 ^ 27 := by decide

theorem parseCsd_v2 {csd : List Byte} (h : (csdByte csd 0).toNat / 64 = 1) :
    parseCsd csd = some (BitVec.ofNat 32 (((csdSizeV2 csd).toNat + 1) * 2 ^ 10)) := by
  rw [parseCsd, if_pos ((csdIsV2_iff csd).2 h)]

theorem parseCsd_legacy {csd : List Byte} (h : (csdByte csd 0).toNat / 64 ≠ 1) :
    parseCsd csd = if csdExponent csd < 9 then none
      else some (BitVec.ofNat 32 (((csdSizeLegacy csd).toNat + 1) * 2 ^ (csdExponent csd - 9))) := by
  rw [parseCsd, if_neg (mt (csdIsV2_iff csd).1 h)]

/-- The legacy count loses nothing to its 32 bits (R245). -/
theorem legacyCount_toNat (csd : List Byte) :
    (BitVec.ofNat 32 (((csdSizeLegacy csd).toNat + 1) * 2 ^ (csdExponent csd - 9))).toNat =
      ((csdSizeLegacy csd).toNat + 1) * 2 ^ (csdExponent csd - 9) := by
  have hle := legacyCount_le csd
  rw [BitVec.toNat_ofNat, Nat.mod_eq_of_lt (by omega)]

/-- Settles O42: the parse of either layout with its registers as numbers, and `legacyCount_le` for the bound. -/
theorem capacityParse : Obligations.CapacityParse := by
  unfold Obligations.CapacityParse
  intro csd _
  refine ⟨fun hv2 => ?_, fun e c hlegacy he hc => ?_⟩
  · rw [parseCsd_v2 hv2, csdSizeV2_toNat]
    rfl
  · replace he : csdExponent csd = e := (csdExponent_eq csd).trans he.symm
    replace hc : (csdSizeLegacy csd).toNat = c := (csdSizeLegacy_toNat csd).trans hc.symm
    subst he hc
    obtain ⟨hlow, hhigh⟩ := csdExponent_range csd
    rw [parseCsd_legacy hlegacy]
    exact ⟨fun h => if_pos h, hlow, hhigh, fun h => ⟨_, if_neg (Nat.not_lt.2 h), legacyCount_toNat csd,
      (legacyCount_toNat csd).trans_le (legacyCount_le csd)⟩⟩

/-! ## The CSD received (R243) -/

/-- A count that fits the buffer, or none to write, lets the CSD's packet complete (R61; log 10). -/
theorem receiveData_csd_of_fits {s : State}
    (h : inBuffer (bufOf s) 0 4 = true ∨ parseCsd (receiveBytes 16 s.bus).1 = none) :
    receiveData .csd s = .next (countReceived (receiveCsd s)) := by
  rw [← csdOf_receiveCsd] at h
  rw [receiveData]
  split_ifs with hfits hnone
  · rfl
  · rfl
  · exact absurd (Option.isNone_iff_eq_none.2 (h.resolve_left hfits)) hnone

/-- A word written least significant byte first is read back so (R66), and nothing else is written. -/
theorem read_writeBytes_leBytes4 {m m' : Memory} {a : ℕ} {v : Word} (h : m' = m.writeBytes a (leBytes4 v)) :
    v = leWord (m'.read a) (m'.read (a + 1)) (m'.read (a + 2)) (m'.read (a + 3)) ∧
      ∀ a', (a' < a ∨ a + 4 ≤ a') → m'.read a' = m.read a' := by
  obtain ⟨hin, hout⟩ := read_writeBytes m a (bs := leBytes4 v) (n := 4) rfl
  rw [← h] at hin hout
  have hlen : ∀ i, i < 4 → i < (leBytes4 v).length := fun _ hi => hi
  refine ⟨?_, hout⟩
  rw [show m'.read a = _ from hin 0 (hlen 0 (by decide)), hin 1 (hlen 1 (by decide)), hin 2 (hlen 2 (by decide)),
    hin 3 (hlen 3 (by decide))]
  exact (leWord_leBytes4 v).symm

/-- Settles O40: the packet of `countReceived_receiveCsd`, whose parse says whether the count is written. -/
theorem capacityReceived : Obligations.CapacityReceived := by
  unfold Obligations.CapacityReceived
  intro s b hs hb hfits
  have hexec : exec .tokenStartBlock s = .next (countReceived (receiveCsd s)) := by
    refine (exec_tokenStartBlock_token hs).trans (receiveData_csd_of_fits (hfits.imp_left fun h => ?_))
    rw [inBuffer_of hb]
    exact decide_eq_true (by omega)
  have hu := countReceived_untouched s
  obtain ⟨csd, b', c0, c1, hlen, hbus, htrace, hcsd, hcount⟩ := countReceived_receiveCsd s
  rw [bufAddr_of hb] at hcount
  rw [hcount] at hexec hu
  refine ⟨_, csd, c0, c1, hexec, hlen, hcsd.symm.trans (csdOf_receiveCsd s), rfl, hu, htrace, hbus.cs,
    hbus.tOp, hbus.tRdy, ?_⟩
  cases hparse : parseCsd csd with
  | none => exact ⟨fun _ _ => rfl, rfl, .of_eq rfl⟩
  | some v =>
    obtain ⟨hread, hout⟩ := read_writeBytes_leBytes4 (m := s.mem) (a := b.base.toNat) (v := v) rfl
    exact ⟨hout, rfl, hread⟩

end Sys2Proof.Machine
end

section

/-! PROOF of O51, O12, O4. The invariant along every step: a label that is no command's keeps what `At` says at the command
that led to it, so each rule of a label leads from `At` to the next label; the three ends and the host's events are apart. -/

namespace Sys2Proof.Machine

/-! ## The command behind a label -/

/-- The command whose response opened a token wait (R213, R214, R243). -/
def RecvUse.site : RecvUse → Site
  | .single => .readCmd17
  | .multi => .readCmd18
  | .csd => .countCmd9

/-- The command whose response let the blocks of a write be sent (R220, R221). -/
def XmitUse.site : XmitUse → Site
  | .single => .writeCmd24
  | .multi => .writeCmd25

/-- The command a negotiation loop repeats (R187, R190). -/
def LoopKind.site : LoopKind → Site
  | .v2 => .initAcmd41
  | .legacy => .initLoop

theorem RecvUse.site_phase (use : RecvUse) : (Seq.token use).phase = some use.site.phase := by cases use <;> rfl

theorem RecvUse.site_not_init (use : RecvUse) : use.site.phase ≠ .init := by cases use <;> nofun

theorem XmitUse.site_not_init (use : XmitUse) : use.site.phase ≠ .init := by cases use <;> nofun

/-- A label that asks of the registers no less than a command of its operation does. -/
theorem At.of_label {s : State} {l : Seq} {site : Site} (h : Inv s) (hs : s.seq = l) (hp : l.phase = some site.phase)
    (hty : l.tyHolds s.work → site.tyHolds s.work) (hcnt : l.countHolds s.work → site.countHolds s.work)
    (hdl : l.deadlineHolds s.bus.tOp → site.deadlineHolds s.bus.tOp) : At site s := by
  subst hs
  have hi : s.seq ≠ .idle := fun hi => by rw [hi] at hp; cases hp
  exact ⟨h.driver, h.memory, hp ▸ h.clock, hp ▸ h.ready, h.result hi, hty h.ty, hcnt h.count, hp ▸ h.operands,
    hdl h.deadline⟩

theorem At.of_token {s : State} {use : RecvUse} (h : Inv s) (hs : s.seq = .token use) : At use.site s := by
  cases use <;> exact .of_label h hs rfl id id fun _ => trivial

theorem At.of_xmit {s : State} {use : XmitUse} (h : Inv s) (hs : s.seq = .xmit use) : At use.site s := by
  cases use <;> exact .of_label h hs rfl id id id

theorem At.of_dataResp {s : State} {use : XmitUse} (h : Inv s) (hs : s.seq = .dataResp use) : At use.site s := by
  cases use <;> exact .of_label h hs rfl id id id

/-- The stop token asks of the registers what CMD12 asks: that `cnt` is held. -/
theorem At.of_stop {s : State} (h : Inv s) (hs : s.seq = .stop) : At .readCmd12 s :=
  .of_label h hs rfl id id id

theorem At.of_loopHead {s : State} {kind : LoopKind} (h : Inv s) (hs : s.seq = .loopHead kind) : At kind.site s := by
  cases kind <;> exact .of_label h hs rfl id id id

theorem selected_of_label {s : State} (h : Inv s) {l : Seq} (hs : s.seq = l) (hl : l.selected = true) :
    s.bus.cs = .asserted :=
  h.select (hs ▸ hl)

/-! ## Updates under `At` -/

/-- The label a state is at already, as a next label. -/
theorem At.stay {site : Site} {s : State} (h : At site s) {l : Seq} (hs : s.seq = l) (hp : l.phase = some site.phase)
    (hsel : l.selected = true → s.bus.cs = .asserted) (hty : l.tyHolds s.work) (hcnt : l.countHolds s.work)
    (hn : l.pollHolds s.work.n) (he : l.escapeHolds s.work) (hdl : l.deadlineHolds s.bus.tOp) : Inv s := by
  subst hs
  exact h.goto s.seq hp hsel hty hcnt hn he hdl

theorem At.setBus {site : Site} {s : State} (h : At site s) {b : Bus} (hclk : b.clk = s.bus.clk)
    (hdl : site.deadlineHolds b.tOp) : At site { s with bus := b } :=
  ⟨h.driver.of_eq rfl rfl, h.memory, hclk.symm ▸ h.clock, h.ready, h.result, h.ty, h.count, h.operands, hdl⟩

theorem At.setMem {site : Site} {s : State} (h : At site s) {m : Memory} (hm : m.wf = true) :
    At site { s with mem := m } :=
  ⟨h.driver.of_eq rfl rfl, hm, h.clock, h.ready, h.result, h.ty, h.count, h.operands, h.deadline⟩

/-- The working registers change, to what another command of the same operation asks of them. -/
theorem At.setWork {site : Site} {s : State} (h : At site s) (site' : Site) {w : Work} (hp : site'.phase = site.phase)
    (hty : site'.tyHolds w) (hcnt : site'.countHolds w) (hop : operandsFor (some site.phase) w s.buf)
    (hdl : site'.deadlineHolds s.bus.tOp) : At site' { s with work := w } :=
  ⟨h.driver.of_eq rfl rfl, h.memory, hp ▸ h.clock, hp ▸ h.ready, h.result, hty, hcnt, hp ▸ hop, hdl⟩

/-- INIT alone asks for a `ty` (R12). -/
theorem tyHolds_of_phase {site : Site} (hp : site.phase ≠ .init) (w : Work) : site.tyHolds w := by
  cases site <;> trivial

/-- INIT alone runs its commands under `T_OP` (R39, R184). -/
theorem deadlineHolds_of_phase {site : Site} (hp : site.phase ≠ .init) (d : Option Deadline) : site.deadlineHolds d := by
  cases site <;> trivial

/-- A block is done: `ptr` is at the next block's boundary (R210, R217). -/
theorem At.advanceBlock {site : Site} {s : State} (h : At site s) (hp : site.phase = .transfer) (site' : Site)
    (hp' : site'.phase = .transfer) (hcnt : site'.countHolds (advanceBlock s).work) : At site' (advanceBlock s) := by
  have hop := h.operands
  rw [hp] at hop
  obtain ⟨haddr, ⟨k, hk⟩, hbuf⟩ := hop
  have hptr : some (s.work.ptrVal + Config.blockSize) = some (Config.blockSize * (k + 1)) := by
    rw [ptrVal_of hk, Nat.mul_succ]
  have hinit : site'.phase ≠ .init := hp' ▸ nofun
  exact h.setWork site' (hp'.trans hp.symm) (tyHolds_of_phase hinit _) hcnt (hp ▸ ⟨haddr, ⟨_, hptr⟩, hbuf⟩)
    (deadlineHolds_of_phase hinit _)

/-- `cnt <- c` and the end of READ or WRITE. -/
theorem At.toIoEndWith {site : Site} {s : State} (h : At site s) (hp : site.phase = .transfer) (c : Word) :
    Inv (Machine.goto .ioEnd { s with work := { s.work with cnt := some c } }) := by
  have hop := h.operands
  rw [hp] at hop
  exact (h.setWork .readCmd12 hp.symm trivial ⟨c, rfl⟩ (hp ▸ hop) trivial).toIoEnd rfl ⟨c, rfl⟩

/-! ## The poll (R146) -/

theorem At.pollExchange {site : Site} {s : State} (h : At site s) : At site (pollExchange s).2 :=
  h.update rfl rfl rfl rfl rfl rfl rfl rfl rfl rfl rfl rfl

/-- A poll exchange with no response: one poll fewer is left, or the tenth ends the command. -/
theorem pollMissed_inv {site : Site} {e : Bool} {r : Byte} {s : State} {k : Nat} (h : At site s)
    (hs : s.seq = .poll site e) (hcs : s.bus.cs = .asserted) (hn : s.work.n = some k) (hk : k ≤ Config.respPolls)
    (he : (Seq.poll site e).escapeHolds s.work) : Inv (pollMissed site e r s) := by
  have hval : s.work.nVal = k := by rw [Work.nVal, hn]; rfl
  simp only [pollMissed]
  split
  · exact respond_inv site e r s h fun _ => hcs
  · rename_i h0
    have hr : At site { s with work := { s.work with res := some r } } :=
      h.update rfl rfl rfl rfl rfl rfl rfl rfl rfl rfl rfl rfl
    exact hr.stay hs rfl (fun _ => hcs) hr.ty hr.count ⟨k, hn, by omega, hk⟩ (by cases e <;> exact he) hr.deadline

theorem poll_inv {site : Site} {e : Bool} {s : State} (h : Inv s) (hs : s.seq = .poll site e) (r : Byte) :
    Inv (if r.getLsbD 7 then pollMissed site e r (pollExchange s).2 else respond site e r (pollExchange s).2) := by
  have hat : At site (pollExchange s).2 := (At.of_inv h (.inr (.inr ⟨e, hs⟩))).pollExchange
  have hcs : s.bus.cs = .asserted := selected_of_label h hs rfl
  have hpoll := h.poll
  have hesc := h.escape
  rw [hs] at hpoll hesc
  obtain ⟨k, hn, hk1, hk⟩ := hpoll
  have hval : s.work.nVal - 1 = k - 1 := by rw [Work.nVal, hn]; rfl
  split
  · exact pollMissed_inv hat hs hcs (congrArg some hval) (by omega) (by cases e <;> exact hesc)
  · exact respond_inv site e r _ hat fun _ => hcs

/-! ## The head of a negotiation loop (R187, R190) -/

theorem At.queried {kind : LoopKind} {s : State} (h : At kind.site s) :
    At kind.site { s with bus := (expired .op s.bus).2 } := by
  refine h.setBus (expired_clk .op s.bus) ?_
  cases kind <;> exact expired_op_duration h.deadline

theorem loopExpired_inv {kind : LoopKind} {s : State} (h : At kind.site s) : Inv (loopExpired kind s) := by
  cases kind with
  | v2 => exact h.toInitEnd rfl ⟨_, h.ty, by decide⟩
  | legacy => exact h.toInitEndWith rfl _ (by decide)

theorem loopCommand_inv {kind : LoopKind} {s : State} (h : At kind.site s) : Inv (loopCommand kind s) := by
  cases kind <;> exact h.call _ rfl nofun h.ty trivial h.deadline

theorem loopQuery_inv {kind : LoopKind} {s : State} (h : At kind.site s) : Inv (loopQuery kind s) := by
  simp only [loopQuery]
  split
  · exact loopExpired_inv h.queried
  · exact loopCommand_inv h.queried

/-! ## Receiving (R213-R216, R243) -/

theorem receiveFailed_inv {use : RecvUse} {s : State} (h : At use.site s) (hcs : s.bus.cs = .asserted) :
    Inv (receiveFailed use s) := by
  cases use with
  | single => exact h.toIoEnd rfl (countHeld_of_one h.count)
  | multi => exact h.goto (.frame .readCmd12) rfl (fun _ => hcs) trivial (countHeld_of_left h.count) trivial trivial trivial
  | csd => exact h.goto (.countEnd false) rfl nofun trivial trivial trivial trivial trivial

/-- A byte that is not the token: the wait fails, or goes on under its deadline (R215). -/
theorem tokenMissed_inv {use : RecvUse} {s : State} (h : At use.site s) (hs : s.seq = .token use)
    (hcs : s.bus.cs = .asserted) (hdl : opStarted Config.tokenMs s.bus.tOp) (tok : Byte) : Inv (tokenMissed use tok s) := by
  have hq : At use.site { s with bus := (expired .op s.bus).2 } :=
    h.setBus (expired_clk .op s.bus) (deadlineHolds_of_phase use.site_not_init _)
  have hqcs : (expired .op s.bus).2.cs = .asserted := (expired_cs .op s.bus).trans hcs
  have hcnt : (Seq.token use).countHolds s.work := by cases use <;> exact h.count
  simp only [tokenMissed]
  split
  · exact receiveFailed_inv h hcs
  · split
    · exact receiveFailed_inv hq hqcs
    · exact hq.stay hs use.site_phase (fun _ => hqcs) trivial hcnt trivial trivial (expired_op_duration hdl)

theorem blockReceived_inv {use : RecvUse} {s : State} (h : At use.site s) (hcs : s.bus.cs = .asserted) :
    Inv (blockReceived use s) := by
  cases use with
  | single => exact h.toIoEndWith rfl 0#32
  | multi =>
    simp only [blockReceived]
    split
    · exact (h.advanceBlock rfl .readCmd12 rfl ⟨_, rfl⟩).goto (.frame .readCmd12) rfl (fun _ => hcs) trivial ⟨_, rfl⟩
        trivial trivial trivial
    · rename_i hleft
      exact (h.advanceBlock rfl .readCmd18 rfl ⟨_, rfl, hleft⟩).toToken .multi rfl hcs ⟨_, rfl, hleft⟩
  | csd => exact h.goto (.countEnd true) rfl nofun trivial trivial trivial trivial trivial

theorem receiveBlock_inv {use : RecvUse} {s : State} (h : At use.site s) (hcs : s.bus.cs = .asserted) :
    Inv (receiveBlock use s) := by
  obtain ⟨p, b, -, -, hrecv, -, hb, -⟩ := receivePayload_spec Config.blockSize s.bus
  have hat : At use.site { s with mem := s.mem.writeBytes (bufAddr (bufOf s) s.work.ptrVal) p, bus := b } :=
    (h.setMem (Memory.wf_writeBytes p _ _ h.memory)).setBus hb.clk (deadlineHolds_of_phase use.site_not_init _)
  simp only [receiveBlock, hrecv]
  exact blockReceived_inv hat (hb.cs.trans hcs)

/-- The CSD is received, and its count written when it parses (R243). -/
theorem countReceived_inv {s : State} (h : At .countCmd9 s) : Inv (countReceived (receiveCsd s)) := by
  have hat : At .countCmd9 (receiveCsd s) :=
    (h.setBus (receivePayload_only Config.csdSize s.bus).clk trivial).setWork .countCmd9 rfl trivial trivial h.operands
      trivial
  simp only [countReceived]
  split
  · exact (hat.setMem (Memory.wf_writeBytes _ _ _ hat.memory)).goto (.countEnd true) rfl nofun trivial trivial trivial trivial
      trivial
  · exact hat.goto (.countEnd false) rfl nofun trivial trivial trivial trivial trivial

theorem receiveData_inv {use : RecvUse} {s t : State} (h : At use.site s) (hcs : s.bus.cs = .asserted)
    (ht : receiveData use s = .next t) : Inv t := by
  cases use <;> simp only [receiveData] at ht <;> split at ht
  case single.isTrue => cases ht; exact receiveBlock_inv (use := .single) h hcs
  case multi.isTrue => cases ht; exact receiveBlock_inv (use := .multi) h hcs
  case csd.isTrue => cases ht; exact countReceived_inv h
  case csd.isFalse =>
    split at ht <;> cases ht
    exact countReceived_inv h
  all_goals cases ht

/-! ## Sending (R218-R222) -/

theorem blockFailed_inv {use : XmitUse} {s : State} (h : At use.site s) (hcs : s.bus.cs = .asserted) :
    Inv (blockFailed use s) := by
  cases use with
  | single => exact h.toIoEnd rfl (countHeld_of_one h.count)
  | multi => exact h.goto .stop rfl (fun _ => hcs) trivial (countHeld_of_left h.count) trivial trivial trivial

theorem blockAccepted_inv {use : XmitUse} {s : State} (h : At use.site s) (hcs : s.bus.cs = .asserted) :
    Inv (blockAccepted use s) := by
  cases use with
  | single => exact h.toIoEndWith rfl 0#32
  | multi =>
    simp only [blockAccepted]
    split
    · exact (h.advanceBlock rfl .readCmd12 rfl ⟨_, rfl⟩).goto .stop rfl (fun _ => hcs) trivial ⟨_, rfl⟩ trivial trivial
        trivial
    · rename_i hleft
      exact (h.advanceBlock rfl .writeCmd25 rfl ⟨_, rfl, hleft⟩).goto (.xmit .multi) rfl (fun _ => hcs) trivial
        ⟨_, rfl, hleft⟩ trivial trivial trivial

theorem sendPacket_inv {use : XmitUse} {s : State} (h : At use.site s) (hcs : s.bus.cs = .asserted) (token : Byte) :
    Inv (sendPacket token use s) := by
  obtain ⟨-, -, b, -, -, -, hb, -, hsend⟩ := sendPacket_spec token use s
  rw [hsend]
  have hat : At use.site { s with bus := b } := h.setBus hb.clk (deadlineHolds_of_phase use.site_not_init _)
  have hbcs : b.cs = .asserted := hb.cs.trans hcs
  cases use <;> exact hat.goto (.dataResp _) rfl (fun _ => hbcs) trivial hat.count trivial trivial trivial

theorem transmitData_inv {token : Byte} {use : XmitUse} {s t : State} (h : At use.site s) (hcs : s.bus.cs = .asserted)
    (ht : transmitData token use s = .next t) : Inv t := by
  obtain ⟨hwcs, hclk, -⟩ := waitReady_lines s.bus
  have hat : At use.site { s with bus := (waitReady s.bus).2 } := h.setBus hclk (deadlineHolds_of_phase use.site_not_init _)
  have hfailed := blockFailed_inv hat (hwcs.trans hcs)
  simp only [transmitData] at ht
  split at ht
  · cases ht
    split
    · exact sendPacket_inv hat (hwcs.trans hcs) token
    · exact hfailed
  · split at ht <;> cases ht
    exact hfailed

theorem transmitStop_inv {s : State} (h : At .readCmd12 s) : Inv (transmitStop s) := by
  have hclk := (waitReady_lines s.bus).2.1
  have hstopped : At .readCmd12 { s with bus := discard stopToken (waitReady s.bus).2 } := h.setBus hclk trivial
  have hwaited : At .readCmd12 { s with bus := (waitReady s.bus).2 } := h.setBus hclk trivial
  simp only [transmitStop]
  split
  · exact hstopped.toIoEnd rfl h.count
  · exact hwaited.toIoEndWith rfl 1#32

/-! ## Ends (R192, R223, R248) -/

/-- What the finalisation leaves of `status`: bits 7:3, and NotInitialized as it says (R192). -/
theorem finalStatus_bits (v : Byte) :
    setNotInitialized v &&& 0xF8#8 = v &&& 0xF8#8 ∧ isNotInitialized (setNotInitialized v) = true ∧
    clearNotInitialized v &&& 0xF8#8 = v &&& 0xF8#8 ∧ isNotInitialized (clearNotInitialized v) = false := by
  revert v; decide

/-- INIT's finalisation: the type established, the bit of `status` and the clock agree (R34, R36, R192). -/
theorem finishInit_inv {s : State} (h : Inv s) (hs : s.seq = .initEnd) : Inv (finishInit s) := by
  obtain ⟨hset, hsetBit, hclear, hclearBit⟩ := finalStatus_bits s.status
  have hslow := h.clock
  have hfinal := h.ty
  rw [hs] at hslow hfinal
  replace hslow : s.bus.clk = .slow := hslow
  obtain ⟨ty, hty, hlegal⟩ := hfinal
  by_cases h0 : ty = 0#8
  · subst h0
    rw [finishInit_of_no_type hty]
    exact idle_inv _
      ⟨hset.trans h.driver.statusReserved, hlegal, fun hf => absurd (hsetBit.symm.trans hf) nofun, fun hn => absurd rfl hn⟩
      h.memory rfl rfl rfl rfl ⟨fun hf => absurd (hslow.symm.trans hf) nofun, fun hn => absurd rfl hn⟩
  · rw [finishInit_of_type hty h0]
    exact idle_inv _ ⟨hclear.trans h.driver.statusReserved, hlegal, fun _ => h0, fun _ => hclearBit⟩ h.memory rfl rfl rfl rfl
      ⟨fun _ => h0, fun _ => rfl⟩

/-- Every other end deselects and keeps the driver state (R223, R248). -/
theorem finishIoctl_inv {s : State} (hd : DriverInv s) (hm : s.mem.wf = true) (hk : s.bus.clk = .fast ↔ s.cardType ≠ 0#8)
    (v : Byte) : Inv (finishIoctl v s) :=
  idle_inv _ (hd.of_eq rfl rfl) hm rfl rfl rfl rfl hk

/-! ## The host's events at IDLE -/

theorem Inv.setHost {s : State} (h : Inv s) (later : List HostEvent) : Inv { s with host := later } :=
  ⟨h.driver.of_eq rfl rfl, h.memory, h.idle, h.select, h.clock, h.ready, h.result, h.ty, h.count, h.operands, h.poll,
    h.escape, h.deadline⟩

theorem clock_at_idle {s : State} (h : Inv s) (hi : s.seq = .idle) : s.bus.clk = .fast ↔ s.cardType ≠ 0#8 := by
  have hk := h.clock
  rwa [hi] at hk

/-- READ or WRITE past its checks goes to its command, with every register of a transfer written (R210, R217). -/
theorem loadTransfer_call_inv {s : State} (h : Inv s) (hi : s.seq = .idle) (hr : isNotInitialized s.status = false)
    (site : Site) (hp : site.phase = .transfer) (hf : site ≠ .readCmd12) (b : Buf) (sector count : Word)
    (hcnt : site.countHolds (loadTransfer b sector count (beginCall s)).work) :
    Inv (call site (loadTransfer b sector count (beginCall s))) := by
  have hinit : site.phase ≠ .init := hp ▸ nofun
  have hk := clock_at_idle h hi
  have hat : At site (loadTransfer b sector count (beginCall s)) :=
    ⟨h.driver.of_eq rfl rfl, h.memory, hp ▸ hk, hp ▸ h.driver.readyIff.1 hr, rfl, tyHolds_of_phase hinit _, hcnt,
      hp ▸ ⟨⟨_, rfl⟩, ⟨0, rfl⟩, ⟨b, rfl⟩⟩, deadlineHolds_of_phase hinit _⟩
  exact hat.call site rfl hf hat.ty hcnt hat.deadline

theorem readSite_call_inv {s : State} (h : Inv s) (hi : s.seq = .idle) (hr : isNotInitialized s.status = false) (b : Buf)
    (sector : Word) {count : Word} (hc : count ≠ 0#32) :
    Inv (call (readSite count) (loadTransfer b sector count (beginCall s))) := by
  simp only [readSite]
  split
  · exact loadTransfer_call_inv h hi hr .readCmd17 rfl nofun b sector count (congrArg some ‹_›)
  · exact loadTransfer_call_inv h hi hr .readCmd18 rfl nofun b sector count ⟨count, rfl, hc⟩

theorem writeSite_call_inv {s : State} (h : Inv s) (hi : s.seq = .idle) (hr : isNotInitialized s.status = false) (b : Buf)
    (sector : Word) {count : Word} (hc : count ≠ 0#32) (cardType : Byte) :
    Inv (call (writeSite cardType count) (loadTransfer b sector count (beginCall s))) := by
  simp only [writeSite]
  split
  · exact loadTransfer_call_inv h hi hr .writeCmd24 rfl nofun b sector count (congrArg some ‹_›)
  · split
    · exact loadTransfer_call_inv h hi hr .writeAcmd23 rfl nofun b sector count ⟨count, rfl, hc⟩
    · exact loadTransfer_call_inv h hi hr .writeCmd25 rfl nofun b sector count ⟨count, rfl, hc⟩

/-- INIT goes to CMD0 with a slow clock and `ty` at 0 (R183). -/
theorem powerUp_inv {s : State} (h : Inv s) : Inv (powerUp (beginCall s)) := by
  have hat : At .initCmd0 (setTy 0#8 { beginCall s with bus := powerUpClocks (setClock .slow (beginCall s).bus) }) :=
    ⟨h.driver.of_eq rfl rfl, h.memory, powerUp_clk (beginCall s), trivial, rfl, rfl, trivial, trivial, trivial⟩
  exact hat.call .initCmd0 rfl nofun hat.ty trivial trivial

/-- GetSectorCount goes to CMD9 with its buffer (R243). -/
theorem countCmd9_call_inv {s : State} (h : Inv s) (hi : s.seq = .idle) (hr : isNotInitialized s.status = false) (b : Buf) :
    Inv (call .countCmd9 { beginCall s with buf := some b }) := by
  have hk := clock_at_idle h hi
  have hat : At .countCmd9 { beginCall s with buf := some b } :=
    ⟨h.driver.of_eq rfl rfl, h.memory, hk, h.driver.readyIff.1 hr, rfl, trivial, trivial, ⟨b, rfl⟩, trivial⟩
  exact hat.call .countCmd9 rfl nofun trivial trivial trivial

/-- Every call at IDLE keeps the invariant: it returns, or goes to its first command. -/
theorem HostNext.inv {s t : State} (hn : HostNext s t) (h : Inv s) (hi : s.seq = .idle) : Inv t := by
  have hk := clock_at_idle h hi
  have hd : DriverInv (beginCall s) := h.driver.of_eq rfl rfl
  cases hn with
  | returned v => exact idle_inv _ (hd.of_eq rfl rfl) h.memory rfl (h.idle hi).1 rfl rfl hk
  | poweredUp => exact powerUp_inv h
  | reading b sector count hc hr => exact readSite_call_inv h hi hr b sector hc
  | writing b sector count hc hr => exact writeSite_call_inv h hi hr b sector hc s.cardType
  | synced hr =>
    have hsel := (select_lines (beginCall s).bus).1
    exact finishIoctl_inv (s := { beginCall s with bus := (select (beginCall s).bus).2 }) (hd.of_eq rfl rfl) h.memory
      (hsel.symm ▸ hk) _
  | counting b hr => exact countCmd9_call_inv h hi hr b
  | sized b hr hb =>
    exact finishIoctl_inv (s := storeSize b (beginCall s)) (hd.of_eq rfl rfl) (Memory.wf_writeBytes _ _ _ h.memory) hk _
  | rejected hr => exact finishIoctl_inv hd h.memory hk _

/-- SocketUpdate leaves NotInitialized and bits 7:3 (R31). -/
theorem socketStatus_kept (v : Byte) (nd wp : Bool) :
    socketStatus v nd wp &&& 0xF8#8 = v &&& 0xF8#8 ∧ isNotInitialized (socketStatus v nd wp) = isNotInitialized v := by
  cases nd <;> cases wp <;> revert v <;> decide

theorem socketUpdate_inv {s : State} (h : Inv s) (nd wp : Bool) : Inv (socketUpdate nd wp s) := by
  obtain ⟨hreserved, hbit⟩ := socketStatus_kept s.status nd wp
  have hd : DriverInv (socketUpdate nd wp s) :=
    ⟨hreserved.trans h.driver.statusReserved, h.driver.typeLegal, by rw [socketUpdate_status, hbit]; exact h.driver.readyIff⟩
  exact ⟨hd, h.memory, h.idle, h.select, h.clock, h.ready, h.result, h.ty, h.count, h.operands, h.poll, h.escape, h.deadline⟩

theorem hostStore_inv {s : State} (h : Inv s) (a : Nat) (bytes : List Byte) : Inv (hostStore a bytes s) :=
  ⟨h.driver.of_eq rfl rfl, Memory.wf_writeBytes bytes _ _ h.memory, h.idle, h.select, h.clock, h.ready, h.result, h.ty,
    h.count, h.operands, h.poll, h.escape, h.deadline⟩

theorem stepIdle_inv {s t : State} (h : Inv s) (hi : s.seq = .idle) (ht : step s = .next t) : Inv t := by
  rcases stepIdle_next hi ht with ⟨-, rfl⟩ | ⟨_, later, -, hn, -⟩ | ⟨nd, wp, later, -, rfl⟩ | ⟨a, bytes, later, -, rfl⟩
  · exact h
  · exact hn.inv (h.setHost later) hi
  · exact socketUpdate_inv (h.setHost later) nd wp
  · exact hostStore_inv (h.setHost later) a bytes

/-! ## A step of the operation in progress -/

theorem stepRun_inv {s t : State} (h : Inv s) (hi : s.seq ≠ .idle) (ht : step s = .next t) : Inv t := by
  have hp := noOverlap_of_next ht hi
  cases hs : s.seq with
  | idle => exact absurd hs hi
  | escape site =>
    have hesc := h.escape
    rw [hs] at hesc
    rw [step_escape hp hs] at ht
    cases ht
    exact issueAt_inv site true _ _ s (.of_inv h (.inl hs)) (fun _ => hesc) nofun
  | frame site =>
    obtain ⟨idx, arg, hf, -, h12⟩ := step_frame hp hs
    rw [hf] at ht
    cases ht
    refine issueAt_inv site false idx arg s (.of_inv h (.inr (.inl hs))) nofun fun hidx => ?_
    obtain rfl := h12.1 hidx
    exact selected_of_label h hs rfl
  | poll site e =>
    rw [step_poll hp hs] at ht
    cases ht
    exact poll_inv h hs _
  | loopHead kind =>
    rw [step_loopHead hp hs] at ht
    cases ht
    exact loopQuery_inv (.of_loopHead h hs)
  | token use =>
    have hcs := selected_of_label h hs rfl
    have hdl := h.deadline
    rw [hs] at hdl
    have hat : At use.site (tokenExchange s).2 :=
      (At.of_token h hs).update rfl rfl rfl rfl rfl rfl rfl rfl rfl rfl rfl rfl
    rw [step_token hp hs] at ht
    split at ht
    · exact receiveData_inv hat hcs ht
    · cases ht
      exact tokenMissed_inv hat hs hcs hdl _
  | xmit use =>
    rw [step_xmit hp hs] at ht
    exact transmitData_inv (.of_xmit h hs) (selected_of_label h hs rfl) ht
  | dataResp use =>
    have hcs := selected_of_label h hs rfl
    have hat : At use.site (respExchange s).2 :=
      (At.of_dataResp h hs).update rfl rfl rfl rfl rfl rfl rfl rfl rfl rfl rfl rfl
    rw [step_dataResp hp hs] at ht
    cases ht
    split
    · exact blockAccepted_inv hat hcs
    · exact blockFailed_inv hat hcs
  | stop =>
    rw [step_stop hp hs] at ht
    cases ht
    exact transmitStop_inv (.of_stop h hs)
  | initEnd =>
    rw [step_initEnd hp hs] at ht
    cases ht
    exact finishInit_inv h hs
  | ioEnd =>
    have hk := h.clock
    rw [hs] at hk
    rw [step_ioEnd hp hs] at ht
    cases ht
    exact finishIoctl_inv h.driver h.memory hk _
  | countEnd ok =>
    have hk := h.clock
    rw [hs] at hk
    rw [step_countEnd hp hs] at ht
    cases ht
    exact finishIoctl_inv h.driver h.memory hk _

/-! ## The statements -/

/-- Settles O51: a step at IDLE is one of `stepIdle_next`'s, and in an operation each label's rule has its lemma. -/
theorem stepKeepsInvariant : Obligations.StepKeepsInvariant := by
  unfold Obligations.StepKeepsInvariant
  intro s t h ht
  by_cases hi : s.seq = .idle
  · exact stepIdle_inv h hi ht
  · exact stepRun_inv h hi ht

/-- Settles O12: at reset the block is at IDLE with no card type, a slow clock and no memory listed (R45). -/
theorem resetSatisfiesInvariant : Obligations.ResetSatisfiesInvariant := by
  unfold Obligations.ResetSatisfiesInvariant
  exact idle_inv State.reset ⟨rfl, .inl rfl, by decide⟩ rfl rfl rfl rfl rfl (by decide)

/-- Settles O4: each word's bytes are decoded in its width's formats. -/
theorem sampleWordsDecode : Obligations.SampleWordsDecode := by
  unfold Obligations.SampleWordsDecode
  decide

end Sys2Proof.Machine
end
